-- ==== Sys2Proof/Word.lean ====
section
/-! DEFINITION. The word types of the core (00_scope.md R4): bytes, 16-bit words, and the fields of an instruction word (30_encoding.md R61). -/

namespace Sys2Proof

/-- An 8-bit value: a general register, a timer, a memory byte (R4). -/
abbrev Byte := BitVec 8

/-- A 16-bit value: `I`, `pc`, a stack entry, an instruction word (R4). -/
abbrev Word := BitVec 16

/-- The index of a general register, a 4-bit field of the instruction word (R61); every value is valid (R63). -/
abbrev RegIdx := BitVec 4

/-- A 4-bit field: the sprite height `n`, or a secondary key (R61). -/
abbrev Nibble := BitVec 4

/-- A 12-bit address literal `nnn` (R61). -/
abbrev Addr12 := BitVec 12

end Sys2Proof
end

