-- ==== Sys2Proof/Syntax.lean ====
section
/-! DEFINITION. The instructions: one constructor per row of spec/opcode_table.json, with the fields its format gives it (30_encoding.md R61, R62, R74). -/

namespace Sys2Proof

/-- An instruction, in the table's order. Ignored bits of an alias are not operands (R72; log entry 10). The four no-op
rows keep the bits that put the word in the no-op space, which the no-op then ignores (40_step_dispatch.md R85; log entry 10). -/
inductive Instr where
  /-- CLS, `0??0` (R151) -/
  | cls
  /-- RET, `0??E` (R92) -/
  | ret
  /-- JP nnn, `1nnn` (R90) -/
  | jp (nnn : Addr12)
  /-- CALL nnn, `2nnn` (R91) -/
  | call (nnn : Addr12)
  /-- SE Vx, kk, `3xkk` (R93) -/
  | seByte (x : RegIdx) (kk : Byte)
  /-- SNE Vx, kk, `4xkk` (R94) -/
  | sneByte (x : RegIdx) (kk : Byte)
  /-- SE Vx, Vy, `5xy?` (R95) -/
  | seReg (x y : RegIdx)
  /-- LD Vx, kk, `6xkk` (R101) -/
  | ldByte (x : RegIdx) (kk : Byte)
  /-- ADD Vx, kk, `7xkk` (R102) -/
  | addByte (x : RegIdx) (kk : Byte)
  /-- LD Vx, Vy, `8xy0` (R103) -/
  | ldReg (x y : RegIdx)
  /-- OR Vx, Vy, `8xy1` (R104) -/
  | orReg (x y : RegIdx)
  /-- AND Vx, Vy, `8xy2` (R105) -/
  | andReg (x y : RegIdx)
  /-- XOR Vx, Vy, `8xy3` (R106) -/
  | xorReg (x y : RegIdx)
  /-- ADD Vx, Vy, `8xy4` (R107) -/
  | addReg (x y : RegIdx)
  /-- SUB Vx, Vy, `8xy5` (R108) -/
  | sub (x y : RegIdx)
  /-- SHR Vx, `8x?6` (R109) -/
  | shr (x : RegIdx)
  /-- SUBN Vx, Vy, `8xy7` (R110) -/
  | subn (x y : RegIdx)
  /-- SHL Vx, `8x?E` (R111) -/
  | shl (x : RegIdx)
  /-- SNE Vx, Vy, `9xy?` (R96) -/
  | sneReg (x y : RegIdx)
  /-- LD I, nnn, `Annn` (R120) -/
  | ldI (nnn : Addr12)
  /-- JP V0, nnn, `Bnnn` (R97) -/
  | jpV0 (nnn : Addr12)
  /-- RND Vx, kk, `Cxkk` (R140) -/
  | rnd (x : RegIdx) (kk : Byte)
  /-- DRW Vx, Vy, n, `Dxyn` (R150) -/
  | drw (x y : RegIdx) (n : Nibble)
  /-- SKP Vx, `Ex?E` (R160) -/
  | skp (x : RegIdx)
  /-- SKNP Vx, `Ex?1` (R161) -/
  | sknp (x : RegIdx)
  /-- LD Vx, DT, `Fx07` (R170) -/
  | ldVxDt (x : RegIdx)
  /-- LD Vx, K, `Fx0A` (R162) -/
  | ldVxK (x : RegIdx)
  /-- LD DT, Vx, `Fx15` (R171) -/
  | ldDtVx (x : RegIdx)
  /-- LD ST, Vx, `Fx18` (R172) -/
  | ldStVx (x : RegIdx)
  /-- ADD I, Vx, `Fx1E` (R121) -/
  | addI (x : RegIdx)
  /-- LD F, Vx, `Fx29` (R122) -/
  | ldF (x : RegIdx)
  /-- LD B, Vx, `Fx33` (R130) -/
  | ldB (x : RegIdx)
  /-- LD [I], Vx, `Fx55` (R131) -/
  | ldMemVx (x : RegIdx)
  /-- LD Vx, [I], `Fx65` (R132) -/
  | ldVxMem (x : RegIdx)
  /-- the rest of family 0, SYS nnn (R85, R67) -/
  | nop0 (nnn : Addr12)
  /-- the rest of family 8 (R85, R68) -/
  | nop8 (x y : RegIdx) (key : Nibble)
  /-- the rest of family E (R85, R69) -/
  | nopE (x : RegIdx) (mid key : Nibble)
  /-- the rest of family F (R85, R71) -/
  | nopF (x : RegIdx) (key : Byte)
  deriving DecidableEq, Repr

end Sys2Proof
end

