-- ==== Sys2Proof/Config.lean ====
section
/-! DEFINITION. What an implementation fixes: every parameter of 00_scope.md R5 as a field of `Config`, and the free value that stands for the port `rnd_in`. The values the spec takes are in Machine/Params.lean. -/

namespace Sys2Proof

/-- `EDGE_POLICY`: what happens to sprite pixels beyond the framebuffer edge (R5, 46_draw_clear.md R153). -/
inductive EdgePolicy where
  | clip
  | wrap
  deriving DecidableEq, Repr

/-- `KEY_INDEX_POLICY`: what a key index above 15 does (R5, 47_input.md R163). -/
inductive KeyIndexPolicy where
  | fault
  | mask4
  deriving DecidableEq, Repr

/-- A row of an opcode table: a word `w` matches it when `w and mask = pattern`; `build` says which instruction a
matching word is. Rows of priority 1 apply only when no row of priority 0 matches (30_encoding.md R73);
what overlapping rows and priorities above 1, which the spec's table has not, mean: log entry 24 (DESIGN CHOICE). -/
structure OpcodeRow where
  mnemonic : String
  pattern : Word
  mask : Word
  priority : Nat
  build : Word → Instr

/-- The parameters of R5, one field each: "A model takes each as a configuration field so a claim can name or quantify
over it". No field of the state depends on them by its type, so one `State` serves every configuration
(`Safety.ShapeOk`). -/
structure Config where
  /-- `MEM_SIZE`: bytes of memory -/
  memSize : Nat
  /-- `FONT_BASE`: address of glyph 0 -/
  fontBase : Nat
  /-- `GLYPH_BYTES`: bytes per glyph -/
  glyphBytes : Nat
  /-- `PROG_ORIGIN`: first program byte and reset value of `pc` -/
  progOrigin : Nat
  /-- `PROG_TOP`: one past the last address a program load may write (70_reset_and_hazards.md R215, D20) -/
  progTop : Nat
  /-- `FB_WIDTH`: framebuffer columns (D6) -/
  fbWidth : Nat
  /-- `FB_HEIGHT`: framebuffer rows (D6) -/
  fbHeight : Nat
  /-- `STACK_DEPTH`: call-stack entries (D10) -/
  stackDepth : Nat
  /-- `FONT`: the font bytes, from `FONT_BASE` on (20_memory.md R46, D19) -/
  font : List Byte
  /-- `MEM_INIT`: the byte a reset leaves at an address outside the font (10_state.md R25, D18) -/
  memInit : Nat → Byte
  /-- `OPCODE_TABLE`: the map from instruction word to behaviour (30_encoding.md R66, D1) -/
  opcodeTable : List OpcodeRow
  /-- `BNNN_DEFINED`: family 0xB is JP V0,nnn, or is refused by name (41_control_flow.md R97, D2); beside another
  `OPCODE_TABLE` the switch follows the behaviour, not the word (log entry 25, DESIGN CHOICE) -/
  bnnnDefined : Bool
  /-- `EDGE_POLICY` (D8) -/
  edgePolicy : EdgePolicy
  /-- `KEY_INDEX_POLICY` (D14) -/
  keyIndexPolicy : KeyIndexPolicy

/-- The configuration with another `MEM_INIT` (D18: "the model quantifies over them"). -/
def Config.withMemInit (cfg : Config) (memInit : Nat → Byte) : Config := { cfg with memInit := memInit }

/-- The byte a reset leaves at an address: the font, and `MEM_INIT` elsewhere (10_state.md R25). -/
def Config.resetByte (cfg : Config) (a : Nat) : Byte :=
  if cfg.fontBase ≤ a then (cfg.font[a - cfg.fontBase]?).getD (cfg.memInit a) else cfg.memInit a

/-- FREE VALUE (log entry 4, DESIGN CHOICE, safe). The byte on the port `rnd_in` at the `k`-th RND the core executes
(45_random.md R141: "a draw under no law"). It has no body, so nothing can be proved of any byte it gives. -/
opaque Config.rndIn : Nat → Byte

end Sys2Proof
end

