-- ==== Sys2Proof/WellFormed.lean ====
section
/-! DEFINITION. When an `Instr` is one the decoder can give. Operand fields have the width of their literal, so every
operand value is valid (30_encoding.md R63); only the four no-op rows carry a condition: their secondary key is none that
is defined (R67, R68, R69, R71, R85). -/

namespace Sys2Proof

/-- The secondary keys defined in family 0 (R67). -/
abbrev definedKey0 (k : Nibble) : Prop := k = 0x0#4 ∨ k = 0xE#4

/-- The secondary keys defined in family 8 (R68). -/
abbrev definedKey8 (k : Nibble) : Prop := k ≤ 0x7#4 ∨ k = 0xE#4

/-- The secondary keys defined in family E (R69). -/
abbrev definedKeyE (k : Nibble) : Prop := k = 0xE#4 ∨ k = 0x1#4

/-- The secondary keys defined in family F (R71). -/
abbrev definedKeyF (k : Byte) : Prop :=
  k ∈ [0x07#8, 0x0A#8, 0x15#8, 0x18#8, 0x1E#8, 0x29#8, 0x33#8, 0x55#8, 0x65#8]

/-- Only a no-op can be ill-formed: when its key is a defined one, the word is another instruction's. -/
def Instr.wellFormed : Instr → Bool
  | .nop0 nnn => decide (¬ definedKey0 (nnn.extractLsb' 0 4))
  | .nop8 _ _ key => decide (¬ definedKey8 key)
  | .nopE _ _ key => decide (¬ definedKeyE key)
  | .nopF _ key => decide (¬ definedKeyF key)
  | .cls | .ret | .jp _ | .call _ | .seByte _ _ | .sneByte _ _ | .seReg _ _ | .ldByte _ _ | .addByte _ _ => true
  | .ldReg _ _ | .orReg _ _ | .andReg _ _ | .xorReg _ _ | .addReg _ _ | .sub _ _ | .shr _ | .subn _ _ | .shl _ => true
  | .sneReg _ _ | .ldI _ | .jpV0 _ | .rnd _ _ | .drw _ _ _ | .skp _ | .sknp _ => true
  | .ldVxDt _ | .ldVxK _ | .ldDtVx _ | .ldStVx _ | .addI _ | .ldF _ | .ldB _ | .ldMemVx _ | .ldVxMem _ => true

end Sys2Proof
end

