-- ==== Sys2Proof/Decode.lean ====
section
/-! DEFINITION. Decoding and encoding (30_encoding.md R60 to R73): the two-level lookup, the opcode table as data with the
decoder it drives, and the encoder of canonical words. -/

namespace Sys2Proof

/-! ### Fields of the instruction word (R61) -/

/-- `op = w[15:12]` -/
def fieldOp (w : Word) : Nibble := w.extractLsb' 12 4

/-- `x = w[11:8]` -/
def fieldX (w : Word) : RegIdx := w.extractLsb' 8 4

/-- `y = w[7:4]` -/
def fieldY (w : Word) : RegIdx := w.extractLsb' 4 4

/-- `n = w[3:0]` -/
def fieldN (w : Word) : Nibble := w.extractLsb' 0 4

/-- `kk = w[7:0]` -/
def fieldKK (w : Word) : Byte := w.extractLsb' 0 8

/-- `nnn = w[11:0]` -/
def fieldNNN (w : Word) : Addr12 := w.extractLsb' 0 12

/-! ### The two-level lookup (R64) -/

/-- Family 0: secondary key `w[3:0]`; `w[11:4]` is not examined (R67). -/
def decodeFamily0 (w : Word) : Instr :=
  match fieldN w with
  | 0x0#4 => .cls
  | 0xE#4 => .ret
  | _ => .nop0 (fieldNNN w)

/-- Family 8: secondary key `w[3:0]` (R68). -/
def decodeFamily8 (w : Word) : Instr :=
  match fieldN w with
  | 0x0#4 => .ldReg (fieldX w) (fieldY w)
  | 0x1#4 => .orReg (fieldX w) (fieldY w)
  | 0x2#4 => .andReg (fieldX w) (fieldY w)
  | 0x3#4 => .xorReg (fieldX w) (fieldY w)
  | 0x4#4 => .addReg (fieldX w) (fieldY w)
  | 0x5#4 => .sub (fieldX w) (fieldY w)
  | 0x6#4 => .shr (fieldX w)
  | 0x7#4 => .subn (fieldX w) (fieldY w)
  | 0xE#4 => .shl (fieldX w)
  | k => .nop8 (fieldX w) (fieldY w) k

/-- Family E: secondary key `w[3:0]`; `w[7:4]` is not examined (R69). -/
def decodeFamilyE (w : Word) : Instr :=
  match fieldN w with
  | 0xE#4 => .skp (fieldX w)
  | 0x1#4 => .sknp (fieldX w)
  | k => .nopE (fieldX w) (fieldY w) k

/-- Family F: secondary key `w[7:0]` (R71). -/
def decodeFamilyF (w : Word) : Instr :=
  match fieldKK w with
  | 0x07#8 => .ldVxDt (fieldX w)
  | 0x0A#8 => .ldVxK (fieldX w)
  | 0x15#8 => .ldDtVx (fieldX w)
  | 0x18#8 => .ldStVx (fieldX w)
  | 0x1E#8 => .addI (fieldX w)
  | 0x29#8 => .ldF (fieldX w)
  | 0x33#8 => .ldB (fieldX w)
  | 0x55#8 => .ldMemVx (fieldX w)
  | 0x65#8 => .ldVxMem (fieldX w)
  | k => .nopF (fieldX w) k

/-- The decoder: a total function of the 16-bit word (R64, R76). Level one selects the family by the high nibble (R65);
an unmatched secondary key is a no-op (R70). -/
def decode (w : Word) : Instr :=
  match fieldOp w with
  | 0x0#4 => decodeFamily0 w
  | 0x1#4 => .jp (fieldNNN w)
  | 0x2#4 => .call (fieldNNN w)
  | 0x3#4 => .seByte (fieldX w) (fieldKK w)
  | 0x4#4 => .sneByte (fieldX w) (fieldKK w)
  | 0x5#4 => .seReg (fieldX w) (fieldY w)
  | 0x6#4 => .ldByte (fieldX w) (fieldKK w)
  | 0x7#4 => .addByte (fieldX w) (fieldKK w)
  | 0x8#4 => decodeFamily8 w
  | 0x9#4 => .sneReg (fieldX w) (fieldY w)
  | 0xA#4 => .ldI (fieldNNN w)
  | 0xB#4 => .jpV0 (fieldNNN w)
  | 0xC#4 => .rnd (fieldX w) (fieldKK w)
  | 0xD#4 => .drw (fieldX w) (fieldY w) (fieldN w)
  | 0xE#4 => decodeFamilyE w
  | _ => decodeFamilyF w

/-! ### Bytes -/

/-- The word of two bytes, the first being `w[15:8]` (20_memory.md R42). -/
def wordOfBytes (hi lo : Byte) : Word := BitVec.ofNat 16 (hi.toNat * 256 + lo.toNat)

/-- `w[15:8]`, the byte at the lower address (R42). -/
def highByte (w : Word) : Byte := w.extractLsb' 8 8

/-- `w[7:0]`, the byte at the higher address (R42). -/
def lowByte (w : Word) : Byte := w.extractLsb' 0 8

/-- Why a byte sequence holds no instruction. Every word decodes (R64), so being too short is the only reason. -/
inductive DecodeError where
  /-- fewer than two bytes are left (R60: one length, 16 bits) -/
  | tooShort
  deriving DecidableEq, Repr

/-- The instruction at the head of a byte sequence, with the rest of the sequence; instructions are two bytes,
big-endian (R60). -/
def decodeBytes : List Byte → Except DecodeError (Instr × List Byte)
  | hi :: lo :: rest => .ok (decode (wordOfBytes hi lo), rest)
  | _ => .error .tooShort

/-- The bytes of an instruction word as memory holds them, in ascending address order (R42). -/
def bytesOfWord (w : Word) : List Byte := [highByte w, lowByte w]

/-- The table word `w` of `nbits` bits as an instruction word: bits at and above `nbits` are 0. -/
def tableWord (nbits w : Nat) : Word := BitVec.ofNat 16 (w % 2 ^ nbits)

/-- What the decoder reads from the table word `w` of `nbits` bits: its bits above `nbits` are 0, its 16 bits are laid
out as two big-endian bytes. A word of more than 16 bits is no instruction (R60). -/
def decodeTableWord (nbits w : Nat) : Option Instr :=
  if nbits ≤ 16 then
    match decodeBytes (bytesOfWord (tableWord nbits w)) with
    | .ok (i, _) => some i
    | .error _ => none
  else none

/-! ### The encoder: canonical words (R74, R76) -/

/-- A word of four nibbles, most significant first. -/
def wordOfNibbles (op x y n : Nibble) : Word :=
  BitVec.ofNat 16 (op.toNat * 4096 + x.toNat * 256 + y.toNat * 16 + n.toNat)

/-- A word of format K: `op x kk` (R62). -/
def wordOfByte (op : Nibble) (x : RegIdx) (kk : Byte) : Word :=
  BitVec.ofNat 16 (op.toNat * 4096 + x.toNat * 256 + kk.toNat)

/-- A word of format A: `op nnn` (R62). -/
def wordOfAddr (op : Nibble) (nnn : Addr12) : Word :=
  BitVec.ofNat 16 (op.toNat * 4096 + nnn.toNat)

/-- The canonical word: every ignored bit zero, but for `00E0`, `00EE`, `Ex9E` and `ExA1` (R74). -/
def encode : Instr → Word
  | .cls => 0x00E0#16
  | .ret => 0x00EE#16
  | .jp nnn => wordOfAddr 0x1#4 nnn
  | .call nnn => wordOfAddr 0x2#4 nnn
  | .seByte x kk => wordOfByte 0x3#4 x kk
  | .sneByte x kk => wordOfByte 0x4#4 x kk
  | .seReg x y => wordOfNibbles 0x5#4 x y 0x0#4
  | .ldByte x kk => wordOfByte 0x6#4 x kk
  | .addByte x kk => wordOfByte 0x7#4 x kk
  | .ldReg x y => wordOfNibbles 0x8#4 x y 0x0#4
  | .orReg x y => wordOfNibbles 0x8#4 x y 0x1#4
  | .andReg x y => wordOfNibbles 0x8#4 x y 0x2#4
  | .xorReg x y => wordOfNibbles 0x8#4 x y 0x3#4
  | .addReg x y => wordOfNibbles 0x8#4 x y 0x4#4
  | .sub x y => wordOfNibbles 0x8#4 x y 0x5#4
  | .shr x => wordOfNibbles 0x8#4 x 0x0#4 0x6#4
  | .subn x y => wordOfNibbles 0x8#4 x y 0x7#4
  | .shl x => wordOfNibbles 0x8#4 x 0x0#4 0xE#4
  | .sneReg x y => wordOfNibbles 0x9#4 x y 0x0#4
  | .ldI nnn => wordOfAddr 0xA#4 nnn
  | .jpV0 nnn => wordOfAddr 0xB#4 nnn
  | .rnd x kk => wordOfByte 0xC#4 x kk
  | .drw x y n => wordOfNibbles 0xD#4 x y n
  | .skp x => wordOfByte 0xE#4 x 0x9E#8
  | .sknp x => wordOfByte 0xE#4 x 0xA1#8
  | .ldVxDt x => wordOfByte 0xF#4 x 0x07#8
  | .ldVxK x => wordOfByte 0xF#4 x 0x0A#8
  | .ldDtVx x => wordOfByte 0xF#4 x 0x15#8
  | .ldStVx x => wordOfByte 0xF#4 x 0x18#8
  | .addI x => wordOfByte 0xF#4 x 0x1E#8
  | .ldF x => wordOfByte 0xF#4 x 0x29#8
  | .ldB x => wordOfByte 0xF#4 x 0x33#8
  | .ldMemVx x => wordOfByte 0xF#4 x 0x55#8
  | .ldVxMem x => wordOfByte 0xF#4 x 0x65#8
  | .nop0 nnn => wordOfAddr 0x0#4 nnn
  | .nop8 x y key => wordOfNibbles 0x8#4 x y key
  | .nopE x mid key => wordOfNibbles 0xE#4 x mid key
  | .nopF x key => wordOfByte 0xF#4 x key

/-- A word is canonical when its ignored bits are those an assembler emits (R74); a no-op word ignores every field and is
its own canonical word. -/
def isCanonicalWord (w : Word) : Bool :=
  match fieldOp w with
  | 0x0#4 =>
    match fieldN w with
    | 0x0#4 => w == 0x00E0#16
    | 0xE#4 => w == 0x00EE#16
    | _ => true
  | 0x5#4 => fieldN w == 0x0#4
  | 0x9#4 => fieldN w == 0x0#4
  | 0x8#4 =>
    match fieldN w with
    | 0x6#4 => fieldY w == 0x0#4
    | 0xE#4 => fieldY w == 0x0#4
    | _ => true
  | 0xE#4 =>
    match fieldN w with
    | 0xE#4 => fieldY w == 0x9#4
    | 0x1#4 => fieldY w == 0xA#4
    | _ => true
  | _ => true

/-! ### The opcode table as data (R66, R73, D1) -/

/-- `w and mask = match` (R73). -/
def OpcodeRow.matchesWord (r : OpcodeRow) (w : Word) : Bool := w &&& r.mask == r.pattern

/-- The rows of families 0 to 7 with priority 0 (R65, R67). -/
def opcodeRowsLow : List OpcodeRow :=
  [⟨"CLS", 0x0000#16, 0xF00F#16, 0, fun _ => .cls⟩,
   ⟨"RET", 0x000E#16, 0xF00F#16, 0, fun _ => .ret⟩,
   ⟨"JP", 0x1000#16, 0xF000#16, 0, fun w => .jp (fieldNNN w)⟩,
   ⟨"CALL", 0x2000#16, 0xF000#16, 0, fun w => .call (fieldNNN w)⟩,
   ⟨"SE.kk", 0x3000#16, 0xF000#16, 0, fun w => .seByte (fieldX w) (fieldKK w)⟩,
   ⟨"SNE.kk", 0x4000#16, 0xF000#16, 0, fun w => .sneByte (fieldX w) (fieldKK w)⟩,
   ⟨"SE.reg", 0x5000#16, 0xF000#16, 0, fun w => .seReg (fieldX w) (fieldY w)⟩,
   ⟨"LD.kk", 0x6000#16, 0xF000#16, 0, fun w => .ldByte (fieldX w) (fieldKK w)⟩,
   ⟨"ADD.kk", 0x7000#16, 0xF000#16, 0, fun w => .addByte (fieldX w) (fieldKK w)⟩]

/-- The rows of family 8 with priority 0 (R68). -/
def opcodeRows8 : List OpcodeRow :=
  [⟨"LD.reg", 0x8000#16, 0xF00F#16, 0, fun w => .ldReg (fieldX w) (fieldY w)⟩,
   ⟨"OR", 0x8001#16, 0xF00F#16, 0, fun w => .orReg (fieldX w) (fieldY w)⟩,
   ⟨"AND", 0x8002#16, 0xF00F#16, 0, fun w => .andReg (fieldX w) (fieldY w)⟩,
   ⟨"XOR", 0x8003#16, 0xF00F#16, 0, fun w => .xorReg (fieldX w) (fieldY w)⟩,
   ⟨"ADD.reg", 0x8004#16, 0xF00F#16, 0, fun w => .addReg (fieldX w) (fieldY w)⟩,
   ⟨"SUB", 0x8005#16, 0xF00F#16, 0, fun w => .sub (fieldX w) (fieldY w)⟩,
   ⟨"SHR", 0x8006#16, 0xF00F#16, 0, fun w => .shr (fieldX w)⟩,
   ⟨"SUBN", 0x8007#16, 0xF00F#16, 0, fun w => .subn (fieldX w) (fieldY w)⟩,
   ⟨"SHL", 0x800E#16, 0xF00F#16, 0, fun w => .shl (fieldX w)⟩]

/-- The rows of families 9 to E with priority 0 (R65, R69). -/
def opcodeRowsHigh : List OpcodeRow :=
  [⟨"SNE.reg", 0x9000#16, 0xF000#16, 0, fun w => .sneReg (fieldX w) (fieldY w)⟩,
   ⟨"LD.I", 0xA000#16, 0xF000#16, 0, fun w => .ldI (fieldNNN w)⟩,
   ⟨"JP.V0", 0xB000#16, 0xF000#16, 0, fun w => .jpV0 (fieldNNN w)⟩,
   ⟨"RND", 0xC000#16, 0xF000#16, 0, fun w => .rnd (fieldX w) (fieldKK w)⟩,
   ⟨"DRW", 0xD000#16, 0xF000#16, 0, fun w => .drw (fieldX w) (fieldY w) (fieldN w)⟩,
   ⟨"SKP", 0xE00E#16, 0xF00F#16, 0, fun w => .skp (fieldX w)⟩,
   ⟨"SKNP", 0xE001#16, 0xF00F#16, 0, fun w => .sknp (fieldX w)⟩]

/-- The rows of family F with priority 0 (R71). -/
def opcodeRowsF : List OpcodeRow :=
  [⟨"LD.Vx.DT", 0xF007#16, 0xF0FF#16, 0, fun w => .ldVxDt (fieldX w)⟩,
   ⟨"LD.Vx.K", 0xF00A#16, 0xF0FF#16, 0, fun w => .ldVxK (fieldX w)⟩,
   ⟨"LD.DT.Vx", 0xF015#16, 0xF0FF#16, 0, fun w => .ldDtVx (fieldX w)⟩,
   ⟨"LD.ST.Vx", 0xF018#16, 0xF0FF#16, 0, fun w => .ldStVx (fieldX w)⟩,
   ⟨"ADD.I", 0xF01E#16, 0xF0FF#16, 0, fun w => .addI (fieldX w)⟩,
   ⟨"LD.F", 0xF029#16, 0xF0FF#16, 0, fun w => .ldF (fieldX w)⟩,
   ⟨"LD.B", 0xF033#16, 0xF0FF#16, 0, fun w => .ldB (fieldX w)⟩,
   ⟨"LD.[I].Vx", 0xF055#16, 0xF0FF#16, 0, fun w => .ldMemVx (fieldX w)⟩,
   ⟨"LD.Vx.[I]", 0xF065#16, 0xF0FF#16, 0, fun w => .ldVxMem (fieldX w)⟩]

/-- The four catch-all rows, priority 1 (R73, R85). -/
def opcodeRowsNop : List OpcodeRow :=
  [⟨"NOP.0", 0x0000#16, 0xF000#16, 1, fun w => .nop0 (fieldNNN w)⟩,
   ⟨"NOP.8", 0x8000#16, 0xF000#16, 1, fun w => .nop8 (fieldX w) (fieldY w) (fieldN w)⟩,
   ⟨"NOP.E", 0xE000#16, 0xF000#16, 1, fun w => .nopE (fieldX w) (fieldY w) (fieldN w)⟩,
   ⟨"NOP.F", 0xF000#16, 0xF000#16, 1, fun w => .nopF (fieldX w) (fieldKK w)⟩]

/-- `OPCODE_TABLE`: the 38 rows of spec/opcode_table.json (R5, R73, D1). -/
def opcodeTable : List OpcodeRow :=
  opcodeRowsLow ++ opcodeRows8 ++ opcodeRowsHigh ++ opcodeRowsF ++ opcodeRowsNop

/-- Decoding by a table: a matching row of priority 0, else a matching row (R73). R73 speaks of the spec's own table, whose
rows of one priority do not overlap and whose priorities are 0 and 1. DESIGN CHOICE for any other table (log entry 24,
unsafe): of several matching rows the first listed wins, and every priority above 0 counts alike. -/
def decodeByTable (table : List OpcodeRow) (w : Word) : Option Instr :=
  match table.find? (fun r => r.priority == 0 && r.matchesWord w) with
  | some r => some (r.build w)
  | none => (table.find? (fun r => r.matchesWord w)).map (fun r => r.build w)

/-- The decoder a configuration gives: its opcode table; a word that no row of it matches is a no-op, "unknown/unmapped
opcode values are *not* errors; they execute as no-ops" (R70, log entry 22). The spec's table covers every word (R73). -/
def Config.decode (cfg : Config) (w : Word) : Instr := (decodeByTable cfg.opcodeTable w).getD (.nop0 (fieldNNN w))

/-- The rows of a table that a word selects (R73): the matching rows of priority 0, or, when there are none, the
matching rows; every priority above 0 counts alike (log entry 24). -/
def selectedRows (table : List OpcodeRow) (w : Word) : List OpcodeRow :=
  match table.filter (fun r => r.priority == 0 && r.matchesWord w) with
  | [] => table.filter (fun r => r.matchesWord w)
  | rs => rs

end Sys2Proof
end

