-- ==== Sys2Proof/Machine/Params.lean ====
section
/-! DEFINITION. The values the spec takes for its open parameters (00_scope.md R5) and the font table (20_memory.md R46). -/

namespace Sys2Proof

/-- Glyphs 0 to 7 (R46). -/
def standardFontLow : List Byte :=
  [0xF0, 0x90, 0x90, 0x90, 0xF0,
   0x20, 0x60, 0x20, 0x20, 0x70,
   0xF0, 0x10, 0xF0, 0x80, 0xF0,
   0xF0, 0x10, 0xF0, 0x10, 0xF0,
   0x90, 0x90, 0xF0, 0x10, 0x10,
   0xF0, 0x80, 0xF0, 0x10, 0xF0,
   0xF0, 0x80, 0xF0, 0x90, 0xF0,
   0xF0, 0x10, 0x20, 0x40, 0x40]

/-- Glyphs 8 to F (R46). -/
def standardFontHigh : List Byte :=
  [0xF0, 0x90, 0xF0, 0x90, 0xF0,
   0xF0, 0x90, 0xF0, 0x10, 0xF0,
   0xF0, 0x90, 0xF0, 0x90, 0x90,
   0xE0, 0x90, 0xE0, 0x90, 0xE0,
   0xF0, 0x80, 0x80, 0x80, 0xF0,
   0xE0, 0x90, 0x90, 0x90, 0xE0,
   0xF0, 0x80, 0xF0, 0x80, 0xF0,
   0xF0, 0x80, 0xF0, 0x80, 0x80]

/-- The spec's `FONT`: 16 glyphs of 5 bytes, glyph d at `FONT_BASE + 5*d` (R46; UNVERIFIED of the repository, log entry 18). -/
def standardFont : List Byte := standardFontLow ++ standardFontHigh

/-- The "value taken" column of R5 (UNVERIFIED of the repository, log entries 7, 18, 19). `MEM_INIT` is free: zeros here
(DESIGN CHOICE, unsafe, log entry 1). -/
def Config.taken : Config where
  memSize := 4096
  fontBase := 0x000
  glyphBytes := 5
  progOrigin := 0x200
  progTop := 0x1000
  fbWidth := 64
  fbHeight := 32
  stackDepth := 16
  font := standardFont
  memInit := fun _ => 0
  opcodeTable := Sys2Proof.opcodeTable
  bnnnDefined := true
  edgePolicy := .clip
  keyIndexPolicy := .fault

end Sys2Proof
end

