-- ==== Sys2Proof/Machine/State.lean ====
section
/-! DEFINITION. The whole state of the core (10_state.md sections 1 to 12), the reasons a run can stop, and the state after reset. -/

namespace Sys2Proof.Machine

/-- The fault latch's cause (60_exceptions.md R181). -/
inductive Cause where
  /-- code 0: running -/
  | none
  /-- code 1: `FETCH_RANGE` -/
  | fetchRange
  /-- code 2: `MEM_READ_RANGE` -/
  | memReadRange
  /-- code 3: `MEM_WRITE_RANGE` -/
  | memWriteRange
  /-- code 4: `STACK_OVERFLOW` -/
  | stackOverflow
  /-- code 5: `STACK_UNDERFLOW` -/
  | stackUnderflow
  /-- code 6: `KEY_INDEX_RANGE` -/
  | keyIndexRange
  deriving DecidableEq, Repr

/-- Memory as a list of (address, byte) pairs in canonical form: addresses rising, below `MEM_SIZE`, no entry equal to
what an unlisted address reads as (`Memory.wf` in Machine/Ops.lean). -/
abbrev Memory := List Host.Cell

/-- The framebuffer `fb[r][c]`: a list of rows of one-bit cells (R19, 46_draw_clear.md R152). `FB_HEIGHT` rows of
`FB_WIDTH` cells each (`Framebuffer.Sized`), which every step keeps. -/
abbrev Framebuffer := List (List Bool)

/-- `FB_HEIGHT` rows of `FB_WIDTH` cells (R19). -/
abbrev Framebuffer.Sized (cfg : Config) (f : Framebuffer) : Prop :=
  f.length = cfg.fbHeight ∧ ∀ row ∈ f, row.length = cfg.fbWidth

/-- The state of the core: the tuple of 10_state.md section 1, and one field of the model's own (`rndCount`). -/
structure State where
  /-- `V[0..15]`, the general registers; `V[15]` is VF (R10, R11) -/
  v : Vector Byte 16
  /-- `I`, the address register (R13) -/
  regI : Word
  /-- `pc`, the program counter (R12) -/
  pc : Word
  /-- `sp`, the number of valid entries on the call stack, 0 to `STACK_DEPTH` (R14; `Safety.ShapeOk`, log entry 12) -/
  sp : Nat
  /-- `stack[0..15]`, the call stack: `STACK_DEPTH` entries (R15; `Safety.ShapeOk`) -/
  stack : List Word
  /-- `DT`, the delay timer (R16) -/
  dt : Byte
  /-- `ST`, the sound timer (R17) -/
  st : Byte
  /-- `keys[0..15]`, the input latch (R18) -/
  keys : Vector Bool 16
  /-- `fb[0..31][0..63]`, the framebuffer (R19) -/
  fb : Framebuffer
  /-- `mem[0..4095]` (R20) -/
  mem : Memory
  /-- `fault`, the cause in the fault latch (R21) -/
  fault : Cause
  /-- `fault_pc` (R21) -/
  faultPc : Word
  /-- `fault_info` (R21) -/
  faultInfo : Word
  /-- The model's own field: how many bytes RND has taken from the port `rnd_in`; it indexes the free value
  `Config.rndIn` (45_random.md R141, log entries 4 and 5). -/
  rndCount : Nat
  deriving DecidableEq, Repr

/-- Reasons a run ends in a fault. No step and no instruction raises one: fault entry is a next state with the latch
written (60_exceptions.md R183), and a halted core still answers every step (40_step_dispatch.md R87). -/
inductive Fault where
  /-- Raised by `Safety.outcomeAfter` alone, when a run has ended with the core halted: "it is a fault outcome, never
  final" (40_step_dispatch.md R87). Carries the latch. Safe: the model stops where the hardware is stopped. -/
  | halted (cause : Cause) (pc info : Word)
  deriving DecidableEq, Repr

/-- Reasons an instruction is given no effect. -/
inductive Refusal where
  /-- Raised by an arm of `exec` for an instruction without a meaning; no arm does. Safe. -/
  | notModelled (mnemonic : String)
  /-- Raised by JP V0,nnn when `BNNN_DEFINED` is false (41_control_flow.md R97: "the whole family 0xB is refused by
  name"); the value taken is true, so no step raises it. Safe. -/
  | bnnnUndefined
  deriving DecidableEq, Repr

/-- The state after reset at the values taken, with `MEM_INIT` all zeros and no program loaded (R25). The font is what
unlisted addresses 0x000 to 0x04F read as. `stack`, `faultPc` and `faultInfo` have no reset value in the spec: DESIGN
CHOICE 0 (log entries 2, 3). `MEM_INIT` is a free parameter: DESIGN CHOICE zeros here (log entry 1), any bytes in
`resetFor` (Machine/HostPort.lean). -/
def State.reset : State where
  v := .replicate 16 0
  regI := 0
  pc := BitVec.ofNat 16 Config.taken.progOrigin
  sp := 0
  stack := .replicate Config.taken.stackDepth 0
  dt := 0
  st := 0
  keys := .replicate 16 false
  fb := .replicate Config.taken.fbHeight (.replicate Config.taken.fbWidth false)
  mem := []
  fault := .none
  faultPc := 0
  faultInfo := 0
  rndCount := 0

end Sys2Proof.Machine
end

