-- ==== Sys2Proof/Machine/Ops.lean ====
section
/-! DEFINITION. The named operations over registers, memory, stack, timers and the fault latch that every instruction is written with (00_scope.md R7). -/

namespace Sys2Proof.Machine

/-! ### General registers (R10) -/

/-- The flag register VF, `V[15]` (R11). -/
def vf : RegIdx := 0xF#4

/-- `V[x]` -/
def State.getV (s : State) (x : RegIdx) : Byte := s.v.get x.toFin

/-- `V[x] <- b` -/
def State.setV (s : State) (x : RegIdx) (b : Byte) : State := { s with v := s.v.set x.toNat b x.isLt }

/-! ### Address register, program counter, timers, framebuffer, key latch -/

/-- `I <- w` -/
def State.setI (s : State) (w : Word) : State := { s with regI := w }

/-- `pc <- target` -/
def State.setPc (s : State) (w : Word) : State := { s with pc := w }

/-- `DT <- b` -/
def State.setDt (s : State) (b : Byte) : State := { s with dt := b }

/-- `ST <- b` -/
def State.setSt (s : State) (b : Byte) : State := { s with st := b }

/-- Replace the framebuffer. -/
def State.setFb (s : State) (f : Framebuffer) : State := { s with fb := f }

/-- Replace the 16 key flags; only the host does so (R18). -/
def State.setKeys (s : State) (k : Vector Bool 16) : State := { s with keys := k }

/-- The width of one instruction, in bytes (41_control_flow.md R98). -/
def instrWidth : Word := 2#16

/-- Advance `pc` by one instruction width: the step's second phase (40_step_dispatch.md R82), and a taken skip (R98). -/
def State.advance (s : State) : State := s.setPc (s.pc + instrWidth)

/-- `pc <- pc - 2`: back onto the executing instruction (R82, 47_input.md R162). -/
def State.retarget (s : State) : State := s.setPc (s.pc - instrWidth)

/-- Skip the next instruction when `c` holds (R98). -/
def State.skipIf (s : State) (c : Bool) : State := if c then s.advance else s

/-! ### Memory (20_memory.md) -/

/-- What an unlisted address reads as: what a reset at the values taken leaves there, the font byte in 0x000 to 0x04F
(R46) and 0 elsewhere (DESIGN CHOICE, unsafe, log entry 1). It is the convention by which a list of cells stands for a
memory, one for every configuration: a reset under another `FONT` or `MEM_INIT` lists the bytes that differ from it. -/
def unlistedByte (a : Nat) : Byte := Config.taken.resetByte a

/-- The byte at an address (R48). -/
def Memory.read : Memory → Nat → Byte
  | [], a => unlistedByte a
  | c :: m, a => if a = c.1 then c.2 else Memory.read m a

/-- An entry is listed when it differs from what an unlisted address reads as. -/
def Memory.cell (a : Nat) (b : Byte) : Memory := if b = unlistedByte a then [] else [(a, b)]

/-- Store a byte, keeping the canonical form. -/
def Memory.write : Memory → Nat → Byte → Memory
  | [], a, b => Memory.cell a b
  | c :: m, a, b =>
    if a < c.1 then Memory.cell a b ++ c :: m
    else if a = c.1 then Memory.cell a b ++ m
    else c :: Memory.write m a b

/-- The canonical form of a memory of `size` bytes: addresses strictly rising and below `size`, no entry equal to what an
unlisted address reads as. -/
abbrev Memory.wfBelow (size : Nat) (m : Memory) : Prop :=
  m.Pairwise (fun c d => c.1 < d.1) ∧ ∀ c ∈ m, c.1 < size ∧ c.2 ≠ unlistedByte c.1

/-- The canonical form at the `MEM_SIZE` taken. -/
abbrev Memory.wf (m : Memory) : Prop := Memory.wfBelow Config.taken.memSize m

/-- Store bytes at ascending addresses from `a` (R49 b). -/
def Memory.writeBytes : Memory → Nat → List Byte → Memory
  | m, _, [] => m
  | m, a, b :: bs => Memory.writeBytes (Memory.write m a b) (a + 1) bs

/-- Read `k` bytes at ascending addresses from `a` (R49 b). -/
def Memory.readBytes (m : Memory) (a k : Nat) : List Byte := (List.range k).map fun j => m.read (a + j)

/-- The byte of `mem` at an address. -/
def State.readByte (s : State) (a : Nat) : Byte := s.mem.read a

/-- The range `a .. a+k-1` lies inside memory; an empty range does wherever it starts (R53, 46_draw_clear.md R150). -/
def inRange (cfg : Config) (a k : Nat) : Bool := k == 0 || a + k ≤ cfg.memSize

/-- `MemRead` of a whole range, checked before anything is read (R45, R53). -/
def State.readRange (cfg : Config) (s : State) (a k : Nat) : Option (List Byte) :=
  if inRange cfg a k then some (s.mem.readBytes a k) else none

/-- `MemWrite` of a whole range, checked before anything is written (R45, R53). -/
def State.writeRange (cfg : Config) (s : State) (a : Nat) (bs : List Byte) : Option State :=
  if inRange cfg a bs.length then some { s with mem := s.mem.writeBytes a bs } else none

/-! ### Call stack (R14, R15) -/

/-- `stack[k]` (R15). -/
def State.entry (s : State) (k : Nat) : Word := (s.stack[k]?).getD 0

/-- Push a return address; `none` when the stack holds `STACK_DEPTH` entries (41_control_flow.md R91). -/
def State.push (cfg : Config) (s : State) (w : Word) : Option State :=
  if s.sp < cfg.stackDepth then some { s with stack := s.stack.set s.sp w, sp := s.sp + 1 } else none

/-- Pop the most recent return address; `none` when the stack is empty (R92). The entry stays in the storage. -/
def State.pop (s : State) : Option (Word × State) :=
  if 0 < s.sp then some (s.entry (s.sp - 1), { s with sp := s.sp - 1 }) else none

/-! ### The random source (45_random.md R141) -/

/-- One draw from `rnd_in`: the free byte at the current count, and the state with the byte consumed. -/
def State.drawRnd (s : State) : Byte × State := (Config.rndIn s.rndCount, { s with rndCount := s.rndCount + 1 })

/-! ### Timer tick (40_step_dispatch.md R84) -/

/-- One tick of a timer: down by 1 unless it is 0. -/
def tickTimer (b : Byte) : Byte := if b = 0#8 then b else b - 1#8

/-- The tick of both timers, the last phase of a step. -/
def State.tick (s : State) : State := { s with dt := tickTimer s.dt, st := tickTimer s.st }

/-! ### Taking a fault (60_exceptions.md R183) -/

/-- The 3-bit code of a cause (R181). -/
def Cause.code : Cause → BitVec 3
  | .none => 0
  | .fetchRange => 1
  | .memReadRange => 2
  | .memWriteRange => 3
  | .stackOverflow => 4
  | .stackUnderflow => 5
  | .keyIndexRange => 6

/-- The core is halted when `fault` is nonzero (R184, 40_step_dispatch.md R87). -/
def State.halted (s : State) : Bool := s.fault != .none

/-- Fault entry: the state is that before the faulting instruction (`pc = pc0`, nothing else had changed), with the
latch written (R183). There is no return from a fault; only reset leaves the halted state (R185). -/
def State.takeFault (s : State) (pc0 : Word) (cause : Cause) (info : Word) : State :=
  { s with pc := pc0, fault := cause, faultPc := pc0, faultInfo := info }

/-- What a step or an instruction answers. -/
abbrev Result := Host.Outcome State Fault Refusal

/-- `raise Fault(cause, info)` inside an instruction, where `pc = pc0 + 2` (R82, R183). -/
def raise (cause : Cause) (info : Word) (s : State) : Result := .next (s.takeFault (s.pc - instrWidth) cause info)

/-- `fault_info` of a range fault on a range that starts at `I`: the lowest out-of-range address, `max(I, MEM_SIZE)` (R53, R181). -/
def rangeInfo (cfg : Config) (i : Word) : Word := BitVec.ofNat 16 (max i.toNat cfg.memSize)

end Sys2Proof.Machine
end

