-- ==== Sys2Proof/Machine/Operands.lean ====
section
/-! DEFINITION. Operand forms: literals (30_encoding.md R63), the effective address `I + k` (20_memory.md R53), the key index (47_input.md R163), the glyph address (43_addressing.md R122), and the register lists of the block transfers (44_memory_block.md R131, R132). -/

namespace Sys2Proof.Machine

/-- `zext_16(nnn)` (R63). -/
def zext12 (nnn : Addr12) : Word := nnn.zeroExtend 16

/-- `zext_16(b)` (R63). -/
def zext8 (b : Byte) : Word := b.zeroExtend 16

/-- The address in `I` as an integer; the effective address of element `k` is `I + k`, never wrapped (R53). -/
def State.addrI (s : State) : Nat := s.regI.toNat

/-- The key a register value names: `none` when it is above 15 and the policy is `fault`; its low 4 bits under `mask4` (R163). -/
def keyIndex (policy : KeyIndexPolicy) (b : Byte) : Option (Fin 16) :=
  match policy with
  | .fault => if h : b.toNat < 16 then some ⟨b.toNat, h⟩ else none
  | .mask4 => some (Fin.ofNat 16 b.toNat)

/-- The least pressed key (47_input.md R162). -/
def lowestKey (keys : Vector Bool 16) : Option (Fin 16) := (List.finRange 16).find? fun k => keys.get k

/-- The first byte of the glyph of a digit value: `FONT_BASE + GLYPH_BYTES * digit`, the digit not masked (R122). -/
def glyphAddr (cfg : Config) (digit : Byte) : Word := BitVec.ofNat 16 (cfg.fontBase + cfg.glyphBytes * digit.toNat)

/-- `V[0..x]`, inclusive of index `x` (R131). -/
def State.regsUpTo (s : State) (x : RegIdx) : List Byte := s.v.toList.take (x.toNat + 1)

/-- `V[k] <- bs[k]` for every `k` below the length of `bs`; the destination is the loop index (R132, conflict C2). -/
def State.loadRegs (s : State) (bs : List Byte) : State :=
  { s with v := Vector.ofFn fun k => (bs[k.val]?).getD (s.v.get k) }

end Sys2Proof.Machine
end

