-- ==== Sys2Proof/Machine/Addressing.lean ====
section
/-! DEFINITION. Address-register instructions (43_addressing.md R120 to R122). None accesses memory, none writes a flag. -/

namespace Sys2Proof.Machine

/-- LD I, nnn (R120). -/
def execLdI (nnn : Addr12) (s : State) : Result := .next (s.setI (zext12 nnn))

/-- ADD I, Vx: modulo 65536, no flag (R121). -/
def execAddI (x : RegIdx) (s : State) : Result := .next (s.setI (s.regI + zext8 (s.getV x)))

/-- LD F, Vx under a configuration: the glyph address of the whole 8-bit value (R122). -/
def loadGlyph (cfg : Config) (x : RegIdx) (s : State) : Result := .next (s.setI (glyphAddr cfg (s.getV x)))

/-- LD F, Vx (R122). -/
def execLdF (x : RegIdx) (s : State) : Result := loadGlyph Config.taken x s

end Sys2Proof.Machine
end

