-- ==== Sys2Proof/Machine/ControlFlow.lean ====
section
/-! DEFINITION. Control-flow instructions (41_control_flow.md R90 to R99). On entry `pc = pc0 + 2` (40_step_dispatch.md R82). -/

namespace Sys2Proof.Machine

/-- JP nnn: `pc <- zext_16(nnn)` (R90). -/
def execJp (nnn : Addr12) (s : State) : Result := .next (s.setPc (zext12 nnn))

/-- JP V0, nnn under a configuration: `pc <- zext_16(nnn) + zext_16(V[0])`, or refused by name when family 0xB is not
defined (R97). R97 speaks of the spec's own table, where this behaviour is family 0xB. DESIGN CHOICE for any other
`OPCODE_TABLE` (log entry 25, unsafe): the refusal belongs to this behaviour, whatever word the table gives it to. -/
def jumpV0 (cfg : Config) (nnn : Addr12) (s : State) : Result :=
  if cfg.bnnnDefined then .next (s.setPc (zext12 nnn + zext8 (s.getV 0x0#4))) else .refused .bnnnUndefined

/-- JP V0, nnn (R97). -/
def execJpV0 (nnn : Addr12) (s : State) : Result := jumpV0 Config.taken nnn s

/-- CALL nnn under a configuration: push `pc`, the return address, then jump; STACK_OVERFLOW at a full stack (R91). -/
def callTo (cfg : Config) (nnn : Addr12) (s : State) : Result :=
  match s.push cfg s.pc with
  | some t => .next (t.setPc (zext12 nnn))
  | none => raise .stackOverflow (BitVec.ofNat 16 s.sp) s

/-- CALL nnn (R91). -/
def execCall (nnn : Addr12) (s : State) : Result := callTo Config.taken nnn s

/-- RET: pop into `pc`; STACK_UNDERFLOW at an empty stack (R92). -/
def execRet (s : State) : Result :=
  match s.pop with
  | some (w, t) => .next (t.setPc w)
  | none => raise .stackUnderflow 0#16 s

/-- SE Vx, kk (R93). -/
def execSeByte (x : RegIdx) (kk : Byte) (s : State) : Result := .next (s.skipIf (s.getV x == kk))

/-- SNE Vx, kk (R94). -/
def execSneByte (x : RegIdx) (kk : Byte) (s : State) : Result := .next (s.skipIf (s.getV x != kk))

/-- SE Vx, Vy (R95). -/
def execSeReg (x y : RegIdx) (s : State) : Result := .next (s.skipIf (s.getV x == s.getV y))

/-- SNE Vx, Vy (R96). -/
def execSneReg (x y : RegIdx) (s : State) : Result := .next (s.skipIf (s.getV x != s.getV y))

end Sys2Proof.Machine
end

