-- ==== Sys2Proof/Machine/Flags.lean ====
section
/-! DEFINITION. The 8-bit ALU with its flag (42_load_arith.md R107 to R113): each operation gives the result and the value of VF. -/

namespace Sys2Proof.Machine

/-- A flag as the byte VF holds: always 0 or 1 (10_state.md R11). -/
def flagByte (c : Bool) : Byte := if c then 1#8 else 0#8

/-- `a + b` modulo 256; the flag is the carry, `a + b > 255` (R107). -/
def aluAdd (a b : Byte) : Byte × Bool := (BitVec.ofNat 8 (a.toNat + b.toNat), decide (255 < a.toNat + b.toNat))

/-- `a - b` modulo 256; the flag is `a > b`, strictly (R108). -/
def aluSub (a b : Byte) : Byte × Bool := (BitVec.ofNat 8 (256 + a.toNat - b.toNat), decide (b.toNat < a.toNat))

/-- `a div 2`; the flag is the bit shifted out, `a[0]` (R109). -/
def aluShr (a : Byte) : Byte × Bool := (BitVec.ofNat 8 (a.toNat / 2), a.getLsbD 0)

/-- `(a * 2) mod 256`; the flag is the bit shifted out, `a[7]` (R111). -/
def aluShl (a : Byte) : Byte × Bool := (BitVec.ofNat 8 (a.toNat * 2), a.getLsbD 7)

/-- Write a result to `V[x]` and then its flag to VF: at `x = 15` the flag is what remains (R113). -/
def State.setFlagged (s : State) (x : RegIdx) (r : Byte × Bool) : State := (s.setV x r.1).setV vf (flagByte r.2)

end Sys2Proof.Machine
end

