-- ==== Sys2Proof/Machine/Draw.lean ====
section
/-! DEFINITION. Framebuffer instructions (46_draw_clear.md R150 to R154): XOR draw with collision, and clear. The loops are those of R150's pseudocode. -/

namespace Sys2Proof.Machine

/-- `fb[r][c]` (R19). -/
def Framebuffer.cell (f : Framebuffer) (r c : Nat) : Bool := (((f[r]?).getD [])[c]?).getD false

/-- `fb[r][c] <- fb[r][c] xor 1` (R150). -/
def Framebuffer.toggle (f : Framebuffer) (r c : Nat) : Framebuffer := f.modify r fun row => row.modify c Bool.not

/-- All cells 0 (R151). -/
def clearFb (cfg : Config) : Framebuffer := .replicate cfg.fbHeight (.replicate cfg.fbWidth false)

/-- The cell a sprite pixel at row `r`, column `c` falls on: none beyond the edge under `clip`, the coordinates modulo
the size under `wrap` (R153). -/
def placePixel (cfg : Config) (r c : Nat) : Option (Nat × Nat) :=
  match cfg.edgePolicy with
  | .clip => if c < cfg.fbWidth ∧ r < cfg.fbHeight then some (r, c) else none
  | .wrap => some (r % cfg.fbHeight, c % cfg.fbWidth)

/-- Draw one set sprite bit: XOR the cell, and note a collision when it was 1 (R150). -/
def drawPixel (cfg : Config) (r c : Nat) (acc : Framebuffer × Bool) : Framebuffer × Bool :=
  match placePixel cfg r c with
  | some (row, col) => (Framebuffer.toggle acc.1 row col, acc.2 || Framebuffer.cell acc.1 row col)
  | none => acc

/-- Draw one sprite row at row `r`: for `j` in 0..7, bit `b[7 - j]` at column `ox + j` (R150, R152). -/
def drawRow (cfg : Config) (r ox : Nat) (b : Byte) (acc : Framebuffer × Bool) : Framebuffer × Bool :=
  (List.range 8).foldl (fun acc j => if b.getLsbD (7 - j) then drawPixel cfg r (ox + j) acc else acc) acc

/-- Draw the sprite rows from row `r` downward (R150). -/
def drawRows (cfg : Config) (ox : Nat) : List Byte → Nat → Framebuffer × Bool → Framebuffer × Bool
  | [], _, acc => acc
  | b :: bs, r, acc => drawRows cfg ox bs (r + 1) (drawRow cfg r ox b acc)

/-- DRW under a configuration: the whole range is checked first, the origin wraps, VF receives the collision flag (R150, R153). -/
def draw (cfg : Config) (x y : RegIdx) (n : Nibble) (s : State) : Result :=
  match s.readRange cfg s.addrI n.toNat with
  | some bs =>
    let ox := (s.getV x).toNat % cfg.fbWidth
    let oy := (s.getV y).toNat % cfg.fbHeight
    let out := drawRows cfg ox bs oy (s.fb, false)
    .next ((s.setFb out.1).setV vf (flagByte out.2))
  | none => raise .memReadRange (rangeInfo cfg s.regI) s

/-- DRW Vx, Vy, n (R150). -/
def execDrw (x y : RegIdx) (n : Nibble) (s : State) : Result := draw Config.taken x y n s

/-- CLS under a configuration (R151). -/
def clearScreen (cfg : Config) (s : State) : Result := .next (s.setFb (clearFb cfg))

/-- CLS (R151). -/
def execCls (s : State) : Result := clearScreen Config.taken s

end Sys2Proof.Machine
end

