-- ==== Sys2Proof/Machine/Input.lean ====
section
/-! DEFINITION. Input instructions and the input latch multiplexer (47_input.md R160 to R163). -/

namespace Sys2Proof.Machine

/-- Skip when the key that `V[x]` names has the flag `pressed`; KEY_INDEX_RANGE when it names none (R160, R161, R163). -/
def skipOnKey (cfg : Config) (pressed : Bool) (x : RegIdx) (s : State) : Result :=
  match keyIndex cfg.keyIndexPolicy (s.getV x) with
  | some k => .next (s.skipIf (s.keys.get k == pressed))
  | none => raise .keyIndexRange (zext8 (s.getV x)) s

/-- SKP Vx (R160). -/
def execSkp (x : RegIdx) (s : State) : Result := skipOnKey Config.taken true x s

/-- SKNP Vx (R161). -/
def execSknp (x : RegIdx) (s : State) : Result := skipOnKey Config.taken false x s

/-- LD Vx, K: the least pressed key, or `pc` back onto the instruction when none is (R162). -/
def execLdVxK (x : RegIdx) (s : State) : Result :=
  match lowestKey s.keys with
  | some k => .next (s.setV x (BitVec.ofNat 8 k.val))
  | none => .next s.retarget

end Sys2Proof.Machine
end

