-- ==== Sys2Proof/Machine/LoadArith.lean ====
section
/-! DEFINITION. Load, arithmetic, logic and shift instructions (42_load_arith.md R100 to R113). All operands are read from the state at the start of execute (R100). -/

namespace Sys2Proof.Machine

/-- LD Vx, kk (R101). -/
def execLdByte (x : RegIdx) (kk : Byte) (s : State) : Result := .next (s.setV x kk)

/-- ADD Vx, kk: wraps, VF not written as a flag (R102). -/
def execAddByte (x : RegIdx) (kk : Byte) (s : State) : Result := .next (s.setV x (aluAdd (s.getV x) kk).1)

/-- LD Vx, Vy (R103). -/
def execLdReg (x y : RegIdx) (s : State) : Result := .next (s.setV x (s.getV y))

/-- OR Vx, Vy: no flag (R104). -/
def execOrReg (x y : RegIdx) (s : State) : Result := .next (s.setV x (s.getV x ||| s.getV y))

/-- AND Vx, Vy: no flag (R105). -/
def execAndReg (x y : RegIdx) (s : State) : Result := .next (s.setV x (s.getV x &&& s.getV y))

/-- XOR Vx, Vy: no flag (R106). -/
def execXorReg (x y : RegIdx) (s : State) : Result := .next (s.setV x (s.getV x ^^^ s.getV y))

/-- ADD Vx, Vy: VF is the carry (R107). -/
def execAddReg (x y : RegIdx) (s : State) : Result := .next (s.setFlagged x (aluAdd (s.getV x) (s.getV y)))

/-- SUB Vx, Vy: `Vx - Vy`, VF = `Vx > Vy` (R108). -/
def execSub (x y : RegIdx) (s : State) : Result := .next (s.setFlagged x (aluSub (s.getV x) (s.getV y)))

/-- SUBN Vx, Vy: `Vy - Vx`, VF = `Vy > Vx` (R110). -/
def execSubn (x y : RegIdx) (s : State) : Result := .next (s.setFlagged x (aluSub (s.getV y) (s.getV x)))

/-- SHR Vx: `V[x]` in place, VF = old bit 0 (R109). -/
def execShr (x : RegIdx) (s : State) : Result := .next (s.setFlagged x (aluShr (s.getV x)))

/-- SHL Vx: `V[x]` in place, VF = old bit 7 (R111). -/
def execShl (x : RegIdx) (s : State) : Result := .next (s.setFlagged x (aluShl (s.getV x)))

end Sys2Proof.Machine
end

