-- ==== Sys2Proof/Machine/MemoryBlock.lean ====
section
/-! DEFINITION. Memory block transfers and the BCD decomposer (44_memory_block.md R130 to R133). `I` is not modified; the whole range is checked before anything is transferred (R133). -/

namespace Sys2Proof.Machine

/-- The BCD decomposer: hundreds, tens, ones, each a binary digit (R130, conflict C1). -/
def bcdDigits (b : Byte) : List Byte :=
  [BitVec.ofNat 8 (b.toNat / 100), BitVec.ofNat 8 (b.toNat / 10 % 10), BitVec.ofNat 8 (b.toNat % 10)]

/-- Store bytes at `I`, or raise MEM_WRITE_RANGE with nothing written (R133, R53). -/
def storeAtI (cfg : Config) (bs : List Byte) (s : State) : Result :=
  match s.writeRange cfg s.addrI bs with
  | some t => .next t
  | none => raise .memWriteRange (rangeInfo cfg s.regI) s

/-- Load V0..Vx from `I`, or raise MEM_READ_RANGE with no register changed (R132). -/
def loadAtI (cfg : Config) (x : RegIdx) (s : State) : Result :=
  match s.readRange cfg s.addrI (x.toNat + 1) with
  | some bs => .next (s.loadRegs bs)
  | none => raise .memReadRange (rangeInfo cfg s.regI) s

/-- LD B, Vx (R130). -/
def execLdB (x : RegIdx) (s : State) : Result := storeAtI Config.taken (bcdDigits (s.getV x)) s

/-- LD [I], Vx: bulk store of V0..Vx (R131). -/
def execLdMemVx (x : RegIdx) (s : State) : Result := storeAtI Config.taken (s.regsUpTo x) s

/-- LD Vx, [I]: bulk load of V0..Vx (R132). -/
def execLdVxMem (x : RegIdx) (s : State) : Result := loadAtI Config.taken x s

end Sys2Proof.Machine
end

