-- ==== Sys2Proof/Machine/NoOp.lean ====
section
/-! DEFINITION. The no-op (40_step_dispatch.md R85): the four rows of the no-op space. Nothing but the step's own phases happens. -/

namespace Sys2Proof.Machine

/-- The no-op: the state after fetch is the state after execute (R85). -/
def noOp (s : State) : Result := .next s

/-- SYS nnn and the rest of family 0 (R85). -/
def execNop0 (_nnn : Addr12) (s : State) : Result := noOp s

/-- The rest of family 8 (R85). -/
def execNop8 (_x _y : RegIdx) (_key : Nibble) (s : State) : Result := noOp s

/-- The rest of family E (R85). -/
def execNopE (_x : RegIdx) (_mid _key : Nibble) (s : State) : Result := noOp s

/-- The rest of family F (R85). -/
def execNopF (_x : RegIdx) (_key : Byte) (s : State) : Result := noOp s

end Sys2Proof.Machine
end

