-- ==== Sys2Proof/Machine/Random.lean ====
section
/-! DEFINITION. The random instruction (45_random.md R140, R141). -/

namespace Sys2Proof.Machine

/-- RND Vx, kk: one byte of `rnd_in`, consumed whatever the mask, ANDed with `kk` (R140). -/
def execRnd (x : RegIdx) (kk : Byte) (s : State) : Result :=
  .next (s.drawRnd.2.setV x (s.drawRnd.1 &&& kk))

end Sys2Proof.Machine
end

