-- ==== Sys2Proof/Machine/Timers.lean ====
section
/-! DEFINITION. Timer instructions (48_timers.md R170 to R173); the countdown is the step's tick (40_step_dispatch.md R84). -/

namespace Sys2Proof.Machine

/-- LD Vx, DT (R170). -/
def execLdVxDt (x : RegIdx) (s : State) : Result := .next (s.setV x s.dt)

/-- LD DT, Vx (R171). -/
def execLdDtVx (x : RegIdx) (s : State) : Result := .next (s.setDt (s.getV x))

/-- LD ST, Vx (R172). -/
def execLdStVx (x : RegIdx) (s : State) : Result := .next (s.setSt (s.getV x))

end Sys2Proof.Machine
end

