-- ==== Sys2Proof/Machine/Fetch.lean ====
section
/-! DEFINITION. The step's phases around execute (40_step_dispatch.md R80 to R87): fetching a word, faulting on a fetch out of range, and finishing with the timer tick. -/

namespace Sys2Proof.Machine

/-- The two bytes at `pc` and `pc + 1`, big-endian, at any `pc` up to `MEM_SIZE - 2`; `none` beyond (R81, 20_memory.md R42, R44). -/
def fetchWord (cfg : Config) (s : State) : Option Word :=
  if s.pc.toNat + 1 < cfg.memSize then
    some (wordOfBytes (s.readByte s.pc.toNat) (s.readByte (s.pc.toNat + 1)))
  else none

/-- `raise Fault(FETCH_RANGE, pc0)` (R81): `pc` has not been advanced. -/
def raiseFetch (s : State) : Result := .next (s.takeFault s.pc .fetchRange s.pc)

/-- The last phase: the timers tick, unless the instruction has faulted (R84, R86). -/
def finish (t : State) : State := if t.halted then t else t.tick

/-- Finish what execute answered. -/
def finishResult : Result → Result
  | .next t => .next (finish t)
  | .fault r => .fault r
  | .refused r => .refused r

/-- The phases of a step, around a decoder and an execute: a halted core returns unchanged (R87); a fetch out of range
faults (R81); otherwise the decoded instruction runs on the state with `pc` advanced (R82, R83), and the timers tick
unless it faulted (R84, R86). -/
def stepPhases (cfg : Config) (decoder : Word → Instr) (execute : Instr → State → Result) (s : State) : Result :=
  if s.halted then .next s
  else
    match fetchWord cfg s with
    | none => raiseFetch s
    | some w => finishResult (execute (decoder w) s.advance)

/-- The bytes of a word stored where the next fetch reads: at `pc` and `pc + 1`, when both exist. -/
def placeWord (s : State) (w : Word) : State :=
  match s.writeRange Config.taken s.pc.toNat (bytesOfWord w) with
  | some t => t
  | none => s

end Sys2Proof.Machine
end

