-- ==== Sys2Proof/Machine/Step.lean ====
section
/-! DEFINITION. The step (40_step_dispatch.md R80): halted check, fetch, advance, execute, tick. -/

namespace Sys2Proof.Machine

/-- One step, at the values taken: the phases of R80 around the two-level lookup and `exec`. For every configuration:
`stepWith` (Machine/Configured.lean). -/
def step (s : State) : Host.Outcome State Fault Refusal := stepPhases Config.taken decode exec s

/-- `s` with the table word `w` stored where the next step fetches (log entry 9). -/
def State.withFetchWord (s : State) (nbits w : Nat) : State := placeWord s (tableWord nbits w)

end Sys2Proof.Machine
end

