-- ==== Sys2Proof/Machine/Configured.lean ====
section
/-! DEFINITION. The machine of any configuration (00_scope.md R5): `exec` and `step` with every parameter an argument, over the operations the instructions' meanings are written with. `step` is the case of the values taken. Where a configuration's sizes do not fit a 16-bit register: log entry 23. -/

namespace Sys2Proof.Machine

/-- What an instruction does under a configuration. The ten instructions that a parameter bears on run the shared
operation their meaning calls; no parameter bears on the others. -/
def execWith (cfg : Config) (i : Instr) (s : State) : Result :=
  match i with
  | .cls => clearScreen cfg s
  | .call nnn => callTo cfg nnn s
  | .jpV0 nnn => jumpV0 cfg nnn s
  | .drw x y n => draw cfg x y n s
  | .skp x => skipOnKey cfg true x s
  | .sknp x => skipOnKey cfg false x s
  | .ldF x => loadGlyph cfg x s
  | .ldB x => storeAtI cfg (bcdDigits (s.getV x)) s
  | .ldMemVx x => storeAtI cfg (s.regsUpTo x) s
  | .ldVxMem x => loadAtI cfg x s
  | .ret | .jp _ | .seByte _ _ | .sneByte _ _ | .seReg _ _ | .sneReg _ _ => exec i s
  | .ldByte _ _ | .addByte _ _ | .ldReg _ _ | .orReg _ _ | .andReg _ _ | .xorReg _ _ => exec i s
  | .addReg _ _ | .sub _ _ | .shr _ | .subn _ _ | .shl _ | .ldI _ | .addI _ | .rnd _ _ => exec i s
  | .ldVxDt _ | .ldVxK _ | .ldDtVx _ | .ldStVx _ => exec i s
  | .nop0 _ | .nop8 _ _ _ | .nopE _ _ _ | .nopF _ _ => exec i s

/-- One step under a configuration: the words decode by its opcode table (30_encoding.md R66, 40_step_dispatch.md R80).
The table is asked first and `BNNN_DEFINED` then bears on the behaviour found, so with it false a word of high nibble B
that another table maps elsewhere, or leaves unmatched, is not refused (DESIGN CHOICE, unsafe, log entry 25). -/
def stepWith (cfg : Config) (s : State) : Result := stepPhases cfg cfg.decode (execWith cfg) s

end Sys2Proof.Machine
end

