-- ==== Sys2Proof/Machine/HostPort.lean ====
section
/-! DEFINITION. The boundary with the host (10_state.md R24, 60_exceptions.md R196 to R203, 70_reset_and_hazards.md R210 to R216): reset, program load, key writes, the outputs, and which sequences of host moves the spec has a move for. -/

namespace Sys2Proof.Machine

/-! ### Reset (R25, R210) -/

/-- The memory a reset leaves: the font, and `MEM_INIT` everywhere else (R25). -/
def resetMemory (cfg : Config) : Memory :=
  (List.range cfg.memSize).filterMap fun a => if cfg.resetByte a = unlistedByte a then none else some (a, cfg.resetByte a)

/-- The state after reset under a configuration (R25, D18): `State.reset` is that of the values taken. -/
def resetFor (cfg : Config) : State where
  v := .replicate 16 0
  regI := 0
  pc := BitVec.ofNat 16 cfg.progOrigin
  sp := 0
  stack := .replicate cfg.stackDepth 0
  dt := 0
  st := 0
  keys := .replicate 16 false
  fb := clearFb cfg
  mem := resetMemory cfg
  fault := .none
  faultPc := 0
  faultInfo := 0
  rndCount := 0

/-- The state after reset at the values taken, for any `MEM_INIT`. -/
def resetWith (memInit : Nat → Byte) : State := resetFor (Config.taken.withMemInit memInit)

/-- The host asserts `reset`: every piece of the core's state to its reset value (R210). The random bytes already
consumed stay consumed: the environment that supplies `rnd_in` is not reset (log entry 5). -/
def hostReset (cfg : Config) (s : State) : State := { resetFor cfg with rndCount := s.rndCount }

/-! ### Program load (R215, R216) -/

/-- `Load(b, L)`: the image verbatim from `PROG_ORIGIN`, or, when it does not fit below `PROG_TOP`, nothing written.
The second part is `load_err`. -/
def loadProgram (cfg : Config) (image : List Byte) (s : State) : State × Bool :=
  if cfg.progTop < cfg.progOrigin + image.length then (s, true)
  else ({ s with mem := s.mem.writeBytes cfg.progOrigin image }, false)

/-! ### Input and output ports (R24) -/

/-- The host writes all 16 key flags at once, between steps (R196). -/
def writeKeys (keys : Vector Bool 16) (s : State) : State := s.setKeys keys

/-- `sound_active = (ST != 0)` (R199). -/
def soundActive (s : State) : Bool := s.st != 0#8

/-- `fb_rd`: the read-only view of the framebuffer (R197). -/
def fbRead (s : State) (r c : Nat) : Bool := Framebuffer.cell s.fb r c

/-- The output `fault`: 3 bits (R24, R181). -/
def faultCode (s : State) : BitVec 3 := s.fault.code

/-! ### Sequences of host moves (R203) -/

/-- What the host may do at a step boundary (R203). Reads have no side effect and are no moves. -/
inductive HostMove where
  /-- assert `reset`; the memory outside the font comes up as `memInit` (R210) -/
  | reset (memInit : Nat → Byte)
  /-- load a program image (R215) -/
  | load (image : List Byte)
  /-- write the key latch (R196) -/
  | keys (keys : Vector Bool 16)
  /-- issue one `step` (R80) -/
  | step

/-- How far a session has got: a load is allowed once, after reset and before the first step (R203, R214). -/
inductive HostPhase where
  /-- before the first reset: only reset may come (R203: "before first use") -/
  | unreset
  /-- reset done, no load and no step yet -/
  | fresh
  /-- loaded, or stepped: no load may come -/
  | running
  deriving DecidableEq, Repr

/-- The phase after a move, or `none` for a move the spec has none for: "a liberty the host is assumed never to take
has no move in the model" (R203). -/
def HostPhase.after : HostPhase → HostMove → Option HostPhase
  | _, .reset _ => some .fresh
  | .unreset, _ => none
  | .fresh, .load _ => some .running
  | .running, .load _ => none
  | p, .keys _ => some p
  | _, .step => some .running

/-- A sequence of moves the spec allows from a phase (R203). -/
def legalMoves : HostPhase → List HostMove → Bool
  | _, [] => true
  | p, m :: ms => match p.after m with
    | some q => legalMoves q ms
    | none => false

/-- One host move, under a configuration. A refused load changes nothing (R216); every reset may leave another
`MEM_INIT` (D18). -/
def applyMove (cfg : Config) (m : HostMove) (s : State) : Result :=
  match m with
  | .reset memInit => .next (hostReset (cfg.withMemInit memInit) s)
  | .load image => .next (loadProgram cfg image s).1
  | .keys k => .next (writeKeys k s)
  | .step => stepWith cfg s

/-- A sequence of host moves. -/
def applyMoves (cfg : Config) : List HostMove → State → Result
  | [], s => .next s
  | m :: ms, s => match applyMove cfg m s with
    | .next t => applyMoves cfg ms t
    | .fault r => .fault r
    | .refused r => .refused r

end Sys2Proof.Machine
end

