-- ==== Sys2Proof/Safety.lean ====
section
/-! DEFINITION. What claims are stated in: the running core, the fault that a step must raise by the table of 60_exceptions.md R181, frames, the machine's invariants, and the outcome and end of a run (40_step_dispatch.md R87, R88). -/

namespace Sys2Proof.Safety

open Sys2Proof.Machine

/-! ### Running and halted -/

/-- The core is running: `fault = 0` (R21). -/
abbrev Running (s : State) : Prop := s.fault = .none

/-- The outcome of `k` steps, where a run that ends halted is a fault outcome, never final (R87). -/
def outcomeAfter (k : Nat) (s : State) : Host.Outcome State Fault Refusal :=
  match Host.Core.run Sys2Proof.core k s with
  | .next t => if t.halted then .fault (.halted t.fault t.faultPc t.faultInfo) else .next t
  | .fault r => .fault r
  | .refused r => .refused r

/-- A run of `k` steps is safe when it ends with the core running. -/
def SafeRun (k : Nat) (s : State) : Prop := ∃ t, outcomeAfter k s = .next t

/-- The end of a run, by the conventional idiom: the core is running and `mem` at `pc` holds a jump to `pc` itself (R88,
DESIGN CHOICE as R88 asks, log entry 20). It does not say that the host stops stepping, that the timers are zero, or that
the key latch stays as it is. -/
def spinning (s : State) : Bool :=
  !s.halted && (match fetchWord Config.taken s with
    | some w => decode w == .jp (s.pc.extractLsb' 0 12) && s.pc.toNat < 4096
    | none => false)

/-! ### The fault table (R181), written over the state when the step begins -/

/-- The fault an instruction must raise on a state, with its `fault_info` (R181); `none` for every other case (R182). -/
def instrFault (i : Instr) (s : State) : Option (Cause × Nat) :=
  match i with
  | .drw _ _ n =>
    if 0 < n.toNat ∧ 4095 < s.regI.toNat + n.toNat - 1 then some (.memReadRange, max s.regI.toNat 4096) else none
  | .ldVxMem x => if 4095 < s.regI.toNat + x.toNat then some (.memReadRange, max s.regI.toNat 4096) else none
  | .ldB _ => if 4095 < s.regI.toNat + 2 then some (.memWriteRange, max s.regI.toNat 4096) else none
  | .ldMemVx x => if 4095 < s.regI.toNat + x.toNat then some (.memWriteRange, max s.regI.toNat 4096) else none
  | .call _ => if 16 ≤ s.sp then some (.stackOverflow, s.sp) else none
  | .ret => if s.sp = 0 then some (.stackUnderflow, 0) else none
  | .skp x => if 15 < (s.getV x).toNat then some (.keyIndexRange, (s.getV x).toNat) else none
  | .sknp x => if 15 < (s.getV x).toNat then some (.keyIndexRange, (s.getV x).toNat) else none
  | _ => none

/-- The fault a step must raise: the fetch is checked first, then the instruction (R181, R186). -/
def stepFault (s : State) : Option (Cause × Nat) :=
  if 4095 < s.pc.toNat + 1 then some (.fetchRange, s.pc.toNat)
  else instrFault (decode (wordOfBytes (s.readByte s.pc.toNat) (s.readByte (s.pc.toNat + 1)))) s

/-- `t` is `s` with the fault latch written and nothing else changed (R183). -/
def FaultedFrom (s t : State) (cause : Cause) (info : Nat) : Prop :=
  t = { s with fault := cause, faultPc := s.pc, faultInfo := BitVec.ofNat 16 info }

/-- `t` is the state before the instruction, with the fault latch written: seen from inside the instruction, where
`pc = pc0 + 2`, that is `s` with `pc` 2 lower (R82, R183). -/
def RaisedFrom (s t : State) (cause : Cause) (info : Nat) : Prop :=
  t = { s with pc := s.pc - 2#16, fault := cause, faultPc := s.pc - 2#16, faultInfo := BitVec.ofNat 16 info }

/-! ### Encodings, and classes of instructions -/

/-- Every word with `w and mask = pattern` decodes to the instruction `build w` (30_encoding.md R73). -/
def EncodedBy (mask pattern : Word) (build : Word → Instr) : Prop := ∀ w, w &&& mask = pattern → decode w = build w

/-- The instruction at `pc`. -/
def instrAt (s : State) : Instr := decode (wordOfBytes (s.readByte s.pc.toNat) (s.readByte (s.pc.toNat + 1)))

/-- The no-op's four rows (R85). -/
def isNoOp : Instr → Bool
  | .nop0 _ | .nop8 _ _ _ | .nopE _ _ _ | .nopF _ _ => true
  | _ => false

/-- The instructions that write VF as a flag: "exactly" these (10_state.md R11). -/
def writesFlag : Instr → Bool
  | .addReg _ _ | .sub _ _ | .subn _ _ | .shr _ | .shl _ | .drw _ _ _ => true
  | _ => false

/-- The general registers an instruction may write as a destination, VF as a flag apart. -/
def destRegs : Instr → List RegIdx
  | .ldByte x _ | .addByte x _ | .ldReg x _ | .orReg x _ | .andReg x _ | .xorReg x _ => [x]
  | .addReg x _ | .sub x _ | .subn x _ | .shr x | .shl x => [x]
  | .rnd x _ | .ldVxDt x | .ldVxK x => [x]
  | .ldVxMem x => (List.range (x.toNat + 1)).map (BitVec.ofNat 4)
  | _ => []

/-! ### Sprites (46_draw_clear.md R150, R152, R153) -/

/-- The sprite bit that falls on cell `(r, c)` under `clip`: row `k = r - oy` of the `n` rows, column `j = c - ox` of the
8 columns, bit `7 - j` of the byte at `I + k`; 0 where the sprite does not reach, and beyond the edge. -/
def spriteBit (cfg : Config) (s : State) (x y : RegIdx) (n : Nibble) (r c : Nat) : Bool :=
  let ox := (s.getV x).toNat % cfg.fbWidth
  let oy := (s.getV y).toNat % cfg.fbHeight
  decide (oy ≤ r ∧ r < oy + n.toNat ∧ ox ≤ c ∧ c < ox + 8 ∧ r < cfg.fbHeight ∧ c < cfg.fbWidth) &&
    (s.readByte (s.addrI + (r - oy))).getLsbD (7 - (c - ox))

/-- The sprite bit that falls on cell `(r, c)` under `wrap`: row and column offsets are taken modulo the size (R153). -/
def spriteBitWrapped (cfg : Config) (s : State) (x y : RegIdx) (n : Nibble) (r c : Nat) : Bool :=
  let k := (r + cfg.fbHeight - (s.getV y).toNat % cfg.fbHeight) % cfg.fbHeight
  let j := (c + cfg.fbWidth - (s.getV x).toNat % cfg.fbWidth) % cfg.fbWidth
  decide (k < n.toNat ∧ j < 8 ∧ r < cfg.fbHeight ∧ c < cfg.fbWidth) && (s.readByte (s.addrI + k)).getLsbD (7 - j)

/-! ### Frames: what an instruction leaves unchanged, from `s` to `t` -/

/-- Every general register but those in `except`. -/
def KeepsV (except : List RegIdx) (s t : State) : Prop := ∀ r, r ∉ except → t.getV r = s.getV r

/-- The call stack and its pointer. -/
def KeepsStack (s t : State) : Prop := t.sp = s.sp ∧ t.stack = s.stack

/-- Both timers. -/
def KeepsTimers (s t : State) : Prop := t.dt = s.dt ∧ t.st = s.st

/-- Every cell of the framebuffer. -/
def KeepsFb (s t : State) : Prop := ∀ r c, Framebuffer.cell t.fb r c = Framebuffer.cell s.fb r c

/-- Every byte of memory outside `k` bytes at `a`. -/
def KeepsMemOutside (a k : Nat) (s t : State) : Prop :=
  ∀ b, ¬ (a ≤ b ∧ b < a + k) → t.readByte b = s.readByte b

/-- Every byte of memory. -/
def KeepsMem (s t : State) : Prop := ∀ b, t.readByte b = s.readByte b

/-- The key latch, the fault latch, and the random bytes consumed. -/
def KeepsLatches (s t : State) : Prop :=
  t.keys = s.keys ∧ t.fault = s.fault ∧ t.faultPc = s.faultPc ∧ t.faultInfo = s.faultInfo ∧ t.rndCount = s.rndCount

/-- Everything an ALU or load instruction leaves alone: all but the general registers. -/
def KeepsAllButV (s t : State) : Prop :=
  t.pc = s.pc ∧ t.regI = s.regI ∧ KeepsStack s t ∧ KeepsTimers s t ∧ KeepsFb s t ∧ KeepsMem s t ∧ KeepsLatches s t

/-- Everything a jump or skip leaves alone: all but `pc` and the call stack. -/
def KeepsAllButPcAndStack (s t : State) : Prop :=
  KeepsV [] s t ∧ t.regI = s.regI ∧ KeepsTimers s t ∧ KeepsFb s t ∧ KeepsMem s t ∧ KeepsLatches s t

/-! ### Invariants of the machine -/

/-- The memory of a configuration is in canonical form. -/
abbrev MemoryOkFor (cfg : Config) (s : State) : Prop := s.mem.wfBelow cfg.memSize

/-- Memory is in canonical form. -/
abbrev MemoryOk (s : State) : Prop := MemoryOkFor Config.taken s

/-- The storage has the sizes of the configuration: at most `STACK_DEPTH` valid entries of `STACK_DEPTH` (R14, R15), and
`FB_HEIGHT` rows of `FB_WIDTH` cells (R19). -/
abbrev ShapeOkFor (cfg : Config) (s : State) : Prop :=
  s.sp ≤ cfg.stackDepth ∧ s.stack.length = cfg.stackDepth ∧ Framebuffer.Sized cfg s.fb

/-- At most 16 valid entries of 16, and 32 rows of 64 cells. -/
abbrev ShapeOk (s : State) : Prop := ShapeOkFor Config.taken s

/-- `pc` never exceeds 0x10FE, the valid stack entries never exceed 4096, so the 16-bit wrap of `pc` is unreachable (R12). -/
def PcOk (s : State) : Prop := s.pc.toNat ≤ 0x10FE ∧ ∀ k, k < s.sp → (s.entry k).toNat ≤ 4096

end Sys2Proof.Safety
end

