-- ==== Sys2Proof/Certificates/Slice0/Obligations.lean ====
section
/-! DEFINITION. The statements for the provers. Each cites the rule of spec/ it formalises or rests on. -/

open Sys2Proof Sys2Proof.Machine Sys2Proof.Safety

/-! ### Encoding and decoding -/

/-- No bit of an operand is lost or moved between the encoder and the decoder (R61, R76). -/
def Obligations.DecodeEncodeRoundTrip : Prop :=
  ∀ i : Instr, i.wellFormed = true → decode (encode i) = i

/-- A defined key never falls through to the no-op of its family (R64, R73). -/
def Obligations.DecodeGivesWellFormed : Prop :=
  ∀ w : Word, (decode w).wellFormed = true

/-- On canonical words the encoder inverts the decoder (R76). -/
def Obligations.CanonicalWordsEncodeBack : Prop :=
  ∀ w : Word, isCanonicalWord w = true → encode (decode w) = w

/-- The alias table of R72: bits outside the high nibble and the secondary key are ignored. -/
def Obligations.AliasesSelectTheCanonicalBehaviour : Prop :=
  (∀ w : Word, w &&& 0xF00F#16 = 0x0000#16 → decode w = decode 0x00E0#16 ∧ decode w = .cls) ∧
  decode 0x0000#16 = .cls ∧
  (∀ w : Word, w &&& 0xF00F#16 = 0x000E#16 → decode w = decode 0x00EE#16 ∧ decode w = .ret) ∧
  (∀ w : Word, w &&& 0xF000#16 = 0x5000#16 → decode w = decode (w &&& 0xFFF0#16)) ∧
  (∀ w : Word, w &&& 0xF000#16 = 0x9000#16 → decode w = decode (w &&& 0xFFF0#16)) ∧
  (∀ w : Word, w &&& 0xF00F#16 = 0x8006#16 → decode w = decode (w &&& 0xFF0F#16)) ∧
  (∀ w : Word, w &&& 0xF00F#16 = 0x800E#16 → decode w = decode (w &&& 0xFF0F#16)) ∧
  (∀ w : Word, w &&& 0xF00F#16 = 0xE00E#16 → decode w = decode (w &&& 0xFF0F#16 ||| 0x0090#16)) ∧
  (∀ w : Word, w &&& 0xF00F#16 = 0xE001#16 → decode w = decode (w &&& 0xFF0F#16 ||| 0x00A0#16))

/-- Two designs of the decoder agree: the table of spec/opcode_table.json with its priorities (R73) and the lookup by nibbles (R64). -/
def Obligations.OpcodeTableAgreesWithTheTwoLevelLookup : Prop :=
  ∀ w : Word, decodeByTable opcodeTable w = some (decode w)

/-- The rows are mutually exclusive within a priority and together cover every word (R73). -/
def Obligations.EveryWordSelectsOneRow : Prop :=
  opcodeTable.length = 38 ∧ ∀ w : Word, (selectedRows opcodeTable w).length = 1

/-- The no-op space, by the secondary keys of the four keyed families (R70). -/
def Obligations.NoOpSpaceIsTheUnmatchedKeys : Prop :=
  ∀ w : Word, isNoOp (decode w) = true ↔
    (w.toNat / 4096 = 0x0 ∧ w.toNat % 16 ∉ [0x0, 0xE]) ∨
    (w.toNat / 4096 = 0x8 ∧ w.toNat % 16 ∈ [0x8, 0x9, 0xA, 0xB, 0xC, 0xD, 0xF]) ∨
    (w.toNat / 4096 = 0xE ∧ w.toNat % 16 ∉ [0xE, 0x1]) ∨
    (w.toNat / 4096 = 0xF ∧ w.toNat % 256 ∉ [0x07, 0x0A, 0x15, 0x18, 0x1E, 0x29, 0x33, 0x55, 0x65])

/-- A sanity statement: each word stands in part 1 or 2 of 95_test_vectors.md (R65: the sixteen families). -/
def Obligations.SpelledWordsDecode : Prop :=
  (decode 0x00E0#16 = .cls ∧ decode 0x00EE#16 = .ret ∧ decode 0x0123#16 = .nop0 0x123#12) ∧
  (decode 0x1ABC#16 = .jp 0xABC#12 ∧ decode 0x2300#16 = .call 0x300#12 ∧ decode 0x3A55#16 = .seByte 0xA#4 0x55#8 ∧
    decode 0x4A55#16 = .sneByte 0xA#4 0x55#8 ∧ decode 0x5AB0#16 = .seReg 0xA#4 0xB#4 ∧
    decode 0x6A7F#16 = .ldByte 0xA#4 0x7F#8 ∧ decode 0x7A01#16 = .addByte 0xA#4 0x01#8) ∧
  (decode 0x8AB0#16 = .ldReg 0xA#4 0xB#4 ∧ decode 0x8AB1#16 = .orReg 0xA#4 0xB#4 ∧ decode 0x8AB2#16 = .andReg 0xA#4 0xB#4 ∧
    decode 0x8AB3#16 = .xorReg 0xA#4 0xB#4 ∧ decode 0x8AB4#16 = .addReg 0xA#4 0xB#4 ∧ decode 0x8AB5#16 = .sub 0xA#4 0xB#4 ∧
    decode 0x8AB6#16 = .shr 0xA#4 ∧ decode 0x8AB7#16 = .subn 0xA#4 0xB#4 ∧ decode 0x8ABE#16 = .shl 0xA#4 ∧
    decode 0x8AB8#16 = .nop8 0xA#4 0xB#4 0x8#4) ∧
  (decode 0x9AB0#16 = .sneReg 0xA#4 0xB#4 ∧ decode 0xA123#16 = .ldI 0x123#12 ∧ decode 0xB300#16 = .jpV0 0x300#12 ∧
    decode 0xCA0F#16 = .rnd 0xA#4 0x0F#8 ∧ decode 0xD015#16 = .drw 0x0#4 0x1#4 0x5#4) ∧
  (decode 0xE49E#16 = .skp 0x4#4 ∧ decode 0xE4A1#16 = .sknp 0x4#4 ∧ decode 0xE4A2#16 = .nopE 0x4#4 0xA#4 0x2#4) ∧
  (decode 0xF307#16 = .ldVxDt 0x3#4 ∧ decode 0xF30A#16 = .ldVxK 0x3#4 ∧ decode 0xF315#16 = .ldDtVx 0x3#4 ∧
    decode 0xF318#16 = .ldStVx 0x3#4 ∧ decode 0xFA1E#16 = .addI 0xA#4 ∧ decode 0xFA29#16 = .ldF 0xA#4 ∧
    decode 0xFA33#16 = .ldB 0xA#4 ∧ decode 0xF255#16 = .ldMemVx 0x2#4 ∧ decode 0xF265#16 = .ldVxMem 0x2#4 ∧
    decode 0xF075#16 = .nopF 0x0#4 0x75#8)

/-! ### The step -/

/-- The per-instruction statements reach a run through this one (R80). -/
def Obligations.StepRunsTheDecodedInstruction : Prop :=
  ∀ s : State, Running s → s.pc.toNat ≤ 4094 →
    match exec (instrAt s) { s with pc := s.pc + 2#16 } with
    | .next t => step s = .next (if t.fault = .none then { t with dt := tickTimer t.dt, st := tickTimer t.st } else t)
    | .fault r => step s = .fault r
    | .refused r => step s = .refused r

/-- "The step always returns" (R80), and no word is illegal (R64); rests on BNNN_DEFINED being true (log entry 7). -/
def Obligations.StepAlwaysAnswersANextState : Prop :=
  ∀ s : State, ∃ t, step s = .next t

/-- R5 and R66: each parameter, the opcode table among them, is a field of Config that the step takes. That an unmatched word of another table is a no-op is log entry 22 (DEDUCED from R70); which row of another table wins where rows of one priority overlap, as decodeByTable has it, is log entry 24 (DESIGN CHOICE). R97 refuses the whole family 0xB when BNNN_DEFINED is false; that a word of high nibble B which another table maps elsewhere or leaves unmatched then runs as the table says, and is not refused, is log entry 25 (DESIGN CHOICE). -/
def Obligations.StepIsTheConfiguredStepAtTheValuesTaken : Prop :=
  (∀ s : State, stepWith Config.taken s = step s) ∧
  (∀ (cfg : Config) (s : State), Running s → s.pc.toNat + 1 < cfg.memSize →
    ∀ w, w = wordOfBytes (s.readByte s.pc.toNat) (s.readByte (s.pc.toNat + 1)) →
      (∀ i, decodeByTable cfg.opcodeTable w = some i →
        stepWith cfg s = finishResult (execWith cfg i { s with pc := s.pc + 2#16 })) ∧
      (decodeByTable cfg.opcodeTable w = none → stepWith cfg s = .next (finish { s with pc := s.pc + 2#16 })))

/-- R42, at every parity of pc (R44). -/
def Obligations.FetchReadsTwoBytesBigEndian : Prop :=
  ∀ s : State, s.pc.toNat ≤ 4094 → ∃ w, fetchWord Config.taken s = some w ∧
    w.toNat = (s.readByte s.pc.toNat).toNat * 256 + (s.readByte (s.pc.toNat + 1)).toNat ∧
    w.extractLsb' 8 8 = s.readByte s.pc.toNat ∧ w.extractLsb' 0 8 = s.readByte (s.pc.toNat + 1)

/-- R81: no wrap of the second byte to address 0. -/
def Obligations.FetchPastMemoryFaults : Prop :=
  (∀ s : State, Running s → 4095 ≤ s.pc.toNat →
    step s = .next { s with fault := .fetchRange, faultPc := s.pc, faultInfo := s.pc }) ∧
  (∀ s : State, s.pc.toNat ≤ 4094 → fetchWord Config.taken s ≠ none)

/-- R87: halted until reset, never final. -/
def Obligations.HaltedCoreIgnoresSteps : Prop :=
  ∀ s : State, s.fault ≠ .none →
    (∀ k, Host.Core.run Sys2Proof.core k s = .next s ∧
      outcomeAfter k s = .fault (.halted s.fault s.faultPc s.faultInfo)) ∧
    (∀ cfg, (hostReset cfg s).fault = .none)

/-- R84: the tick uses the values after execute, on every instruction. -/
def Obligations.TimersTickOncePerStep : Prop :=
  ∀ s t : State, Running s → step s = .next t →
    (Running t →
      t.dt.toNat = (match instrAt s with | .ldDtVx x => (s.getV x).toNat | _ => s.dt.toNat) - 1 ∧
      t.st.toNat = (match instrAt s with | .ldStVx x => (s.getV x).toNat | _ => s.st.toNat) - 1) ∧
    (t.fault ≠ .none → t.dt = s.dt ∧ t.st = s.st)

/-- The table of R181 as a function of the state at the start of the step (`stepFault`), with R182 (nothing else faults) and R183 (precise entry, no tick). -/
def Obligations.FaultsAreExactlyTheTableAndPrecise : Prop :=
  (∀ s : State, Running s → ∃ t, step s = .next t ∧
    match stepFault s with
    | some (cause, info) => FaultedFrom s t cause info
    | none => Running t) ∧
  Cause.code .none = 0#3 ∧ Cause.code .fetchRange = 1#3 ∧ Cause.code .memReadRange = 2#3 ∧
  Cause.code .memWriteRange = 3#3 ∧ Cause.code .stackOverflow = 4#3 ∧ Cause.code .stackUnderflow = 5#3 ∧
  Cause.code .keyIndexRange = 6#3

/-! ### Invariants -/

/-- The inductive invariant that makes equal memories equal data; the canonical form is the model's own. -/
def Obligations.StepKeepsMemoryCanonical : Prop :=
  (∀ s t : State, MemoryOk s → step s = .next t → MemoryOk t) ∧
  (∀ (cfg : Config) (s t : State), MemoryOkFor cfg s → stepWith cfg s = .next t → MemoryOkFor cfg t)

/-- R14 (0 <= sp <= STACK_DEPTH), R15 and R19: the sizes are parameters, so they are an invariant and not the type of the storage. -/
def Obligations.StepKeepsTheShape : Prop :=
  (∀ s t : State, ShapeOk s → step s = .next t → ShapeOk t) ∧
  (∀ (cfg : Config) (s t : State), ShapeOkFor cfg s → stepWith cfg s = .next t → ShapeOkFor cfg t)

/-- R12: the largest value pc ever holds is 0x10FE, after JP V0. -/
def Obligations.StepKeepsPcInRange : Prop :=
  ∀ s t : State, PcOk s → step s = .next t → PcOk t

/-- The base case of the invariants (R25); the model's choices in it: State.reset is the case of zeros (log entry 1), the stack entries and the fault latch's pc and info are 0 (log entries 2, 3), a reset keeps the count of random bytes (log entry 5); all DESIGN CHOICE. -/
def Obligations.ResetMeetsTheInvariants : Prop :=
  (∀ memInit, MemoryOk (resetWith memInit) ∧ ShapeOk (resetWith memInit) ∧ PcOk (resetWith memInit) ∧
    Running (resetWith memInit)) ∧
  MemoryOk State.reset ∧ ShapeOk State.reset ∧ PcOk State.reset ∧ Running State.reset ∧
  resetWith (fun _ => 0) = State.reset ∧
  (∀ memInit s, hostReset (Config.taken.withMemInit memInit) s = { resetWith memInit with rndCount := s.rndCount })

/-- The set of host moves is log entry 13 (DEDUCED from R203). -/
def Obligations.EveryHostMoveKeepsTheInvariants : Prop :=
  (∀ cfg : Config, cfg.progTop ≤ cfg.memSize → ∀ (m : HostMove) (s t : State), MemoryOkFor cfg s → ShapeOkFor cfg s →
    applyMove cfg m s = .next t → MemoryOkFor cfg t ∧ ShapeOkFor cfg t) ∧
  (∀ (m : HostMove) (s t : State), PcOk s → applyMove Config.taken m s = .next t → PcOk t)

/-- Over every session of the host, by induction over its moves (R203); the set of moves is log entry 13 (DEDUCED). -/
def Obligations.EverySessionMeetsTheInvariants : Prop :=
  ∀ (memInit : Nat → Byte) (ms : List HostMove) (s : State),
    ∃ t, applyMoves Config.taken (.reset memInit :: ms) s = .next t ∧ MemoryOk t ∧ ShapeOk t ∧ PcOk t

/-! ### Reset, program load and key write -/

/-- R25, at the reset port (R210); nothing is said of the stack entries, fault_pc and fault_info, which R25 leaves unspecified, nor of the model's own count of random bytes. -/
def Obligations.ResetLeavesTheListedValues : Prop :=
  ∀ (memInit : Nat → Byte) (s : State), ∃ t, hostReset (Config.taken.withMemInit memInit) s = t ∧
    (∀ r, t.getV r = 0#8) ∧ t.regI = 0#16 ∧ t.pc = 0x200#16 ∧ t.sp = 0 ∧ t.dt = 0#8 ∧ t.st = 0#8 ∧
    (∀ k, t.keys.get k = false) ∧ (∀ r c, Framebuffer.cell t.fb r c = false) ∧ t.fault = .none ∧
    (∀ a, a < 4096 → t.readByte a = if h : a < standardFont.length then standardFont[a] else memInit a) ∧
    (∀ image : List Byte, image.length ≤ 3584 → ∃ u, loadProgram Config.taken image t = (u, false) ∧
      u = { t with mem := u.mem } ∧
      ∀ a, u.readByte a = if h : 0x200 ≤ a ∧ a < 0x200 + image.length then image[a - 0x200] else t.readByte a)

/-- FONT is a field of Config, so the first clause holds for every FONT; the bytes of the second are the spec's own default (D19, log entry 18). The reduction modulo 65536 follows from the width of I (R13); that a configuration may need it is log entry 23. -/
def Obligations.ResetInstallsTheFont : Prop :=
  (∀ (cfg : Config) (s : State), ∃ t, hostReset cfg s = t ∧ t.pc = BitVec.ofNat 16 cfg.progOrigin ∧
    (∀ k, (h : k < cfg.font.length) → cfg.fontBase + k < cfg.memSize → t.readByte (cfg.fontBase + k) = cfg.font[k]) ∧
    (∀ a, a < cfg.memSize → a < cfg.fontBase ∨ cfg.fontBase + cfg.font.length ≤ a → t.readByte a = cfg.memInit a) ∧
    MemoryOkFor cfg t ∧ ShapeOkFor cfg t ∧
    ∀ x u, ∃ v, execWith cfg (.ldF x) u = .next v ∧
      v = { u with regI := BitVec.ofNat 16 (cfg.fontBase + cfg.glyphBytes * (u.getV x).toNat) }) ∧
  (∀ memInit : Nat → Byte, ∀ d, d < 16 →
    (resetWith memInit).mem.readBytes (5 * d) 5 =
      [[0xF0#8, 0x90#8, 0x90#8, 0x90#8, 0xF0#8], [0x20#8, 0x60#8, 0x20#8, 0x20#8, 0x70#8],
       [0xF0#8, 0x10#8, 0xF0#8, 0x80#8, 0xF0#8], [0xF0#8, 0x10#8, 0xF0#8, 0x10#8, 0xF0#8],
       [0x90#8, 0x90#8, 0xF0#8, 0x10#8, 0x10#8], [0xF0#8, 0x80#8, 0xF0#8, 0x10#8, 0xF0#8],
       [0xF0#8, 0x80#8, 0xF0#8, 0x90#8, 0xF0#8], [0xF0#8, 0x10#8, 0x20#8, 0x40#8, 0x40#8],
       [0xF0#8, 0x90#8, 0xF0#8, 0x90#8, 0xF0#8], [0xF0#8, 0x90#8, 0xF0#8, 0x10#8, 0xF0#8],
       [0xF0#8, 0x90#8, 0xF0#8, 0x90#8, 0x90#8], [0xE0#8, 0x90#8, 0xE0#8, 0x90#8, 0xE0#8],
       [0xF0#8, 0x80#8, 0x80#8, 0x80#8, 0xF0#8], [0xE0#8, 0x90#8, 0x90#8, 0x90#8, 0xE0#8],
       [0xF0#8, 0x80#8, 0xF0#8, 0x80#8, 0xF0#8], [0xF0#8, 0x80#8, 0xF0#8, 0x80#8, 0x80#8]].getD d [])

/-- R196: the host writes all 16 flags at once; the core never writes them (R18). -/
def Obligations.KeyWriteSetsTheLatchAlone : Prop :=
  (∀ (cfg : Config) (k : Vector Bool 16) (s : State), ∃ t, applyMove cfg (.keys k) s = .next t ∧ t = writeKeys k s ∧
    t.keys = k ∧ KeepsV [] s t ∧ t.regI = s.regI ∧ t.pc = s.pc ∧ KeepsStack s t ∧ KeepsTimers s t ∧ t.fb = s.fb ∧
    t.mem = s.mem ∧ t.fault = s.fault ∧ t.faultPc = s.faultPc ∧ t.faultInfo = s.faultInfo ∧ t.rndCount = s.rndCount) ∧
  (∀ s t : State, step s = .next t → t.keys = s.keys)

/-- R215 and R216, for every state with memory in canonical form. -/
def Obligations.ProgramLoadIsAllOrNothing : Prop :=
  ∀ (image : List Byte) (s : State), MemoryOk s →
    (image.length ≤ 3584 → ∃ t, loadProgram Config.taken image s = (t, false) ∧ t = { s with mem := t.mem } ∧
      ∀ a, t.readByte a = if h : 0x200 ≤ a ∧ a < 0x200 + image.length then image[a - 0x200] else s.readByte a) ∧
    (3584 < image.length → loadProgram Config.taken image s = (s, true))

/-! ### Rules of the whole machine -/

/-- The register frame of all 38 rows at once. -/
def Obligations.OnlyDestinationRegistersChange : Prop :=
  ∀ (i : Instr) (s t : State), exec i s = .next t → ∀ r : RegIdx, r ∉ destRegs i →
    (writesFlag i = true → r ≠ 0xF#4) → t.getV r = s.getV r

/-- R11: the instructions that write VF as a flag are exactly these. -/
def Obligations.FlagIsWrittenByExactlySixInstructions : Prop :=
  ∀ (i : Instr) (s t : State), Running s → exec i s = .next t → Running t →
    (writesFlag i = true → t.getV 0xF#4 = 0#8 ∨ t.getV 0xF#4 = 1#8) ∧
    (writesFlag i = false → 0xF#4 ∉ destRegs i → t.getV 0xF#4 = s.getV 0xF#4)

/-- Collected from the state rules: who may write what. -/
def Obligations.EachPieceIsWrittenOnlyByItsInstructions : Prop :=
  ∀ (i : Instr) (s t : State), exec i s = .next t →
    t.keys = s.keys ∧
    (t.fb ≠ s.fb → i = .cls ∨ ∃ x y n, i = .drw x y n) ∧
    (t.sp ≠ s.sp ∨ t.stack ≠ s.stack → i = .ret ∨ ∃ nnn, i = .call nnn) ∧
    (t.mem ≠ s.mem → ∃ x, i = .ldB x ∨ i = .ldMemVx x) ∧
    (t.regI ≠ s.regI → (∃ nnn, i = .ldI nnn) ∨ ∃ x, i = .addI x ∨ i = .ldF x) ∧
    (t.dt ≠ s.dt → ∃ x, i = .ldDtVx x) ∧ (t.st ≠ s.st → ∃ x, i = .ldStVx x) ∧
    (t.rndCount ≠ s.rndCount → ∃ x kk, i = .rnd x kk)

/-- Two runs that differ only there (R17: ST is read by no instruction; R18; R19). -/
def Obligations.LatchesAndOutputsAreReadOnlyByTheirInstructions : Prop :=
  ∀ (i : Instr) (s t : State), exec i s = .next t →
    (∀ b, exec i (s.setSt b) = .next (match i with | .ldStVx _ => t | _ => t.setSt b)) ∧
    (∀ k, (∀ x, i ≠ .skp x ∧ i ≠ .sknp x ∧ i ≠ .ldVxK x) → exec i (s.setKeys k) = .next (t.setKeys k)) ∧
    (∀ f, (i ≠ .cls ∧ ∀ x y n, i ≠ .drw x y n) → exec i (s.setFb f) = .next (t.setFb f))

/-! ### The no-op -/

/-- R85, with the encoding: an undefined secondary key in family 0, 8, E or F. -/
def Obligations.NoOpOnlyAdvancesAndTicks : Prop :=
  (∀ w : Word, (w.toNat / 4096 = 0x0 ∧ w.toNat % 16 ∉ [0x0, 0xE]) ∨
      (w.toNat / 4096 = 0x8 ∧ w.toNat % 16 ∉ [0x0, 0x1, 0x2, 0x3, 0x4, 0x5, 0x6, 0x7, 0xE]) ∨
      (w.toNat / 4096 = 0xE ∧ w.toNat % 16 ∉ [0xE, 0x1]) ∨
      (w.toNat / 4096 = 0xF ∧ w.toNat % 256 ∉ [0x07, 0x0A, 0x15, 0x18, 0x1E, 0x29, 0x33, 0x55, 0x65]) →
    isNoOp (decode w) = true) ∧
  (∀ s nnn, (Instr.nop0 nnn).wellFormed = true → exec (.nop0 nnn) s = .next s) ∧
  (∀ s x y key, (Instr.nop8 x y key).wellFormed = true → exec (.nop8 x y key) s = .next s) ∧
  (∀ s x mid key, (Instr.nopE x mid key).wellFormed = true → exec (.nopE x mid key) s = .next s) ∧
  (∀ s x key, (Instr.nopF x key).wellFormed = true → exec (.nopF x key) s = .next s) ∧
  (∀ s : State, Running s → s.pc.toNat ≤ 4094 → isNoOp (instrAt s) = true →
    ∃ t, step s = .next t ∧ t = { s with pc := t.pc, dt := t.dt, st := t.st } ∧ t.pc.toNat = s.pc.toNat + 2 ∧
      t.dt.toNat = s.dt.toNat - 1 ∧ t.st.toNat = s.st.toNat - 1)

/-! ### Control flow -/

/-- R90. -/
def Obligations.JpGoesToTheLiteral : Prop :=
  (EncodedBy 0xF000#16 0x1000#16 fun w => .jp (w.extractLsb' 0 12)) ∧
  ∀ nnn s, ∃ t, exec (.jp nnn) s = .next t ∧ t.pc.toNat = nnn.toNat ∧ KeepsStack s t ∧ KeepsAllButPcAndStack s t

/-- The scenario of R90 and the idiom of R88, for every number of steps. -/
def Obligations.JumpToSelfSpins : Prop :=
  ∀ s : State, Running s → s.pc.toNat ≤ 4094 → instrAt s = .jp (s.pc.extractLsb' 0 12) →
    ∀ k, ∃ t, outcomeAfter k s = .next t ∧ t = { s with dt := t.dt, st := t.st } ∧
      t.dt.toNat = s.dt.toNat - k ∧ t.st.toNat = s.st.toNat - k

/-- R97; the semantics are the spec's from general knowledge (D2, log entry 7). The refusal is stated of the behaviour, which is family 0xB by the first clause; which words it reaches under another opcode table is log entry 25 and not said here. -/
def Obligations.JpV0AddsV0WithoutMasking : Prop :=
  (EncodedBy 0xF000#16 0xB000#16 fun w => .jpV0 (w.extractLsb' 0 12)) ∧
  (∀ nnn s, ∃ t, exec (.jpV0 nnn) s = .next t ∧ t.pc.toNat = nnn.toNat + (s.getV 0x0#4).toNat ∧ KeepsStack s t ∧
    KeepsAllButPcAndStack s t) ∧
  (∀ cfg nnn s, cfg.bnnnDefined = true → jumpV0 cfg nnn s = exec (.jpV0 nnn) s) ∧
  (∀ cfg nnn s, cfg.bnnnDefined = false → jumpV0 cfg nnn s = .refused .bnnnUndefined)

/-- R91. -/
def Obligations.CallPushesTheReturnAddress : Prop :=
  (EncodedBy 0xF000#16 0x2000#16 fun w => .call (w.extractLsb' 0 12)) ∧
  (∀ nnn (s : State), ShapeOk s → s.sp < 16 → ∃ t, exec (.call nnn) s = .next t ∧ t.pc.toNat = nnn.toNat ∧
    t.sp = s.sp + 1 ∧ (∀ k, t.entry k = if k = s.sp then s.pc else s.entry k) ∧ KeepsAllButPcAndStack s t) ∧
  (∀ nnn (s : State), s.sp = 16 → ∃ t, exec (.call nnn) s = .next t ∧ RaisedFrom s t .stackOverflow s.sp)

/-- R92. -/
def Obligations.RetPopsTheReturnAddress : Prop :=
  (EncodedBy 0xF00F#16 0x000E#16 fun _ => .ret) ∧
  (∀ s : State, 0 < s.sp → ∃ t, exec .ret s = .next t ∧ t.sp + 1 = s.sp ∧ t.pc = s.entry t.sp ∧ t.stack = s.stack ∧
    KeepsAllButPcAndStack s t) ∧
  (∀ s : State, s.sp = 0 → ∃ t, exec .ret s = .next t ∧ RaisedFrom s t .stackUnderflow 0)

/-- The call-then-return scenario (95_test_vectors.md S9), at every depth the stack allows. -/
def Obligations.CallThenReturnComesBack : Prop :=
  ∀ (s : State) (nnn : Addr12), ShapeOk s → Running s → s.pc.toNat ≤ 4094 → s.sp < 16 → instrAt s = .call nnn → nnn.toNat ≤ 4094 →
    decode (wordOfBytes (s.readByte nnn.toNat) (s.readByte (nnn.toNat + 1))) = .ret →
    ∃ t, outcomeAfter 2 s = .next t ∧ t.pc.toNat = s.pc.toNat + 2 ∧ t.sp = s.sp ∧
      (∀ k, k < s.sp → t.entry k = s.entry k) ∧
      KeepsV [] s t ∧ t.regI = s.regI ∧ KeepsMem s t ∧ KeepsFb s t ∧ t.keys = s.keys

/-- R93 to R96; pc = pc0 + 2 on entry, so a taken skip gives pc0 + 4. -/
def Obligations.SkipsAddOneInstructionWidthWhenTheCompareHolds : Prop :=
  (EncodedBy 0xF000#16 0x3000#16 fun w => .seByte (w.extractLsb' 8 4) (w.extractLsb' 0 8)) ∧
  (EncodedBy 0xF000#16 0x4000#16 fun w => .sneByte (w.extractLsb' 8 4) (w.extractLsb' 0 8)) ∧
  (EncodedBy 0xF000#16 0x5000#16 fun w => .seReg (w.extractLsb' 8 4) (w.extractLsb' 4 4)) ∧
  (EncodedBy 0xF000#16 0x9000#16 fun w => .sneReg (w.extractLsb' 8 4) (w.extractLsb' 4 4)) ∧
  (∀ x kk s, ∃ t, exec (.seByte x kk) s = .next t ∧
    t.pc = (if (s.getV x).toNat = kk.toNat then s.pc + 2#16 else s.pc) ∧ KeepsStack s t ∧ KeepsAllButPcAndStack s t) ∧
  (∀ x kk s, ∃ t, exec (.sneByte x kk) s = .next t ∧
    t.pc = (if (s.getV x).toNat = kk.toNat then s.pc else s.pc + 2#16) ∧ KeepsStack s t ∧ KeepsAllButPcAndStack s t) ∧
  (∀ x y s, ∃ t, exec (.seReg x y) s = .next t ∧
    t.pc = (if (s.getV x).toNat = (s.getV y).toNat then s.pc + 2#16 else s.pc) ∧ KeepsStack s t ∧
    KeepsAllButPcAndStack s t) ∧
  (∀ x y s, ∃ t, exec (.sneReg x y) s = .next t ∧
    t.pc = (if (s.getV x).toNat = (s.getV y).toNat then s.pc else s.pc + 2#16) ∧ KeepsStack s t ∧
    KeepsAllButPcAndStack s t)

/-! ### Loads, arithmetic, logic, shifts -/

/-- R101, R102 and R103. -/
def Obligations.LoadsAndAddImmediateWriteNoFlag : Prop :=
  (EncodedBy 0xF000#16 0x6000#16 fun w => .ldByte (w.extractLsb' 8 4) (w.extractLsb' 0 8)) ∧
  (EncodedBy 0xF00F#16 0x8000#16 fun w => .ldReg (w.extractLsb' 8 4) (w.extractLsb' 4 4)) ∧
  (EncodedBy 0xF000#16 0x7000#16 fun w => .addByte (w.extractLsb' 8 4) (w.extractLsb' 0 8)) ∧
  (∀ x kk s, ∃ t, exec (.ldByte x kk) s = .next t ∧ t.getV x = kk ∧ KeepsV [x] s t ∧ KeepsAllButV s t) ∧
  (∀ x y s, ∃ t, exec (.ldReg x y) s = .next t ∧ t.getV x = s.getV y ∧ KeepsV [x] s t ∧ KeepsAllButV s t) ∧
  (∀ x kk s, ∃ t, exec (.addByte x kk) s = .next t ∧ (t.getV x).toNat = ((s.getV x).toNat + kk.toNat) % 256 ∧
    KeepsV [x] s t ∧ KeepsAllButV s t)

/-- R104, R105, R106. -/
def Obligations.LogicActsBitwiseWithoutFlag : Prop :=
  (EncodedBy 0xF00F#16 0x8001#16 fun w => .orReg (w.extractLsb' 8 4) (w.extractLsb' 4 4)) ∧
  (EncodedBy 0xF00F#16 0x8002#16 fun w => .andReg (w.extractLsb' 8 4) (w.extractLsb' 4 4)) ∧
  (EncodedBy 0xF00F#16 0x8003#16 fun w => .xorReg (w.extractLsb' 8 4) (w.extractLsb' 4 4)) ∧
  (∀ x y s, ∃ t, exec (.orReg x y) s = .next t ∧
    (∀ k, (t.getV x).getLsbD k = ((s.getV x).getLsbD k || (s.getV y).getLsbD k)) ∧ KeepsV [x] s t ∧ KeepsAllButV s t) ∧
  (∀ x y s, ∃ t, exec (.andReg x y) s = .next t ∧
    (∀ k, (t.getV x).getLsbD k = ((s.getV x).getLsbD k && (s.getV y).getLsbD k)) ∧ KeepsV [x] s t ∧ KeepsAllButV s t) ∧
  (∀ x y s, ∃ t, exec (.xorReg x y) s = .next t ∧
    (∀ k, (t.getV x).getLsbD k = ((s.getV x).getLsbD k ^^ (s.getV y).getLsbD k)) ∧ KeepsV [x] s t ∧ KeepsAllButV s t)

/-- R107, with the write priority of R113. -/
def Obligations.AddSetsTheCarry : Prop :=
  (EncodedBy 0xF00F#16 0x8004#16 fun w => .addReg (w.extractLsb' 8 4) (w.extractLsb' 4 4)) ∧
  (∀ x y s, ∃ t, exec (.addReg x y) s = .next t ∧
    (t.getV 0xF#4).toNat = (if 255 < (s.getV x).toNat + (s.getV y).toNat then 1 else 0) ∧
    (x ≠ 0xF#4 → (t.getV x).toNat = ((s.getV x).toNat + (s.getV y).toNat) % 256) ∧ KeepsV [x, 0xF#4] s t ∧ KeepsAllButV s t)

/-- R108 and R110. -/
def Obligations.SubAndSubnSetStrictlyGreater : Prop :=
  (EncodedBy 0xF00F#16 0x8005#16 fun w => .sub (w.extractLsb' 8 4) (w.extractLsb' 4 4)) ∧
  (EncodedBy 0xF00F#16 0x8007#16 fun w => .subn (w.extractLsb' 8 4) (w.extractLsb' 4 4)) ∧
  (∀ x y s, ∃ t, exec (.sub x y) s = .next t ∧
    (t.getV 0xF#4).toNat = (if (s.getV y).toNat < (s.getV x).toNat then 1 else 0) ∧
    (x ≠ 0xF#4 → (t.getV x).toNat = (256 + (s.getV x).toNat - (s.getV y).toNat) % 256) ∧ KeepsV [x, 0xF#4] s t ∧ KeepsAllButV s t) ∧
  (∀ x y s, ∃ t, exec (.subn x y) s = .next t ∧
    (t.getV 0xF#4).toNat = (if (s.getV x).toNat < (s.getV y).toNat then 1 else 0) ∧
    (x ≠ 0xF#4 → (t.getV x).toNat = (256 + (s.getV y).toNat - (s.getV x).toNat) % 256) ∧ KeepsV [x, 0xF#4] s t ∧ KeepsAllButV s t)

/-- R109 and R111. -/
def Obligations.ShiftsMoveTheirBitIntoTheFlag : Prop :=
  (EncodedBy 0xF00F#16 0x8006#16 fun w => .shr (w.extractLsb' 8 4)) ∧
  (EncodedBy 0xF00F#16 0x800E#16 fun w => .shl (w.extractLsb' 8 4)) ∧
  (∀ x s, ∃ t, exec (.shr x) s = .next t ∧
    (t.getV 0xF#4).toNat = (if (s.getV x).getLsbD 0 = true then 1 else 0) ∧
    (x ≠ 0xF#4 → (t.getV x).toNat = (s.getV x).toNat / 2) ∧ KeepsV [x, 0xF#4] s t ∧ KeepsAllButV s t) ∧
  (∀ x s, ∃ t, exec (.shl x) s = .next t ∧
    (t.getV 0xF#4).toNat = (if (s.getV x).getLsbD 7 = true then 1 else 0) ∧
    (x ≠ 0xF#4 → (t.getV x).toNat = (s.getV x).toNat * 2 % 256) ∧ KeepsV [x, 0xF#4] s t ∧ KeepsAllButV s t)

/-! ### Address register -/

/-- R120 and R122, FONT_BASE being 0. -/
def Obligations.LdIAndLdFSetTheAddressRegister : Prop :=
  (EncodedBy 0xF000#16 0xA000#16 fun w => .ldI (w.extractLsb' 0 12)) ∧
  (EncodedBy 0xF0FF#16 0xF029#16 fun w => .ldF (w.extractLsb' 8 4)) ∧
  (∀ nnn s, ∃ t, exec (.ldI nnn) s = .next t ∧ t.regI.toNat = nnn.toNat ∧ t.pc = s.pc ∧ KeepsV [] s t ∧ KeepsStack s t ∧
    KeepsTimers s t ∧ KeepsFb s t ∧ KeepsMem s t ∧ KeepsLatches s t) ∧
  (∀ x s, ∃ t, exec (.ldF x) s = .next t ∧ t.regI.toNat = 0x000 + 5 * (s.getV x).toNat ∧ t.pc = s.pc ∧
    KeepsV [] s t ∧ KeepsStack s t ∧ KeepsTimers s t ∧ KeepsFb s t ∧ KeepsMem s t ∧ KeepsLatches s t)

/-- R121. -/
def Obligations.AddIWrapsAtSixteenBits : Prop :=
  (EncodedBy 0xF0FF#16 0xF01E#16 fun w => .addI (w.extractLsb' 8 4)) ∧
  ∀ x s, ∃ t, exec (.addI x) s = .next t ∧ t.regI.toNat = (s.regI.toNat + (s.getV x).toNat) % 65536 ∧ t.pc = s.pc ∧
    KeepsV [] s t ∧ KeepsStack s t ∧ KeepsTimers s t ∧ KeepsFb s t ∧ KeepsMem s t ∧ KeepsLatches s t

/-! ### Memory block transfers -/

/-- R130. -/
def Obligations.BcdWritesThreeDigits : Prop :=
  (EncodedBy 0xF0FF#16 0xF033#16 fun w => .ldB (w.extractLsb' 8 4)) ∧
  (∀ x s, MemoryOk s → s.addrI + 2 ≤ 4095 → ∃ t, exec (.ldB x) s = .next t ∧
    (t.readByte s.addrI).toNat = (s.getV x).toNat / 100 ∧
    (t.readByte (s.addrI + 1)).toNat = (s.getV x).toNat / 10 % 10 ∧
    (t.readByte (s.addrI + 2)).toNat = (s.getV x).toNat % 10 ∧ KeepsMemOutside s.addrI 3 s t ∧
    t.pc = s.pc ∧ t.regI = s.regI ∧ KeepsV [] s t ∧ KeepsStack s t ∧ KeepsTimers s t ∧ KeepsFb s t ∧ KeepsLatches s t) ∧
  (∀ x s, 4095 < s.addrI + 2 → ∃ t, exec (.ldB x) s = .next t ∧ RaisedFrom s t .memWriteRange (max s.addrI 4096))

/-- R131. -/
def Obligations.BulkStoreWritesV0ToVx : Prop :=
  (EncodedBy 0xF0FF#16 0xF055#16 fun w => .ldMemVx (w.extractLsb' 8 4)) ∧
  (∀ x s, MemoryOk s → s.addrI + x.toNat ≤ 4095 → ∃ t, exec (.ldMemVx x) s = .next t ∧
    (∀ k : RegIdx, k.toNat ≤ x.toNat → t.readByte (s.addrI + k.toNat) = s.getV k) ∧
    KeepsMemOutside s.addrI (x.toNat + 1) s t ∧
    t.pc = s.pc ∧ t.regI = s.regI ∧ KeepsV [] s t ∧ KeepsStack s t ∧ KeepsTimers s t ∧ KeepsFb s t ∧ KeepsLatches s t) ∧
  (∀ x s, 4095 < s.addrI + x.toNat →
    ∃ t, exec (.ldMemVx x) s = .next t ∧ RaisedFrom s t .memWriteRange (max s.addrI 4096))

/-- R132: the destination of byte k is V[k] (conflict C2). -/
def Obligations.BulkLoadReadsV0ToVx : Prop :=
  (EncodedBy 0xF0FF#16 0xF065#16 fun w => .ldVxMem (w.extractLsb' 8 4)) ∧
  (∀ x s, s.addrI + x.toNat ≤ 4095 → ∃ t, exec (.ldVxMem x) s = .next t ∧
    (∀ k : RegIdx, t.getV k = if k.toNat ≤ x.toNat then s.readByte (s.addrI + k.toNat) else s.getV k) ∧
    KeepsAllButV s t) ∧
  (∀ x s, 4095 < s.addrI + x.toNat →
    ∃ t, exec (.ldVxMem x) s = .next t ∧ RaisedFrom s t .memReadRange (max s.addrI 4096))

/-- The round-trip property quoted at R132; the registers between the two may be anything. -/
def Obligations.BulkStoreThenLoadGivesBackV0ToVx : Prop :=
  ∀ (x : RegIdx) (s : State), MemoryOk s → s.addrI + x.toNat ≤ 4095 → ∃ t, exec (.ldMemVx x) s = .next t ∧
    (∀ u : State, u.mem = t.mem → u.regI = t.regI → ∃ v, exec (.ldVxMem x) u = .next v ∧
      (∀ k : RegIdx, v.getV k = if k.toNat ≤ x.toNat then s.getV k else u.getV k) ∧ v.mem = t.mem ∧ v.regI = s.regI) ∧
    exec (.ldVxMem x) t = .next t ∧ KeepsV [] s t

/-- Self-modifying code works with no fence (R52). -/
def Obligations.StoredWordIsTheNextFetched : Prop :=
  ∀ (s : State) (x : RegIdx), MemoryOk s → Running s → s.pc.toNat ≤ 4092 → instrAt s = .ldMemVx x → 1 ≤ x.toNat →
    s.addrI = s.pc.toNat + 2 → s.addrI + x.toNat ≤ 4095 →
    ∃ t w, step s = .next t ∧ Running t ∧ fetchWord Config.taken t = some w ∧
      w.toNat = (s.getV 0x0#4).toNat * 256 + (s.getV 0x1#4).toNat

/-! ### Random -/

/-- R140; the byte is the free value Config.rndIn (log entry 4), so the statement holds for every byte. -/
def Obligations.RndMasksOneFreshByte : Prop :=
  (EncodedBy 0xF000#16 0xC000#16 fun w => .rnd (w.extractLsb' 8 4) (w.extractLsb' 0 8)) ∧
  ∀ x kk s, ∃ t, exec (.rnd x kk) s = .next t ∧
    (∀ k, (t.getV x).getLsbD k = ((Config.rndIn s.rndCount).getLsbD k && kk.getLsbD k)) ∧
    t.rndCount = s.rndCount + 1 ∧ KeepsV [x] s t ∧ t.pc = s.pc ∧ t.regI = s.regI ∧ KeepsStack s t ∧ KeepsTimers s t ∧
    KeepsFb s t ∧ KeepsMem s t ∧ t.keys = s.keys ∧ t.fault = s.fault ∧ t.faultPc = s.faultPc ∧ t.faultInfo = s.faultInfo

/-! ### Framebuffer -/

/-- The loops of R150 are a cell-by-cell XOR; stated for EDGE_POLICY = clip, the value taken. -/
def Obligations.DrawXorsTheSprite : Prop :=
  (EncodedBy 0xF000#16 0xD000#16 fun w => .drw (w.extractLsb' 8 4) (w.extractLsb' 4 4) (w.extractLsb' 0 4)) ∧
  (∀ (x y : RegIdx) (n : Nibble) (s : State), ShapeOk s →
    n.toNat = 0 ∨ s.addrI + n.toNat - 1 ≤ 4095 → ∃ t, exec (.drw x y n) s = .next t ∧
    (∀ r c, Framebuffer.cell t.fb r c = (Framebuffer.cell s.fb r c ^^ spriteBit Config.taken s x y n r c)) ∧
    ((∃ r c, spriteBit Config.taken s x y n r c = true ∧ Framebuffer.cell s.fb r c = true) → t.getV 0xF#4 = 1#8) ∧
    ((∀ r c, spriteBit Config.taken s x y n r c = true → Framebuffer.cell s.fb r c = false) → t.getV 0xF#4 = 0#8) ∧
    KeepsV [0xF#4] s t ∧ t.pc = s.pc ∧ t.regI = s.regI ∧ KeepsStack s t ∧ KeepsTimers s t ∧ KeepsMem s t ∧
    KeepsLatches s t) ∧
  (∀ (x y : RegIdx) (n : Nibble) (s : State), 0 < n.toNat → 4095 < s.addrI + n.toNat - 1 →
    ∃ t, exec (.drw x y n) s = .next t ∧ RaisedFrom s t .memReadRange (max s.addrI 4096))

/-- R154 (a) and (b); (c) is why VF may not be a coordinate. -/
def Obligations.DrawingTwiceRestoresTheScreen : Prop :=
  ∀ (x y : RegIdx) (n : Nibble) (s : State), ShapeOk s → x ≠ 0xF#4 → y ≠ 0xF#4 → (n.toNat = 0 ∨ s.addrI + n.toNat - 1 ≤ 4095) →
    ∃ t u, exec (.drw x y n) s = .next t ∧ exec (.drw x y n) t = .next u ∧ KeepsFb s u ∧
      (t.getV 0xF#4 = 1#8 ↔ ∃ r c, spriteBit Config.taken s x y n r c = true ∧ Framebuffer.cell s.fb r c = true) ∧
      (u.getV 0xF#4 = 1#8 ↔ ∃ r c, spriteBit Config.taken s x y n r c = true ∧ Framebuffer.cell s.fb r c = false) ∧
      ((∀ r c, spriteBit Config.taken s x y n r c = false) → KeepsFb s t ∧ t.getV 0xF#4 = 0#8 ∧ u.getV 0xF#4 = 0#8)

/-- R153, the alternative value of the parameter; the instruction itself takes clip. -/
def Obligations.DrawUnderWrapPolicy : Prop :=
  ∀ (cfg : Config) (x y : RegIdx) (n : Nibble) (s : State), cfg.edgePolicy = .wrap → 8 ≤ cfg.fbWidth → n.toNat ≤ cfg.fbHeight →
    ShapeOkFor cfg s → (n.toNat = 0 ∨ s.addrI + n.toNat ≤ cfg.memSize) → ∃ t, execWith cfg (.drw x y n) s = .next t ∧
      (∀ r c, Framebuffer.cell t.fb r c = (Framebuffer.cell s.fb r c ^^ spriteBitWrapped cfg s x y n r c)) ∧
      (t.getV 0xF#4 = 1#8 ↔ ∃ r c, spriteBitWrapped cfg s x y n r c = true ∧ Framebuffer.cell s.fb r c = true)

/-- R151. -/
def Obligations.ClsClearsTheScreen : Prop :=
  (EncodedBy 0xF00F#16 0x0000#16 fun _ => .cls) ∧
  ∀ s, ∃ t, exec .cls s = .next t ∧ (∀ r c, Framebuffer.cell t.fb r c = false) ∧
    Framebuffer.Sized Config.taken t.fb ∧ KeepsV [] s t ∧ t.pc = s.pc ∧ t.regI = s.regI ∧ KeepsStack s t ∧ KeepsTimers s t ∧ KeepsMem s t ∧ KeepsLatches s t

/-! ### Input -/

/-- R160 and R161. -/
def Obligations.KeySkipsTestTheIndexedKey : Prop :=
  (EncodedBy 0xF00F#16 0xE00E#16 fun w => .skp (w.extractLsb' 8 4)) ∧
  (EncodedBy 0xF00F#16 0xE001#16 fun w => .sknp (w.extractLsb' 8 4)) ∧
  (∀ x (s : State) (k : Fin 16), (s.getV x).toNat = k.val →
    (∃ t, exec (.skp x) s = .next t ∧ t.pc = (if s.keys.get k = true then s.pc + 2#16 else s.pc) ∧ KeepsStack s t ∧
      KeepsAllButPcAndStack s t) ∧
    (∃ t, exec (.sknp x) s = .next t ∧ t.pc = (if s.keys.get k = true then s.pc else s.pc + 2#16) ∧ KeepsStack s t ∧
      KeepsAllButPcAndStack s t)) ∧
  (∀ x s, 15 < (s.getV x).toNat →
    (∃ t, exec (.skp x) s = .next t ∧ RaisedFrom s t .keyIndexRange (s.getV x).toNat) ∧
    (∃ t, exec (.sknp x) s = .next t ∧ RaisedFrom s t .keyIndexRange (s.getV x).toNat))

/-- R163: a claim that holds under both policies is independent of the choice. -/
def Obligations.KeyIndexPoliciesDifferOnlyAboveFifteen : Prop :=
  ∀ (cfg cfg4 : Config) (p : Bool) (x : RegIdx) (s : State), cfg.keyIndexPolicy = .fault → cfg4.keyIndexPolicy = .mask4 →
    ((s.getV x).toNat ≤ 15 → skipOnKey cfg p x s = skipOnKey cfg4 p x s) ∧
    (15 < (s.getV x).toNat → (∃ t, skipOnKey cfg p x s = .next t ∧ RaisedFrom s t .keyIndexRange (s.getV x).toNat) ∧
      ∀ k : Fin 16, k.val = (s.getV x).toNat % 16 → ∃ t, skipOnKey cfg4 p x s = .next t ∧
        t.pc = (if s.keys.get k = p then s.pc + 2#16 else s.pc) ∧ KeepsStack s t ∧ KeepsAllButPcAndStack s t)

/-- R162. -/
def Obligations.WaitForKeyTakesTheLowestKey : Prop :=
  (EncodedBy 0xF0FF#16 0xF00A#16 fun w => .ldVxK (w.extractLsb' 8 4)) ∧
  (∀ x (s : State) (k : Fin 16), s.keys.get k = true → (∀ j : Fin 16, j < k → s.keys.get j = false) →
    ∃ t, exec (.ldVxK x) s = .next t ∧ (t.getV x).toNat = k.val ∧ KeepsV [x] s t ∧ KeepsAllButV s t) ∧
  (∀ x (s : State), (∀ k, s.keys.get k = false) →
    ∃ t, exec (.ldVxK x) s = .next t ∧ t.pc = s.pc - 2#16 ∧ KeepsStack s t ∧ KeepsAllButPcAndStack s t)

/-! ### Timers -/

/-- R170, R171, R172; the tick that follows is TimersTickOncePerStep. -/
def Obligations.TimerInstructionsMoveTheTimers : Prop :=
  (EncodedBy 0xF0FF#16 0xF007#16 fun w => .ldVxDt (w.extractLsb' 8 4)) ∧
  (EncodedBy 0xF0FF#16 0xF015#16 fun w => .ldDtVx (w.extractLsb' 8 4)) ∧
  (EncodedBy 0xF0FF#16 0xF018#16 fun w => .ldStVx (w.extractLsb' 8 4)) ∧
  (∀ x s, ∃ t, exec (.ldVxDt x) s = .next t ∧ t.getV x = s.dt ∧ KeepsV [x] s t ∧ KeepsAllButV s t) ∧
  (∀ x s, ∃ t, exec (.ldDtVx x) s = .next t ∧ t.dt = s.getV x ∧ t.st = s.st ∧ KeepsV [] s t ∧ t.pc = s.pc ∧
    t.regI = s.regI ∧ KeepsStack s t ∧ KeepsFb s t ∧ KeepsMem s t ∧ KeepsLatches s t) ∧
  (∀ x s, ∃ t, exec (.ldStVx x) s = .next t ∧ t.st = s.getV x ∧ (soundActive t = true ↔ (s.getV x).toNat ≠ 0) ∧
    t.dt = s.dt ∧ KeepsV [] s t ∧ t.pc = s.pc ∧ t.regI = s.regI ∧ KeepsStack s t ∧ KeepsFb s t ∧ KeepsMem s t ∧
    KeepsLatches s t)

/-- R173 (a) to (d) at the level of the step. -/
def Obligations.TimerSetInAStepIsTickedInIt : Prop :=
  ∀ (s : State) (x : RegIdx), Running s → s.pc.toNat ≤ 4094 →
    (instrAt s = .ldDtVx x → ∃ t, step s = .next t ∧ t.dt.toNat = (s.getV x).toNat - 1 ∧ t.st.toNat = s.st.toNat - 1) ∧
    (instrAt s = .ldStVx x → ∃ t, step s = .next t ∧ t.st.toNat = (s.getV x).toNat - 1 ∧ t.dt.toNat = s.dt.toNat - 1 ∧
      (soundActive t = true ↔ 2 ≤ (s.getV x).toNat)) ∧
    (instrAt s = .ldVxDt x → ∃ t, step s = .next t ∧ t.getV x = s.dt ∧ t.dt.toNat = s.dt.toNat - 1)
end

