-- ==== Sys2Proof/Laws/Config.lean ====
section
/-! SUPPORT. The values taken for the parameters of 00_scope.md R5, one lemma per field; and what a reset leaves at an address. -/

namespace Sys2Proof

@[simp] theorem Config.taken_memSize : Config.taken.memSize = 4096 := rfl
@[simp] theorem Config.taken_fontBase : Config.taken.fontBase = 0 := rfl
@[simp] theorem Config.taken_glyphBytes : Config.taken.glyphBytes = 5 := rfl
@[simp] theorem Config.taken_progOrigin : Config.taken.progOrigin = 0x200 := rfl
@[simp] theorem Config.taken_progTop : Config.taken.progTop = 0x1000 := rfl
@[simp] theorem Config.taken_fbWidth : Config.taken.fbWidth = 64 := rfl
@[simp] theorem Config.taken_fbHeight : Config.taken.fbHeight = 32 := rfl
@[simp] theorem Config.taken_stackDepth : Config.taken.stackDepth = 16 := rfl
@[simp] theorem Config.taken_font : Config.taken.font = standardFont := rfl
@[simp] theorem Config.taken_memInit (a : Nat) : Config.taken.memInit a = 0 := rfl
@[simp] theorem Config.taken_opcodeTable : Config.taken.opcodeTable = Sys2Proof.opcodeTable := rfl
@[simp] theorem Config.taken_bnnnDefined : Config.taken.bnnnDefined = true := rfl
@[simp] theorem Config.taken_edgePolicy : Config.taken.edgePolicy = .clip := rfl
@[simp] theorem Config.taken_keyIndexPolicy : Config.taken.keyIndexPolicy = .fault := rfl

@[simp] theorem length_standardFont : standardFont.length = 80 := rfl

/-! ### Another `MEM_INIT`: no other parameter changes -/

section
variable (cfg : Config) (memInit : Nat → Byte)

@[simp] theorem Config.withMemInit_memSize : (cfg.withMemInit memInit).memSize = cfg.memSize := rfl
@[simp] theorem Config.withMemInit_fontBase : (cfg.withMemInit memInit).fontBase = cfg.fontBase := rfl
@[simp] theorem Config.withMemInit_progOrigin : (cfg.withMemInit memInit).progOrigin = cfg.progOrigin := rfl
@[simp] theorem Config.withMemInit_progTop : (cfg.withMemInit memInit).progTop = cfg.progTop := rfl
@[simp] theorem Config.withMemInit_fbWidth : (cfg.withMemInit memInit).fbWidth = cfg.fbWidth := rfl
@[simp] theorem Config.withMemInit_fbHeight : (cfg.withMemInit memInit).fbHeight = cfg.fbHeight := rfl
@[simp] theorem Config.withMemInit_stackDepth : (cfg.withMemInit memInit).stackDepth = cfg.stackDepth := rfl
@[simp] theorem Config.withMemInit_font : (cfg.withMemInit memInit).font = cfg.font := rfl
@[simp] theorem Config.withMemInit_memInit : (cfg.withMemInit memInit).memInit = memInit := rfl

end

/-- What a reset leaves at an address: the font byte in `FONT_BASE .. FONT_BASE + length - 1`, `MEM_INIT` elsewhere (R25). -/
theorem Config.resetByte_eq (cfg : Config) (a : Nat) :
    cfg.resetByte a =
      if h : cfg.fontBase ≤ a ∧ a - cfg.fontBase < cfg.font.length then cfg.font[a - cfg.fontBase]'h.2 else cfg.memInit a := by
  unfold Config.resetByte
  by_cases h1 : cfg.fontBase ≤ a
  · by_cases h2 : a - cfg.fontBase < cfg.font.length
    · simp [h1, h2]
    · simp [h1, h2]
  · simp [h1]

end Sys2Proof
end

