-- ==== Sys2Proof/Laws/Decode.lean ====
section
/-! SUPPORT. The fields of a word put together from its parts, and a word taken apart and put together again (30_encoding.md R61). -/

namespace Sys2Proof

section Nibbles
variable (op x y n : Nibble)

theorem toNat_wordOfNibbles :
    (wordOfNibbles op x y n).toNat = op.toNat * 4096 + x.toNat * 256 + y.toNat * 16 + n.toNat := by
  simp [wordOfNibbles]; omega

@[simp] theorem fieldOp_wordOfNibbles : fieldOp (wordOfNibbles op x y n) = op := by
  apply BitVec.eq_of_toNat_eq
  simp [fieldOp, toNat_wordOfNibbles, Nat.shiftRight_eq_div_pow]; omega

@[simp] theorem fieldX_wordOfNibbles : fieldX (wordOfNibbles op x y n) = x := by
  apply BitVec.eq_of_toNat_eq
  simp [fieldX, toNat_wordOfNibbles, Nat.shiftRight_eq_div_pow]; omega

@[simp] theorem fieldY_wordOfNibbles : fieldY (wordOfNibbles op x y n) = y := by
  apply BitVec.eq_of_toNat_eq
  simp [fieldY, toNat_wordOfNibbles, Nat.shiftRight_eq_div_pow]; omega

@[simp] theorem fieldN_wordOfNibbles : fieldN (wordOfNibbles op x y n) = n := by
  apply BitVec.eq_of_toNat_eq
  simp [fieldN, toNat_wordOfNibbles]; omega

end Nibbles

section Bytes
variable (op x : Nibble) (kk : Byte)

theorem toNat_wordOfByte : (wordOfByte op x kk).toNat = op.toNat * 4096 + x.toNat * 256 + kk.toNat := by
  simp [wordOfByte]; omega

@[simp] theorem fieldOp_wordOfByte : fieldOp (wordOfByte op x kk) = op := by
  apply BitVec.eq_of_toNat_eq
  simp [fieldOp, toNat_wordOfByte, Nat.shiftRight_eq_div_pow]; omega

@[simp] theorem fieldX_wordOfByte : fieldX (wordOfByte op x kk) = x := by
  apply BitVec.eq_of_toNat_eq
  simp [fieldX, toNat_wordOfByte, Nat.shiftRight_eq_div_pow]; omega

@[simp] theorem fieldKK_wordOfByte : fieldKK (wordOfByte op x kk) = kk := by
  apply BitVec.eq_of_toNat_eq
  simp [fieldKK, toNat_wordOfByte]; omega

@[simp] theorem fieldN_wordOfByte : fieldN (wordOfByte op x kk) = kk.extractLsb' 0 4 := by
  apply BitVec.eq_of_toNat_eq
  simp [fieldN, toNat_wordOfByte]; omega

@[simp] theorem fieldY_wordOfByte : fieldY (wordOfByte op x kk) = kk.extractLsb' 4 4 := by
  apply BitVec.eq_of_toNat_eq
  simp [fieldY, toNat_wordOfByte, Nat.shiftRight_eq_div_pow]; omega

end Bytes

section Addresses
variable (op : Nibble) (nnn : Addr12)

theorem toNat_wordOfAddr : (wordOfAddr op nnn).toNat = op.toNat * 4096 + nnn.toNat := by
  simp [wordOfAddr]; omega

@[simp] theorem fieldOp_wordOfAddr : fieldOp (wordOfAddr op nnn) = op := by
  apply BitVec.eq_of_toNat_eq
  simp [fieldOp, toNat_wordOfAddr, Nat.shiftRight_eq_div_pow]; omega

@[simp] theorem fieldNNN_wordOfAddr : fieldNNN (wordOfAddr op nnn) = nnn := by
  apply BitVec.eq_of_toNat_eq
  simp [fieldNNN, toNat_wordOfAddr]; omega

@[simp] theorem fieldN_wordOfAddr : fieldN (wordOfAddr op nnn) = nnn.extractLsb' 0 4 := by
  apply BitVec.eq_of_toNat_eq
  simp [fieldN, toNat_wordOfAddr]; omega

end Addresses

/-! ### Every word is one of its own parts -/

theorem wordOfNibbles_fields (w : Word) : wordOfNibbles (fieldOp w) (fieldX w) (fieldY w) (fieldN w) = w := by
  apply BitVec.eq_of_toNat_eq
  simp [toNat_wordOfNibbles, fieldOp, fieldX, fieldY, fieldN, Nat.shiftRight_eq_div_pow]; omega

theorem wordOfByte_fields (w : Word) : wordOfByte (fieldOp w) (fieldX w) (fieldKK w) = w := by
  apply BitVec.eq_of_toNat_eq
  simp [toNat_wordOfByte, fieldOp, fieldX, fieldKK, Nat.shiftRight_eq_div_pow]; omega

theorem wordOfAddr_fields (w : Word) : wordOfAddr (fieldOp w) (fieldNNN w) = w := by
  apply BitVec.eq_of_toNat_eq
  simp [toNat_wordOfAddr, fieldOp, fieldNNN, Nat.shiftRight_eq_div_pow]; omega

@[simp] theorem low_nibble_fieldNNN (w : Word) : (fieldNNN w).extractLsb' 0 4 = fieldN w := by
  apply BitVec.eq_of_toNat_eq
  simp [fieldNNN, fieldN]

@[simp] theorem low_nibble_fieldKK (w : Word) : (fieldKK w).extractLsb' 0 4 = fieldN w := by
  apply BitVec.eq_of_toNat_eq
  simp [fieldKK, fieldN]

@[simp] theorem high_nibble_fieldKK (w : Word) : (fieldKK w).extractLsb' 4 4 = fieldY w := by
  apply BitVec.eq_of_toNat_eq
  simp [fieldKK, fieldY, Nat.shiftRight_eq_div_pow]

/-! ### Masks (R73): what a row's comparison looks at -/

/-- The mask 0xF000 compares the high nibble. -/
theorem and_F000 (w : Word) : w &&& 0xF000#16 = (fieldOp w).zeroExtend 16 <<< 12 := by
  apply BitVec.eq_of_getLsbD_eq
  intro i hi
  interval_cases i <;> simp [fieldOp]

/-- The mask 0xF00F compares the high and the low nibble. -/
theorem and_F00F (w : Word) :
    w &&& 0xF00F#16 = (fieldOp w).zeroExtend 16 <<< 12 ||| (fieldN w).zeroExtend 16 := by
  apply BitVec.eq_of_getLsbD_eq
  intro i hi
  interval_cases i <;> simp [fieldOp, fieldN]

/-- The mask 0xF0FF compares the high nibble and the low byte. -/
theorem and_F0FF (w : Word) :
    w &&& 0xF0FF#16 = (fieldOp w).zeroExtend 16 <<< 12 ||| (fieldKK w).zeroExtend 16 := by
  apply BitVec.eq_of_getLsbD_eq
  intro i hi
  interval_cases i <;> simp [fieldOp, fieldKK]

/-- What a word matched under the mask 0xF000 has in its high nibble. -/
theorem fields_of_F000 {w p : Word} (h : w &&& 0xF000#16 = p) : fieldOp w = fieldOp p := by
  subst h
  rw [and_F000]
  apply BitVec.eq_of_getLsbD_eq
  intro i hi
  interval_cases i <;> simp [fieldOp]

/-- What a word matched under the mask 0xF00F has in its high and low nibbles. -/
theorem fields_of_F00F {w p : Word} (h : w &&& 0xF00F#16 = p) : fieldOp w = fieldOp p ∧ fieldN w = fieldN p := by
  subst h
  rw [and_F00F]
  constructor
  · apply BitVec.eq_of_getLsbD_eq
    intro i hi
    interval_cases i <;> simp [fieldOp]
  · apply BitVec.eq_of_getLsbD_eq
    intro i hi
    interval_cases i <;> simp [fieldN]

/-- What a word matched under the mask 0xF0FF has in its high nibble and low byte. -/
theorem fields_of_F0FF {w p : Word} (h : w &&& 0xF0FF#16 = p) : fieldOp w = fieldOp p ∧ fieldKK w = fieldKK p := by
  subst h
  rw [and_F0FF]
  constructor
  · apply BitVec.eq_of_getLsbD_eq
    intro i hi
    interval_cases i <;> simp [fieldOp]
  · apply BitVec.eq_of_getLsbD_eq
    intro i hi
    interval_cases i <;> simp [fieldKK]

end Sys2Proof
end

