-- ==== Sys2Proof/Laws/Memory.lean ====
section
/-! SUPPORT. Memory: a read after a write, and that every memory operation keeps the canonical form (20_memory.md R48, R49). -/

namespace Sys2Proof.Machine

@[simp] theorem Memory.read_nil (a : Nat) : Memory.read [] a = unlistedByte a := rfl

@[simp] theorem Memory.read_cons (c : Host.Cell) (m : Memory) (a : Nat) :
    Memory.read (c :: m) a = if a = c.1 then c.2 else Memory.read m a := rfl

/-- An address that no entry lists reads as an unlisted address does. -/
theorem Memory.read_of_not_listed {m : Memory} {a : Nat} (h : ∀ c ∈ m, c.1 ≠ a) : m.read a = unlistedByte a := by
  induction m with
  | nil => rfl
  | cons c m ih =>
    have h1 : a ≠ c.1 := fun e => h c List.mem_cons_self e.symm
    simp [h1, ih (fun d hd => h d (List.mem_cons_of_mem _ hd))]

theorem Memory.read_cell_append (a b : Nat) (v : Byte) (m : Memory) :
    Memory.read (Memory.cell a v ++ m) b = if b = a then (if v = unlistedByte a then m.read a else v) else m.read b := by
  unfold Memory.cell
  split <;> by_cases h : b = a <;> simp [h]

/-- Entries below every entry of a list do not occur in it. -/
theorem Memory.not_listed_of_lt {m : Memory} {a : Nat} (h : ∀ c ∈ m, a < c.1) : ∀ c ∈ m, c.1 ≠ a :=
  fun c hc e => by have := h c hc; omega

/-- A read after a write (R49 c): the byte written at its address, the old byte elsewhere. -/
theorem Memory.read_write {m : Memory} (hm : m.Pairwise fun c d => c.1 < d.1) (a b : Nat) (v : Byte) :
    (m.write a v).read b = if b = a then v else m.read b := by
  induction m with
  | nil =>
    have := Memory.read_cell_append a b v []
    simp only [List.append_nil] at this
    simp only [Memory.write, this]
    split
    · subst_vars; split <;> simp_all
    · rfl
  | cons c m ih =>
    obtain ⟨hc, hm⟩ := List.pairwise_cons.mp hm
    simp only [Memory.write]
    split
    · rename_i hlt
      have hn : Memory.read (c :: m) a = unlistedByte a := by
        refine Memory.read_of_not_listed fun d hd => ?_
        rcases List.mem_cons.mp hd with rfl | hd
        · omega
        · have := hc d hd; omega
      rw [Memory.read_cell_append, hn]
      split
      · split <;> simp_all
      · rfl
    · split
      · rename_i _ he
        have hn : Memory.read m a = unlistedByte a :=
          Memory.read_of_not_listed fun d hd => by have := hc d hd; omega
        rw [Memory.read_cell_append, hn]
        split
        · split <;> simp_all
        · rename_i hb
          have : b ≠ c.1 := by omega
          simp [this]
      · rename_i _ hne
        simp only [Memory.read_cons, ih hm]
        by_cases h1 : b = c.1
        · subst h1
          have : ¬ c.1 = a := fun e => hne e.symm
          simp [this]
        · simp [h1]

/-- Every address listed after a write was listed before, or is the one written. -/
theorem Memory.mem_write {m : Memory} {a : Nat} {v : Byte} {c : Host.Cell} (h : c ∈ m.write a v) :
    c ∈ m ∨ (c = (a, v) ∧ v ≠ unlistedByte a) := by
  induction m with
  | nil => unfold Memory.write Memory.cell at h; split at h <;> simp_all
  | cons d m ih =>
    simp only [Memory.write] at h
    split at h
    · unfold Memory.cell at h; split at h <;> simp at h <;> simp; all_goals tauto
    · split at h
      · unfold Memory.cell at h; split at h <;> simp at h <;> simp; all_goals tauto
      · rcases List.mem_cons.mp h with rfl | h
        · simp
        · rcases ih h with h | h
          · exact .inl (List.mem_cons_of_mem _ h)
          · exact .inr h

/-- A write keeps the addresses strictly rising. -/
theorem Memory.sorted_write {m : Memory} (hm : m.Pairwise fun c d => c.1 < d.1) (a : Nat) (v : Byte) :
    (m.write a v).Pairwise fun c d => c.1 < d.1 := by
  induction m with
  | nil => unfold Memory.write Memory.cell; split <;> simp
  | cons c m ih =>
    obtain ⟨hc, hm⟩ := List.pairwise_cons.mp hm
    simp only [Memory.write]
    split
    · rename_i hlt
      have hcm : (c :: m).Pairwise fun c d => c.1 < d.1 := List.pairwise_cons.mpr ⟨hc, hm⟩
      unfold Memory.cell
      split
      · exact hcm
      · refine List.pairwise_cons.mpr ⟨fun d hd => ?_, hcm⟩
        rcases List.mem_cons.mp hd with rfl | hd
        · exact hlt
        · have := hc d hd
          simp only; omega
    · split
      · rename_i _ he
        unfold Memory.cell
        split
        · exact hm
        · exact List.pairwise_cons.mpr ⟨fun d hd => by have := hc d hd; simp only; omega, hm⟩
      · rename_i hlt hne
        refine List.pairwise_cons.mpr ⟨fun d hd => ?_, ih hm⟩
        rcases Memory.mem_write hd with h | ⟨rfl, _⟩
        · exact hc d h
        · simp only; omega

/-- A write inside memory keeps the canonical form. -/
theorem Memory.wfBelow_write {size : Nat} {m : Memory} (hm : m.wfBelow size) {a : Nat} (ha : a < size) (v : Byte) :
    (m.write a v).wfBelow size := by
  refine ⟨Memory.sorted_write hm.1 a v, fun c hc => ?_⟩
  rcases Memory.mem_write hc with h | ⟨rfl, h⟩
  · exact hm.2 c h
  · exact ⟨ha, h⟩

/-- Writing a range inside memory keeps the canonical form. -/
theorem Memory.wfBelow_writeBytes {size : Nat} {m : Memory} (hm : m.wfBelow size) (bs : List Byte) {a : Nat}
    (ha : bs = [] ∨ a + bs.length ≤ size) : (m.writeBytes a bs).wfBelow size := by
  induction bs generalizing m a with
  | nil => exact hm
  | cons b bs ih =>
    have h1 : a + (bs.length + 1) ≤ size := by simpa using ha
    exact ih (Memory.wfBelow_write hm (by omega) b) (.inr (by omega))

/-- Reads after writing a range: the bytes written inside it, the old bytes outside (R49). -/
theorem Memory.read_writeBytes {m : Memory} (hm : m.Pairwise fun c d => c.1 < d.1) (bs : List Byte) (a b : Nat) :
    (m.writeBytes a bs).read b = if a ≤ b then (bs[b - a]?).getD (m.read b) else m.read b := by
  induction bs generalizing m a with
  | nil => simp [Memory.writeBytes]
  | cons c bs ih =>
    simp only [Memory.writeBytes]
    rw [ih (Memory.sorted_write hm a c)]
    rcases Nat.lt_trichotomy a b with h | h | h
    · obtain ⟨k, rfl⟩ : ∃ k, b = a + 1 + k := ⟨b - (a + 1), by omega⟩
      have h1 : a + 1 + k - (a + 1) = k := by omega
      have h2 : a + 1 + k - a = k + 1 := by omega
      have h3 : ¬ a + 1 + k = a := by omega
      have h4 : a ≤ a + 1 + k := by omega
      simp [h1, h2, h4, Memory.read_write hm, h3]
    · subst h
      simp [Memory.read_write hm]
    · have h1 : ¬ a + 1 ≤ b := by omega
      have h2 : ¬ a ≤ b := by omega
      have h3 : ¬ b = a := by omega
      simp [h1, h2, Memory.read_write hm, h3]

@[simp] theorem Memory.length_readBytes (m : Memory) (a k : Nat) : (m.readBytes a k).length = k := by
  simp [Memory.readBytes]

/-- Element `j` of a range read is the byte at `a + j`. -/
theorem Memory.getElem?_readBytes (m : Memory) (a k j : Nat) :
    (m.readBytes a k)[j]? = if j < k then some (m.read (a + j)) else none := by
  simp only [Memory.readBytes, List.getElem?_map]
  split
  · rename_i h; simp [List.getElem?_range h]
  · rename_i h
    rw [List.getElem?_eq_none (by simpa using h)]
    rfl

/-- What a listed cell of a canonical memory reads as. -/
theorem Memory.read_of_mem {m : Memory} (hm : m.Pairwise fun c d => c.1 < d.1) {c : Host.Cell} (hc : c ∈ m) :
    m.read c.1 = c.2 := by
  induction m with
  | nil => cases hc
  | cons d m ih =>
    obtain ⟨hd, hm⟩ := List.pairwise_cons.mp hm
    rcases List.mem_cons.mp hc with rfl | hc
    · simp
    · have := hd c hc
      have hne : ¬ c.1 = d.1 := by omega
      simp [hne, ih hm hc]

/-- Reset memory is canonical. -/
theorem Memory.wfBelow_nil (size : Nat) : Memory.wfBelow size [] := by simp [Memory.wfBelow]

end Sys2Proof.Machine
end

