-- ==== Sys2Proof/Laws/State.lean ====
section
/-! SUPPORT. One lemma per field per update of the state, so that no later proof unfolds a record update. -/

namespace Sys2Proof.Machine

variable (s : State)

/-! ### setV -/

@[simp] theorem State.setV_v (x : RegIdx) (b : Byte) : (s.setV x b).v = s.v.set x.toNat b x.isLt := rfl
@[simp] theorem State.setV_regI (x : RegIdx) (b : Byte) : (s.setV x b).regI = s.regI := rfl
@[simp] theorem State.setV_pc (x : RegIdx) (b : Byte) : (s.setV x b).pc = s.pc := rfl
@[simp] theorem State.setV_sp (x : RegIdx) (b : Byte) : (s.setV x b).sp = s.sp := rfl
@[simp] theorem State.setV_stack (x : RegIdx) (b : Byte) : (s.setV x b).stack = s.stack := rfl
@[simp] theorem State.setV_dt (x : RegIdx) (b : Byte) : (s.setV x b).dt = s.dt := rfl
@[simp] theorem State.setV_st (x : RegIdx) (b : Byte) : (s.setV x b).st = s.st := rfl
@[simp] theorem State.setV_keys (x : RegIdx) (b : Byte) : (s.setV x b).keys = s.keys := rfl
@[simp] theorem State.setV_fb (x : RegIdx) (b : Byte) : (s.setV x b).fb = s.fb := rfl
@[simp] theorem State.setV_mem (x : RegIdx) (b : Byte) : (s.setV x b).mem = s.mem := rfl
@[simp] theorem State.setV_fault (x : RegIdx) (b : Byte) : (s.setV x b).fault = s.fault := rfl
@[simp] theorem State.setV_faultPc (x : RegIdx) (b : Byte) : (s.setV x b).faultPc = s.faultPc := rfl
@[simp] theorem State.setV_faultInfo (x : RegIdx) (b : Byte) : (s.setV x b).faultInfo = s.faultInfo := rfl
@[simp] theorem State.setV_rndCount (x : RegIdx) (b : Byte) : (s.setV x b).rndCount = s.rndCount := rfl
@[simp] theorem State.setV_readByte (x : RegIdx) (b : Byte) (a : Nat) : (s.setV x b).readByte a = s.readByte a := rfl

/-! ### setI -/

@[simp] theorem State.setI_v (w : Word) : (s.setI w).v = s.v := rfl
@[simp] theorem State.setI_regI (w : Word) : (s.setI w).regI = w := rfl
@[simp] theorem State.setI_pc (w : Word) : (s.setI w).pc = s.pc := rfl
@[simp] theorem State.setI_sp (w : Word) : (s.setI w).sp = s.sp := rfl
@[simp] theorem State.setI_stack (w : Word) : (s.setI w).stack = s.stack := rfl
@[simp] theorem State.setI_dt (w : Word) : (s.setI w).dt = s.dt := rfl
@[simp] theorem State.setI_st (w : Word) : (s.setI w).st = s.st := rfl
@[simp] theorem State.setI_keys (w : Word) : (s.setI w).keys = s.keys := rfl
@[simp] theorem State.setI_fb (w : Word) : (s.setI w).fb = s.fb := rfl
@[simp] theorem State.setI_mem (w : Word) : (s.setI w).mem = s.mem := rfl
@[simp] theorem State.setI_fault (w : Word) : (s.setI w).fault = s.fault := rfl
@[simp] theorem State.setI_faultPc (w : Word) : (s.setI w).faultPc = s.faultPc := rfl
@[simp] theorem State.setI_faultInfo (w : Word) : (s.setI w).faultInfo = s.faultInfo := rfl
@[simp] theorem State.setI_rndCount (w : Word) : (s.setI w).rndCount = s.rndCount := rfl
@[simp] theorem State.setI_getV (w : Word) (y : RegIdx) : (s.setI w).getV y = s.getV y := rfl
@[simp] theorem State.setI_readByte (w : Word) (a : Nat) : (s.setI w).readByte a = s.readByte a := rfl

/-! ### setPc -/

@[simp] theorem State.setPc_v (w : Word) : (s.setPc w).v = s.v := rfl
@[simp] theorem State.setPc_regI (w : Word) : (s.setPc w).regI = s.regI := rfl
@[simp] theorem State.setPc_pc (w : Word) : (s.setPc w).pc = w := rfl
@[simp] theorem State.setPc_sp (w : Word) : (s.setPc w).sp = s.sp := rfl
@[simp] theorem State.setPc_stack (w : Word) : (s.setPc w).stack = s.stack := rfl
@[simp] theorem State.setPc_dt (w : Word) : (s.setPc w).dt = s.dt := rfl
@[simp] theorem State.setPc_st (w : Word) : (s.setPc w).st = s.st := rfl
@[simp] theorem State.setPc_keys (w : Word) : (s.setPc w).keys = s.keys := rfl
@[simp] theorem State.setPc_fb (w : Word) : (s.setPc w).fb = s.fb := rfl
@[simp] theorem State.setPc_mem (w : Word) : (s.setPc w).mem = s.mem := rfl
@[simp] theorem State.setPc_fault (w : Word) : (s.setPc w).fault = s.fault := rfl
@[simp] theorem State.setPc_faultPc (w : Word) : (s.setPc w).faultPc = s.faultPc := rfl
@[simp] theorem State.setPc_faultInfo (w : Word) : (s.setPc w).faultInfo = s.faultInfo := rfl
@[simp] theorem State.setPc_rndCount (w : Word) : (s.setPc w).rndCount = s.rndCount := rfl
@[simp] theorem State.setPc_getV (w : Word) (y : RegIdx) : (s.setPc w).getV y = s.getV y := rfl
@[simp] theorem State.setPc_readByte (w : Word) (a : Nat) : (s.setPc w).readByte a = s.readByte a := rfl

/-! ### setDt -/

@[simp] theorem State.setDt_v (b : Byte) : (s.setDt b).v = s.v := rfl
@[simp] theorem State.setDt_regI (b : Byte) : (s.setDt b).regI = s.regI := rfl
@[simp] theorem State.setDt_pc (b : Byte) : (s.setDt b).pc = s.pc := rfl
@[simp] theorem State.setDt_sp (b : Byte) : (s.setDt b).sp = s.sp := rfl
@[simp] theorem State.setDt_stack (b : Byte) : (s.setDt b).stack = s.stack := rfl
@[simp] theorem State.setDt_dt (b : Byte) : (s.setDt b).dt = b := rfl
@[simp] theorem State.setDt_st (b : Byte) : (s.setDt b).st = s.st := rfl
@[simp] theorem State.setDt_keys (b : Byte) : (s.setDt b).keys = s.keys := rfl
@[simp] theorem State.setDt_fb (b : Byte) : (s.setDt b).fb = s.fb := rfl
@[simp] theorem State.setDt_mem (b : Byte) : (s.setDt b).mem = s.mem := rfl
@[simp] theorem State.setDt_fault (b : Byte) : (s.setDt b).fault = s.fault := rfl
@[simp] theorem State.setDt_faultPc (b : Byte) : (s.setDt b).faultPc = s.faultPc := rfl
@[simp] theorem State.setDt_faultInfo (b : Byte) : (s.setDt b).faultInfo = s.faultInfo := rfl
@[simp] theorem State.setDt_rndCount (b : Byte) : (s.setDt b).rndCount = s.rndCount := rfl
@[simp] theorem State.setDt_getV (b : Byte) (y : RegIdx) : (s.setDt b).getV y = s.getV y := rfl
@[simp] theorem State.setDt_readByte (b : Byte) (a : Nat) : (s.setDt b).readByte a = s.readByte a := rfl

/-! ### setSt -/

@[simp] theorem State.setSt_v (b : Byte) : (s.setSt b).v = s.v := rfl
@[simp] theorem State.setSt_regI (b : Byte) : (s.setSt b).regI = s.regI := rfl
@[simp] theorem State.setSt_pc (b : Byte) : (s.setSt b).pc = s.pc := rfl
@[simp] theorem State.setSt_sp (b : Byte) : (s.setSt b).sp = s.sp := rfl
@[simp] theorem State.setSt_stack (b : Byte) : (s.setSt b).stack = s.stack := rfl
@[simp] theorem State.setSt_dt (b : Byte) : (s.setSt b).dt = s.dt := rfl
@[simp] theorem State.setSt_st (b : Byte) : (s.setSt b).st = b := rfl
@[simp] theorem State.setSt_keys (b : Byte) : (s.setSt b).keys = s.keys := rfl
@[simp] theorem State.setSt_fb (b : Byte) : (s.setSt b).fb = s.fb := rfl
@[simp] theorem State.setSt_mem (b : Byte) : (s.setSt b).mem = s.mem := rfl
@[simp] theorem State.setSt_fault (b : Byte) : (s.setSt b).fault = s.fault := rfl
@[simp] theorem State.setSt_faultPc (b : Byte) : (s.setSt b).faultPc = s.faultPc := rfl
@[simp] theorem State.setSt_faultInfo (b : Byte) : (s.setSt b).faultInfo = s.faultInfo := rfl
@[simp] theorem State.setSt_rndCount (b : Byte) : (s.setSt b).rndCount = s.rndCount := rfl
@[simp] theorem State.setSt_getV (b : Byte) (y : RegIdx) : (s.setSt b).getV y = s.getV y := rfl
@[simp] theorem State.setSt_readByte (b : Byte) (a : Nat) : (s.setSt b).readByte a = s.readByte a := rfl

/-! ### setFb -/

@[simp] theorem State.setFb_v (f : Framebuffer) : (s.setFb f).v = s.v := rfl
@[simp] theorem State.setFb_regI (f : Framebuffer) : (s.setFb f).regI = s.regI := rfl
@[simp] theorem State.setFb_pc (f : Framebuffer) : (s.setFb f).pc = s.pc := rfl
@[simp] theorem State.setFb_sp (f : Framebuffer) : (s.setFb f).sp = s.sp := rfl
@[simp] theorem State.setFb_stack (f : Framebuffer) : (s.setFb f).stack = s.stack := rfl
@[simp] theorem State.setFb_dt (f : Framebuffer) : (s.setFb f).dt = s.dt := rfl
@[simp] theorem State.setFb_st (f : Framebuffer) : (s.setFb f).st = s.st := rfl
@[simp] theorem State.setFb_keys (f : Framebuffer) : (s.setFb f).keys = s.keys := rfl
@[simp] theorem State.setFb_fb (f : Framebuffer) : (s.setFb f).fb = f := rfl
@[simp] theorem State.setFb_mem (f : Framebuffer) : (s.setFb f).mem = s.mem := rfl
@[simp] theorem State.setFb_fault (f : Framebuffer) : (s.setFb f).fault = s.fault := rfl
@[simp] theorem State.setFb_faultPc (f : Framebuffer) : (s.setFb f).faultPc = s.faultPc := rfl
@[simp] theorem State.setFb_faultInfo (f : Framebuffer) : (s.setFb f).faultInfo = s.faultInfo := rfl
@[simp] theorem State.setFb_rndCount (f : Framebuffer) : (s.setFb f).rndCount = s.rndCount := rfl
@[simp] theorem State.setFb_getV (f : Framebuffer) (y : RegIdx) : (s.setFb f).getV y = s.getV y := rfl
@[simp] theorem State.setFb_readByte (f : Framebuffer) (a : Nat) : (s.setFb f).readByte a = s.readByte a := rfl

/-! ### setKeys -/

@[simp] theorem State.setKeys_v (k : Vector Bool 16) : (s.setKeys k).v = s.v := rfl
@[simp] theorem State.setKeys_regI (k : Vector Bool 16) : (s.setKeys k).regI = s.regI := rfl
@[simp] theorem State.setKeys_pc (k : Vector Bool 16) : (s.setKeys k).pc = s.pc := rfl
@[simp] theorem State.setKeys_sp (k : Vector Bool 16) : (s.setKeys k).sp = s.sp := rfl
@[simp] theorem State.setKeys_stack (k : Vector Bool 16) : (s.setKeys k).stack = s.stack := rfl
@[simp] theorem State.setKeys_dt (k : Vector Bool 16) : (s.setKeys k).dt = s.dt := rfl
@[simp] theorem State.setKeys_st (k : Vector Bool 16) : (s.setKeys k).st = s.st := rfl
@[simp] theorem State.setKeys_keys (k : Vector Bool 16) : (s.setKeys k).keys = k := rfl
@[simp] theorem State.setKeys_fb (k : Vector Bool 16) : (s.setKeys k).fb = s.fb := rfl
@[simp] theorem State.setKeys_mem (k : Vector Bool 16) : (s.setKeys k).mem = s.mem := rfl
@[simp] theorem State.setKeys_fault (k : Vector Bool 16) : (s.setKeys k).fault = s.fault := rfl
@[simp] theorem State.setKeys_faultPc (k : Vector Bool 16) : (s.setKeys k).faultPc = s.faultPc := rfl
@[simp] theorem State.setKeys_faultInfo (k : Vector Bool 16) : (s.setKeys k).faultInfo = s.faultInfo := rfl
@[simp] theorem State.setKeys_rndCount (k : Vector Bool 16) : (s.setKeys k).rndCount = s.rndCount := rfl
@[simp] theorem State.setKeys_getV (k : Vector Bool 16) (y : RegIdx) : (s.setKeys k).getV y = s.getV y := rfl
@[simp] theorem State.setKeys_readByte (k : Vector Bool 16) (a : Nat) : (s.setKeys k).readByte a = s.readByte a := rfl

/-! ### takeFault -/

@[simp] theorem State.takeFault_v (w : Word) (c : Cause) (i : Word) : (s.takeFault w c i).v = s.v := rfl
@[simp] theorem State.takeFault_regI (w : Word) (c : Cause) (i : Word) : (s.takeFault w c i).regI = s.regI := rfl
@[simp] theorem State.takeFault_pc (w : Word) (c : Cause) (i : Word) : (s.takeFault w c i).pc = w := rfl
@[simp] theorem State.takeFault_sp (w : Word) (c : Cause) (i : Word) : (s.takeFault w c i).sp = s.sp := rfl
@[simp] theorem State.takeFault_stack (w : Word) (c : Cause) (i : Word) : (s.takeFault w c i).stack = s.stack := rfl
@[simp] theorem State.takeFault_dt (w : Word) (c : Cause) (i : Word) : (s.takeFault w c i).dt = s.dt := rfl
@[simp] theorem State.takeFault_st (w : Word) (c : Cause) (i : Word) : (s.takeFault w c i).st = s.st := rfl
@[simp] theorem State.takeFault_keys (w : Word) (c : Cause) (i : Word) : (s.takeFault w c i).keys = s.keys := rfl
@[simp] theorem State.takeFault_fb (w : Word) (c : Cause) (i : Word) : (s.takeFault w c i).fb = s.fb := rfl
@[simp] theorem State.takeFault_mem (w : Word) (c : Cause) (i : Word) : (s.takeFault w c i).mem = s.mem := rfl
@[simp] theorem State.takeFault_fault (w : Word) (c : Cause) (i : Word) : (s.takeFault w c i).fault = c := rfl
@[simp] theorem State.takeFault_faultPc (w : Word) (c : Cause) (i : Word) : (s.takeFault w c i).faultPc = w := rfl
@[simp] theorem State.takeFault_faultInfo (w : Word) (c : Cause) (i : Word) : (s.takeFault w c i).faultInfo = i := rfl
@[simp] theorem State.takeFault_rndCount (w : Word) (c : Cause) (i : Word) : (s.takeFault w c i).rndCount = s.rndCount := rfl
@[simp] theorem State.takeFault_getV (w : Word) (c : Cause) (i : Word) (y : RegIdx) : (s.takeFault w c i).getV y = s.getV y := rfl
@[simp] theorem State.takeFault_readByte (w : Word) (c : Cause) (i : Word) (a : Nat) : (s.takeFault w c i).readByte a = s.readByte a := rfl

/-! ### advance -/

@[simp] theorem State.advance_v : s.advance.v = s.v := rfl
@[simp] theorem State.advance_regI : s.advance.regI = s.regI := rfl
@[simp] theorem State.advance_pc : s.advance.pc = s.pc + instrWidth := rfl
@[simp] theorem State.advance_sp : s.advance.sp = s.sp := rfl
@[simp] theorem State.advance_stack : s.advance.stack = s.stack := rfl
@[simp] theorem State.advance_dt : s.advance.dt = s.dt := rfl
@[simp] theorem State.advance_st : s.advance.st = s.st := rfl
@[simp] theorem State.advance_keys : s.advance.keys = s.keys := rfl
@[simp] theorem State.advance_fb : s.advance.fb = s.fb := rfl
@[simp] theorem State.advance_mem : s.advance.mem = s.mem := rfl
@[simp] theorem State.advance_fault : s.advance.fault = s.fault := rfl
@[simp] theorem State.advance_faultPc : s.advance.faultPc = s.faultPc := rfl
@[simp] theorem State.advance_faultInfo : s.advance.faultInfo = s.faultInfo := rfl
@[simp] theorem State.advance_rndCount : s.advance.rndCount = s.rndCount := rfl
@[simp] theorem State.advance_getV (y : RegIdx) : s.advance.getV y = s.getV y := rfl
@[simp] theorem State.advance_readByte (a : Nat) : s.advance.readByte a = s.readByte a := rfl

/-! ### retarget -/

@[simp] theorem State.retarget_v : s.retarget.v = s.v := rfl
@[simp] theorem State.retarget_regI : s.retarget.regI = s.regI := rfl
@[simp] theorem State.retarget_pc : s.retarget.pc = s.pc - instrWidth := rfl
@[simp] theorem State.retarget_sp : s.retarget.sp = s.sp := rfl
@[simp] theorem State.retarget_stack : s.retarget.stack = s.stack := rfl
@[simp] theorem State.retarget_dt : s.retarget.dt = s.dt := rfl
@[simp] theorem State.retarget_st : s.retarget.st = s.st := rfl
@[simp] theorem State.retarget_keys : s.retarget.keys = s.keys := rfl
@[simp] theorem State.retarget_fb : s.retarget.fb = s.fb := rfl
@[simp] theorem State.retarget_mem : s.retarget.mem = s.mem := rfl
@[simp] theorem State.retarget_fault : s.retarget.fault = s.fault := rfl
@[simp] theorem State.retarget_faultPc : s.retarget.faultPc = s.faultPc := rfl
@[simp] theorem State.retarget_faultInfo : s.retarget.faultInfo = s.faultInfo := rfl
@[simp] theorem State.retarget_rndCount : s.retarget.rndCount = s.rndCount := rfl
@[simp] theorem State.retarget_getV (y : RegIdx) : s.retarget.getV y = s.getV y := rfl
@[simp] theorem State.retarget_readByte (a : Nat) : s.retarget.readByte a = s.readByte a := rfl

/-! ### tick -/

@[simp] theorem State.tick_v : s.tick.v = s.v := rfl
@[simp] theorem State.tick_regI : s.tick.regI = s.regI := rfl
@[simp] theorem State.tick_pc : s.tick.pc = s.pc := rfl
@[simp] theorem State.tick_sp : s.tick.sp = s.sp := rfl
@[simp] theorem State.tick_stack : s.tick.stack = s.stack := rfl
@[simp] theorem State.tick_dt : s.tick.dt = tickTimer s.dt := rfl
@[simp] theorem State.tick_st : s.tick.st = tickTimer s.st := rfl
@[simp] theorem State.tick_keys : s.tick.keys = s.keys := rfl
@[simp] theorem State.tick_fb : s.tick.fb = s.fb := rfl
@[simp] theorem State.tick_mem : s.tick.mem = s.mem := rfl
@[simp] theorem State.tick_fault : s.tick.fault = s.fault := rfl
@[simp] theorem State.tick_faultPc : s.tick.faultPc = s.faultPc := rfl
@[simp] theorem State.tick_faultInfo : s.tick.faultInfo = s.faultInfo := rfl
@[simp] theorem State.tick_rndCount : s.tick.rndCount = s.rndCount := rfl
@[simp] theorem State.tick_getV (y : RegIdx) : s.tick.getV y = s.getV y := rfl
@[simp] theorem State.tick_readByte (a : Nat) : s.tick.readByte a = s.readByte a := rfl

/-! ### setFlagged -/

@[simp] theorem State.setFlagged_regI (x : RegIdx) (r : Byte × Bool) : (s.setFlagged x r).regI = s.regI := rfl
@[simp] theorem State.setFlagged_pc (x : RegIdx) (r : Byte × Bool) : (s.setFlagged x r).pc = s.pc := rfl
@[simp] theorem State.setFlagged_sp (x : RegIdx) (r : Byte × Bool) : (s.setFlagged x r).sp = s.sp := rfl
@[simp] theorem State.setFlagged_stack (x : RegIdx) (r : Byte × Bool) : (s.setFlagged x r).stack = s.stack := rfl
@[simp] theorem State.setFlagged_dt (x : RegIdx) (r : Byte × Bool) : (s.setFlagged x r).dt = s.dt := rfl
@[simp] theorem State.setFlagged_st (x : RegIdx) (r : Byte × Bool) : (s.setFlagged x r).st = s.st := rfl
@[simp] theorem State.setFlagged_keys (x : RegIdx) (r : Byte × Bool) : (s.setFlagged x r).keys = s.keys := rfl
@[simp] theorem State.setFlagged_fb (x : RegIdx) (r : Byte × Bool) : (s.setFlagged x r).fb = s.fb := rfl
@[simp] theorem State.setFlagged_mem (x : RegIdx) (r : Byte × Bool) : (s.setFlagged x r).mem = s.mem := rfl
@[simp] theorem State.setFlagged_fault (x : RegIdx) (r : Byte × Bool) : (s.setFlagged x r).fault = s.fault := rfl
@[simp] theorem State.setFlagged_faultPc (x : RegIdx) (r : Byte × Bool) : (s.setFlagged x r).faultPc = s.faultPc := rfl
@[simp] theorem State.setFlagged_faultInfo (x : RegIdx) (r : Byte × Bool) : (s.setFlagged x r).faultInfo = s.faultInfo := rfl
@[simp] theorem State.setFlagged_rndCount (x : RegIdx) (r : Byte × Bool) : (s.setFlagged x r).rndCount = s.rndCount := rfl
@[simp] theorem State.setFlagged_readByte (x : RegIdx) (r : Byte × Bool) (a : Nat) : (s.setFlagged x r).readByte a = s.readByte a := rfl

/-! ### loadRegs -/

@[simp] theorem State.loadRegs_regI (bs : List Byte) : (s.loadRegs bs).regI = s.regI := rfl
@[simp] theorem State.loadRegs_pc (bs : List Byte) : (s.loadRegs bs).pc = s.pc := rfl
@[simp] theorem State.loadRegs_sp (bs : List Byte) : (s.loadRegs bs).sp = s.sp := rfl
@[simp] theorem State.loadRegs_stack (bs : List Byte) : (s.loadRegs bs).stack = s.stack := rfl
@[simp] theorem State.loadRegs_dt (bs : List Byte) : (s.loadRegs bs).dt = s.dt := rfl
@[simp] theorem State.loadRegs_st (bs : List Byte) : (s.loadRegs bs).st = s.st := rfl
@[simp] theorem State.loadRegs_keys (bs : List Byte) : (s.loadRegs bs).keys = s.keys := rfl
@[simp] theorem State.loadRegs_fb (bs : List Byte) : (s.loadRegs bs).fb = s.fb := rfl
@[simp] theorem State.loadRegs_mem (bs : List Byte) : (s.loadRegs bs).mem = s.mem := rfl
@[simp] theorem State.loadRegs_fault (bs : List Byte) : (s.loadRegs bs).fault = s.fault := rfl
@[simp] theorem State.loadRegs_faultPc (bs : List Byte) : (s.loadRegs bs).faultPc = s.faultPc := rfl
@[simp] theorem State.loadRegs_faultInfo (bs : List Byte) : (s.loadRegs bs).faultInfo = s.faultInfo := rfl
@[simp] theorem State.loadRegs_rndCount (bs : List Byte) : (s.loadRegs bs).rndCount = s.rndCount := rfl
@[simp] theorem State.loadRegs_readByte (bs : List Byte) (a : Nat) : (s.loadRegs bs).readByte a = s.readByte a := rfl

/-! ### drawRnd -/

@[simp] theorem State.drawRnd_fst : s.drawRnd.1 = Config.rndIn s.rndCount := rfl
@[simp] theorem State.drawRnd_v : s.drawRnd.2.v = s.v := rfl
@[simp] theorem State.drawRnd_regI : s.drawRnd.2.regI = s.regI := rfl
@[simp] theorem State.drawRnd_pc : s.drawRnd.2.pc = s.pc := rfl
@[simp] theorem State.drawRnd_sp : s.drawRnd.2.sp = s.sp := rfl
@[simp] theorem State.drawRnd_stack : s.drawRnd.2.stack = s.stack := rfl
@[simp] theorem State.drawRnd_dt : s.drawRnd.2.dt = s.dt := rfl
@[simp] theorem State.drawRnd_st : s.drawRnd.2.st = s.st := rfl
@[simp] theorem State.drawRnd_keys : s.drawRnd.2.keys = s.keys := rfl
@[simp] theorem State.drawRnd_fb : s.drawRnd.2.fb = s.fb := rfl
@[simp] theorem State.drawRnd_mem : s.drawRnd.2.mem = s.mem := rfl
@[simp] theorem State.drawRnd_fault : s.drawRnd.2.fault = s.fault := rfl
@[simp] theorem State.drawRnd_faultPc : s.drawRnd.2.faultPc = s.faultPc := rfl
@[simp] theorem State.drawRnd_faultInfo : s.drawRnd.2.faultInfo = s.faultInfo := rfl
@[simp] theorem State.drawRnd_rndCount : s.drawRnd.2.rndCount = s.rndCount + 1 := rfl
@[simp] theorem State.drawRnd_getV (y : RegIdx) : s.drawRnd.2.getV y = s.getV y := rfl
@[simp] theorem State.drawRnd_readByte (a : Nat) : s.drawRnd.2.readByte a = s.readByte a := rfl

/-! ### skipIf -/

@[simp] theorem State.skipIf_v (c : Bool) : (s.skipIf c).v = s.v := by cases c <;> rfl
@[simp] theorem State.skipIf_regI (c : Bool) : (s.skipIf c).regI = s.regI := by cases c <;> rfl
@[simp] theorem State.skipIf_pc (c : Bool) : (s.skipIf c).pc = if c then s.pc + instrWidth else s.pc := by cases c <;> rfl
@[simp] theorem State.skipIf_sp (c : Bool) : (s.skipIf c).sp = s.sp := by cases c <;> rfl
@[simp] theorem State.skipIf_stack (c : Bool) : (s.skipIf c).stack = s.stack := by cases c <;> rfl
@[simp] theorem State.skipIf_dt (c : Bool) : (s.skipIf c).dt = s.dt := by cases c <;> rfl
@[simp] theorem State.skipIf_st (c : Bool) : (s.skipIf c).st = s.st := by cases c <;> rfl
@[simp] theorem State.skipIf_keys (c : Bool) : (s.skipIf c).keys = s.keys := by cases c <;> rfl
@[simp] theorem State.skipIf_fb (c : Bool) : (s.skipIf c).fb = s.fb := by cases c <;> rfl
@[simp] theorem State.skipIf_mem (c : Bool) : (s.skipIf c).mem = s.mem := by cases c <;> rfl
@[simp] theorem State.skipIf_fault (c : Bool) : (s.skipIf c).fault = s.fault := by cases c <;> rfl
@[simp] theorem State.skipIf_faultPc (c : Bool) : (s.skipIf c).faultPc = s.faultPc := by cases c <;> rfl
@[simp] theorem State.skipIf_faultInfo (c : Bool) : (s.skipIf c).faultInfo = s.faultInfo := by cases c <;> rfl
@[simp] theorem State.skipIf_rndCount (c : Bool) : (s.skipIf c).rndCount = s.rndCount := by cases c <;> rfl
@[simp] theorem State.skipIf_getV (c : Bool) (y : RegIdx) : (s.skipIf c).getV y = s.getV y := by cases c <;> rfl
@[simp] theorem State.skipIf_readByte (c : Bool) (a : Nat) : (s.skipIf c).readByte a = s.readByte a := by cases c <;> rfl

/-! ### Registers -/

/-- A register read after a write: the value written in its own register, the old value elsewhere (R10). -/
@[simp] theorem State.getV_setV (x y : RegIdx) (b : Byte) : (s.setV x b).getV y = if y = x then b else s.getV y := by
  simp only [State.getV, State.setV, Vector.get_eq_getElem, Vector.getElem_set]
  by_cases h : y = x
  · subst h; simp
  · have : x.toNat ≠ y.toNat := fun e => h (BitVec.eq_of_toNat_eq e.symm)
    simp [h, this]

/-- The registers after a flagged write: VF holds the flag, whatever `x` is; `V[x]` the result when `x` is not 15 (R113). -/
@[simp] theorem State.getV_setFlagged (x y : RegIdx) (r : Byte × Bool) :
    (s.setFlagged x r).getV y = if y = vf then flagByte r.2 else if y = x then r.1 else s.getV y := by
  simp [State.setFlagged]

/-- The registers after a bulk load (R132). -/
@[simp] theorem State.getV_loadRegs (bs : List Byte) (y : RegIdx) :
    (s.loadRegs bs).getV y = (bs[y.toNat]?).getD (s.getV y) := by
  simp [State.getV, State.loadRegs, Vector.get_eq_getElem]

/-- Two states agree when all their fields do. -/
theorem State.ext_fields {s t : State} (hv : ∀ r, t.getV r = s.getV r) (hI : t.regI = s.regI) (hpc : t.pc = s.pc)
    (hsp : t.sp = s.sp) (hst : t.stack = s.stack) (hdt : t.dt = s.dt) (hsd : t.st = s.st) (hk : t.keys = s.keys)
    (hfb : t.fb = s.fb) (hm : t.mem = s.mem) (hf : t.fault = s.fault) (hfp : t.faultPc = s.faultPc)
    (hfi : t.faultInfo = s.faultInfo) (hr : t.rndCount = s.rndCount) : t = s := by
  have hv' : t.v = s.v := by
    refine Vector.ext fun k hk => ?_
    have := hv (BitVec.ofNat 4 k)
    have hk' : k % 16 = k := Nat.mod_eq_of_lt hk
    simpa [State.getV, Vector.get_eq_getElem, hk'] using this
  cases s; cases t; simp_all

end Sys2Proof.Machine
end

