-- ==== Sys2Proof/Laws/Ops.lean ====
section
/-! SUPPORT. What each shared operation over memory, the stack and the fault latch can do, said once. -/

namespace Sys2Proof.Machine

theorem inRange_iff (cfg : Config) (a k : Nat) : inRange cfg a k = true ↔ k = 0 ∨ a + k ≤ cfg.memSize := by simp [inRange]

/-- A range read answers exactly when the range is inside memory, with its bytes (R45, R53). -/
theorem State.readRange_eq_some {cfg : Config} {s : State} {a k : Nat} {bs : List Byte} :
    s.readRange cfg a k = some bs ↔ (k = 0 ∨ a + k ≤ cfg.memSize) ∧ bs = s.mem.readBytes a k := by
  simp only [State.readRange, inRange_iff]
  split <;> simp_all [eq_comm]

theorem State.readRange_eq_none {cfg : Config} {s : State} {a k : Nat} :
    s.readRange cfg a k = none ↔ 0 < k ∧ cfg.memSize < a + k := by
  simp only [State.readRange, inRange_iff]
  split <;> simp <;> omega

/-- A range write answers exactly when the range is inside memory, and changes memory alone (R45, R53). -/
theorem State.writeRange_eq_some {cfg : Config} {s t : State} {a : Nat} {bs : List Byte} :
    s.writeRange cfg a bs = some t ↔
      (bs.length = 0 ∨ a + bs.length ≤ cfg.memSize) ∧ t = { s with mem := s.mem.writeBytes a bs } := by
  simp only [State.writeRange, inRange_iff]
  split <;> simp_all [eq_comm]

theorem State.writeRange_eq_none {cfg : Config} {s : State} {a : Nat} {bs : List Byte} :
    s.writeRange cfg a bs = none ↔ 0 < bs.length ∧ cfg.memSize < a + bs.length := by
  simp only [State.writeRange, inRange_iff]
  split <;> simp <;> omega

/-- A push answers exactly below the capacity: the value on top, one entry more, nothing else changed (R91). -/
theorem State.push_eq_some {cfg : Config} {s t : State} {w : Word} :
    s.push cfg w = some t ↔
      s.sp < cfg.stackDepth ∧ t = { s with stack := s.stack.set s.sp w, sp := s.sp + 1 } := by
  unfold State.push
  split <;> simp_all [eq_comm]

theorem State.push_eq_none {cfg : Config} {s : State} {w : Word} : s.push cfg w = none ↔ cfg.stackDepth ≤ s.sp := by
  unfold State.push
  split <;> simp <;> omega

/-- A pop answers exactly when an entry is valid: the top value, one entry less, nothing else changed (R92). -/
theorem State.pop_eq_some {s t : State} {w : Word} :
    s.pop = some (w, t) ↔ 0 < s.sp ∧ w = s.entry (s.sp - 1) ∧ t = { s with sp := s.sp - 1 } := by
  unfold State.pop
  split <;> simp_all [eq_comm]

theorem State.pop_eq_none {s : State} : s.pop = none ↔ s.sp = 0 := by
  unfold State.pop
  split <;> simp <;> omega

/-- The call stack after an entry inside its storage is written (R15). -/
theorem State.entry_set {s : State} {k : Nat} (hk : k < s.stack.length) (w : Word) (n j : Nat) :
    ({ s with stack := s.stack.set k w, sp := n } : State).entry j = if j = k then w else s.entry j := by
  simp only [State.entry, List.getElem?_set]
  by_cases h : j = k
  · subst h; simp [hk]
  · have : ¬ k = j := fun e => h e.symm
    simp [h, this]

/-- A tick takes 1 off, down to 0 (R84). -/
theorem toNat_tickTimer (b : Byte) : (tickTimer b).toNat = b.toNat - 1 := by
  unfold tickTimer
  split
  · rename_i h; subst h; rfl
  · rename_i h
    have : b.toNat ≠ 0 := fun e => h (BitVec.eq_of_toNat_eq e)
    rw [BitVec.toNat_sub]
    have := b.isLt
    simp; omega

/-- Inside an instruction `pc` is `pc0 + 2`, so taking 2 off restores it (R82, R183). -/
@[simp] theorem advance_pc_sub (w : Word) : w + instrWidth - instrWidth = w := by simp

@[simp] theorem halted_iff (s : State) : s.halted = true ↔ s.fault ≠ .none := by simp [State.halted]

@[simp] theorem halted_eq_false_iff (s : State) : s.halted = false ↔ s.fault = .none := by
  simp [State.halted]

/-- The lowest out-of-range address fits its 16 bits, at the size taken (R181, conflict C15). -/
theorem toNat_rangeInfo (i : Word) : (rangeInfo Config.taken i).toNat = max i.toNat 4096 := by
  have := i.isLt
  simp [rangeInfo]; omega

end Sys2Proof.Machine
end

