-- ==== Sys2Proof/Laws/Draw.lean ====
section
/-! SUPPORT. What the drawing loops of 46_draw_clear.md R150 do, cell by cell, under either edge policy and for every size; and that drawing and clearing keep the size. -/

namespace Sys2Proof.Machine

/-! ### Size -/

/-- Toggling keeps the size. -/
theorem Framebuffer.Sized.toggle {cfg : Config} {f : Framebuffer} (h : f.Sized cfg) (r c : Nat) : (f.toggle r c).Sized cfg := by
  refine ⟨by simpa [Framebuffer.toggle] using h.1, fun row hr => ?_⟩
  obtain ⟨k, hk, rfl⟩ := List.mem_iff_getElem.mp hr
  have hk' : k < f.length := by simpa [Framebuffer.toggle] using hk
  have := h.2 _ (List.getElem_mem hk')
  simp only [Framebuffer.toggle, List.getElem_modify]
  split <;> simpa using this

/-- The cleared framebuffer has the size of its configuration. -/
theorem Framebuffer.sized_clearFb (cfg : Config) : Framebuffer.Sized cfg (clearFb cfg) := by
  refine ⟨by simp [clearFb], fun row hr => ?_⟩
  rw [List.eq_of_mem_replicate hr]
  simp

/-! ### Cells -/

/-- Toggling a cell inside the framebuffer flips it and no other. -/
theorem cell_toggle {cfg : Config} {f : Framebuffer} (h : f.Sized cfg) {r c : Nat} (hr : r < cfg.fbHeight) (hc : c < cfg.fbWidth)
    (r' c' : Nat) :
    Framebuffer.cell (f.toggle r c) r' c' = if r' = r ∧ c' = c then !Framebuffer.cell f r c else Framebuffer.cell f r' c' := by
  have hr' : r < f.length := h.1 ▸ hr
  have hrow : c < f[r].length := (h.2 _ (List.getElem_mem hr')).symm ▸ hc
  by_cases e : r' = r
  · subst e
    by_cases e' : c' = c
    · subst e'
      simp [Framebuffer.cell, Framebuffer.toggle, hr', hrow]
    · have : c ≠ c' := fun x => e' x.symm
      simp [Framebuffer.cell, Framebuffer.toggle, hr', e', this]
  · have : r ≠ r' := fun x => e x.symm
    simp [Framebuffer.cell, Framebuffer.toggle, e, this]

/-- Every cell of the cleared framebuffer is 0 (R151). -/
@[simp] theorem cell_clearFb (cfg : Config) (r c : Nat) : Framebuffer.cell (clearFb cfg) r c = false := by
  simp only [Framebuffer.cell, clearFb, List.getElem?_replicate]
  split
  · simp only [Option.getD_some, List.getElem?_replicate]
    split <;> rfl
  · rfl

/-- Beyond the framebuffer every cell reads as 0. -/
theorem Framebuffer.Sized.cell_outside {cfg : Config} {f : Framebuffer} (h : f.Sized cfg) {r c : Nat}
    (hrc : ¬ (r < cfg.fbHeight ∧ c < cfg.fbWidth)) : Framebuffer.cell f r c = false := by
  unfold Framebuffer.cell
  by_cases hr : r < f.length
  · have hrow := h.2 _ (List.getElem_mem hr)
    have : ¬ c < f[r].length := fun hc => hrc ⟨h.1 ▸ hr, hrow ▸ hc⟩
    simp [hr, this]
  · simp [hr]

/-- Two framebuffers of one size with the same cells are the same. -/
theorem Framebuffer.ext_cells {cfg : Config} {f g : Framebuffer} (hf : f.Sized cfg) (hg : g.Sized cfg)
    (h : ∀ r c, Framebuffer.cell f r c = Framebuffer.cell g r c) : f = g := by
  refine List.ext_getElem (hf.1.trans hg.1.symm) fun r h1 h2 => ?_
  have e1 := hf.2 _ (List.getElem_mem h1)
  have e2 := hg.2 _ (List.getElem_mem h2)
  refine List.ext_getElem (e1.trans e2.symm) fun c h3 h4 => ?_
  simpa [Framebuffer.cell, h1, h2, h3, h4] using h r c

/-! ### Where a pixel falls (R153) -/

/-- A sprite pixel at row `r`, column `c` falls on cell `q` of the framebuffer. -/
def PixelOn (cfg : Config) (r c : Nat) (q : Nat × Nat) : Prop :=
  placePixel cfg r c = some q ∧ q.1 < cfg.fbHeight ∧ q.2 < cfg.fbWidth

/-- Under `clip`: on the cell of its own coordinates, when that is inside the framebuffer (R153). -/
theorem pixelOn_clip {cfg : Config} (h : cfg.edgePolicy = .clip) {r c : Nat} {q : Nat × Nat} :
    PixelOn cfg r c q ↔ q = (r, c) ∧ r < cfg.fbHeight ∧ c < cfg.fbWidth := by
  obtain ⟨q1, q2⟩ := q
  simp only [PixelOn, placePixel, h, Prod.mk.injEq]
  split
  · simp only [Option.some.injEq, Prod.mk.injEq]
    constructor
    · rintro ⟨⟨rfl, rfl⟩, h1, h2⟩; exact ⟨⟨rfl, rfl⟩, h1, h2⟩
    · rintro ⟨⟨rfl, rfl⟩, h1, h2⟩; exact ⟨⟨rfl, rfl⟩, h1, h2⟩
  · rename_i hn
    simp only [reduceCtorEq, false_and, false_iff]
    rintro ⟨-, h1, h2⟩
    exact hn ⟨h2, h1⟩

/-- Under `wrap`: on the coordinates modulo the size (R153). -/
theorem pixelOn_wrap {cfg : Config} (h : cfg.edgePolicy = .wrap) {r c : Nat} {q : Nat × Nat} :
    PixelOn cfg r c q ↔ q = (r % cfg.fbHeight, c % cfg.fbWidth) ∧ q.1 < cfg.fbHeight ∧ q.2 < cfg.fbWidth := by
  simp [PixelOn, placePixel, h, eq_comm]

/-- The framebuffer has room for `n` rows without a sprite falling on itself: always under `clip`. -/
def Roomy (cfg : Config) (n : Nat) : Prop := cfg.edgePolicy = .wrap → 8 ≤ cfg.fbWidth ∧ n ≤ cfg.fbHeight

/-- Numbers closer to each other than `m` differ modulo `m`. -/
theorem eq_of_mod_eq_of_near {a b m : Nat} (h : a % m = b % m) (h1 : a < b + m) (h2 : b < a + m) : a = b := by
  have key : ∀ {a b : Nat}, a ≤ b → a % m = b % m → b < a + m → a = b := by
    intro a b hab h h2
    have hd : m ∣ b - a := (Nat.modEq_iff_dvd' hab).mp h
    have := Nat.eq_zero_of_dvd_of_lt hd (by omega)
    omega
  rcases Nat.le_total a b with hab | hab
  · exact key hab h h2
  · exact (key hab h.symm h1).symm

/-- Distinct pixels of one sprite fall on distinct cells, when there is room. -/
theorem PixelOn.inj {cfg : Config} {n : Nat} (room : Roomy cfg n) {r r' c c' : Nat} {q : Nat × Nat}
    (h : PixelOn cfg r c q) (h' : PixelOn cfg r' c' q) (hr : r < r' + n ∧ r' < r + n) (hc : c < c' + 8 ∧ c' < c + 8) :
    r = r' ∧ c = c' := by
  rcases hp : cfg.edgePolicy with _ | _
  · have h1 := ((pixelOn_clip hp).mp h).1
    have h2 := ((pixelOn_clip hp).mp h').1
    simpa using h1.symm.trans h2
  · obtain ⟨hw, hh⟩ := room hp
    have h1 := ((pixelOn_wrap hp).mp h).1
    have h2 := ((pixelOn_wrap hp).mp h').1
    obtain ⟨er, ec⟩ := Prod.mk.inj (h1.symm.trans h2)
    exact ⟨eq_of_mod_eq_of_near er (by omega) (by omega), eq_of_mod_eq_of_near ec (by omega) (by omega)⟩

/-! ### What drawing does -/

/-- What drawing does to a framebuffer and a flag: the size stays, the cells hit flip, the others stay, and the flag is
set when a cell hit was 1 (R150). -/
structure Draws (cfg : Config) (hit : Nat × Nat → Prop) (acc out : Framebuffer × Bool) : Prop where
  sized : out.1.Sized cfg
  flips : ∀ q, hit q → Framebuffer.cell out.1 q.1 q.2 = !Framebuffer.cell acc.1 q.1 q.2
  keeps : ∀ q, ¬ hit q → Framebuffer.cell out.1 q.1 q.2 = Framebuffer.cell acc.1 q.1 q.2
  flag : out.2 = true ↔ acc.2 = true ∨ ∃ q, hit q ∧ Framebuffer.cell acc.1 q.1 q.2 = true

theorem Draws.congr {cfg : Config} {hit hit' : Nat × Nat → Prop} {acc out : Framebuffer × Bool}
    (h : Draws cfg hit acc out) (e : ∀ q, hit q ↔ hit' q) : Draws cfg hit' acc out :=
  ⟨h.sized, fun q hq => h.flips q ((e q).mpr hq), fun q hq => h.keeps q fun hh => hq ((e q).mp hh),
    h.flag.trans (or_congr Iff.rfl (exists_congr fun q => and_congr (e q) Iff.rfl))⟩

theorem Draws.refl {cfg : Config} {acc : Framebuffer × Bool} (h : acc.1.Sized cfg) : Draws cfg (fun _ => False) acc acc :=
  ⟨h, fun _ h => h.elim, fun _ _ => rfl, by simp⟩

/-- Drawing twice on disjoint sets of cells. -/
theorem Draws.trans {cfg : Config} {h₁ h₂ : Nat × Nat → Prop} {a b c : Framebuffer × Bool}
    (d₁ : Draws cfg h₁ a b) (d₂ : Draws cfg h₂ b c) (disj : ∀ q, h₁ q → ¬ h₂ q) : Draws cfg (fun q => h₁ q ∨ h₂ q) a c := by
  refine ⟨d₂.sized, fun q hq => ?_, fun q hq => ?_, ?_⟩
  · rcases hq with hq | hq
    · rw [d₂.keeps q (disj q hq), d₁.flips q hq]
    · rw [d₂.flips q hq, d₁.keeps q fun hh => disj q hh hq]
  · rw [d₂.keeps q fun hh => hq (.inr hh), d₁.keeps q fun hh => hq (.inl hh)]
  · rw [d₂.flag, d₁.flag, or_assoc]
    refine or_congr Iff.rfl ⟨?_, ?_⟩
    · rintro (⟨q, h, hc⟩ | ⟨q, h, hc⟩)
      · exact ⟨q, .inl h, hc⟩
      · refine ⟨q, .inr h, ?_⟩
        rwa [d₁.keeps q fun hh => disj q hh h] at hc
    · rintro ⟨q, h | h, hc⟩
      · exact .inl ⟨q, h, hc⟩
      · refine .inr ⟨q, h, ?_⟩
        rwa [d₁.keeps q fun hh => disj q hh h]

/-- One set sprite bit (R150). -/
theorem drawPixel_draws {cfg : Config} {acc : Framebuffer × Bool} (hs : acc.1.Sized cfg) (r c : Nat) :
    Draws cfg (PixelOn cfg r c) acc (drawPixel cfg r c acc) := by
  unfold drawPixel
  split
  · rename_i row col e
    by_cases hin : row < cfg.fbHeight ∧ col < cfg.fbWidth
    · have hq : ∀ q, PixelOn cfg r c q ↔ q = (row, col) := fun q => by
        simp only [PixelOn, e, Option.some.injEq]
        exact ⟨fun h => h.1.symm, by rintro rfl; exact ⟨rfl, hin⟩⟩
      refine ⟨hs.toggle row col, ?_, ?_, ?_⟩
      · intro q h
        obtain rfl := (hq q).mp h
        simp [cell_toggle hs hin.1 hin.2]
      · rintro ⟨q1, q2⟩ h
        have : ¬ (q1 = row ∧ q2 = col) := fun ⟨h1, h2⟩ => h ((hq _).mpr (by rw [h1, h2]))
        simp [cell_toggle hs hin.1 hin.2, this]
      · simp [hq]
    · have hq : ∀ q, ¬ PixelOn cfg r c q := by
        rintro q ⟨h1, h2⟩
        obtain rfl := Option.some.inj (e.symm.trans h1)
        exact hin h2
      have hsame : ∀ r' c', Framebuffer.cell (Framebuffer.toggle acc.1 row col) r' c' = Framebuffer.cell acc.1 r' c' := by
        intro r' c'
        by_cases h' : r' < cfg.fbHeight ∧ c' < cfg.fbWidth
        · have hne : r' = row → c' ≠ col := by rintro rfl rfl; exact hin h'
          by_cases er : row = r'
          · subst er
            have : col ≠ c' := fun x => hne rfl x.symm
            have hr : row < acc.1.length := hs.1 ▸ h'.1
            simp [Framebuffer.cell, Framebuffer.toggle, hr, this]
          · simp [Framebuffer.cell, Framebuffer.toggle, er]
        · rw [hs.cell_outside h', (hs.toggle row col).cell_outside h']
      refine ⟨hs.toggle row col, fun q h => (hq q h).elim, fun q _ => hsame _ _, ?_⟩
      simp [hs.cell_outside hin, hq]
  · rename_i e
    exact (Draws.refl hs).congr fun q => by simp [PixelOn, e]

/-- A set bit among the first `m` columns of a sprite row falls on cell `q`. -/
def RowHit (cfg : Config) (r ox m : Nat) (b : Byte) (q : Nat × Nat) : Prop :=
  ∃ j, j < m ∧ b.getLsbD (7 - j) = true ∧ PixelOn cfg r (ox + j) q

/-- One sprite row (R150, R152). -/
theorem drawRow_draws {cfg : Config} {acc : Framebuffer × Bool} (hs : acc.1.Sized cfg) {n : Nat} (room : Roomy cfg n)
    (hn : 0 < n) (r ox : Nat) (b : Byte) : Draws cfg (RowHit cfg r ox 8 b) acc (drawRow cfg r ox b acc) := by
  suffices ∀ m, m ≤ 8 → Draws cfg (RowHit cfg r ox m b) acc ((List.range m).foldl
      (fun acc j => if b.getLsbD (7 - j) then drawPixel cfg r (ox + j) acc else acc) acc) from this 8 le_rfl
  intro m
  induction m with
  | zero => intro _; exact (Draws.refl hs).congr fun q => by simp [RowHit]
  | succ m ih =>
    intro hm
    rw [List.range_succ, List.foldl_append]
    simp only [List.foldl_cons, List.foldl_nil]
    have d := ih (by omega)
    split
    · rename_i hb
      refine (d.trans (drawPixel_draws d.sized r (ox + m)) ?_).congr fun q => ?_
      · rintro q ⟨j, hj, -, hp⟩ hp'
        have := PixelOn.inj room hp hp' (by omega) (by omega)
        omega
      · constructor
        · rintro (⟨j, hj, h⟩ | h)
          · exact ⟨j, by omega, h⟩
          · exact ⟨m, by omega, hb, h⟩
        · rintro ⟨j, hj, h1, h2⟩
          rcases Nat.lt_succ_iff_lt_or_eq.mp hj with hj | rfl
          · exact .inl ⟨j, hj, h1, h2⟩
          · exact .inr h2
    · rename_i hb
      refine d.congr fun q => ⟨?_, ?_⟩
      · rintro ⟨j, hj, h⟩
        exact ⟨j, by omega, h⟩
      · rintro ⟨j, hj, h1, h2⟩
        rcases Nat.lt_succ_iff_lt_or_eq.mp hj with hj | rfl
        · exact ⟨j, hj, h1, h2⟩
        · exact (hb h1).elim

/-- A set bit of a sprite whose first row is at row `oy` falls on cell `q`. -/
def SpriteHit (cfg : Config) (oy ox : Nat) (bs : List Byte) (q : Nat × Nat) : Prop :=
  ∃ k b, bs[k]? = some b ∧ RowHit cfg (oy + k) ox 8 b q

/-- A whole sprite that there is room for: the cells its set bits fall on flip, and the flag is set when one of them was
1 (R150). -/
theorem drawRows_draws {cfg : Config} {n : Nat} (room : Roomy cfg n) (ox : Nat) (bs : List Byte) (oy : Nat)
    {acc : Framebuffer × Bool} (hs : acc.1.Sized cfg) (hlen : bs.length ≤ n) :
    Draws cfg (SpriteHit cfg oy ox bs) acc (drawRows cfg ox bs oy acc) := by
  induction bs generalizing oy acc with
  | nil => exact (Draws.refl hs).congr fun q => by simp [SpriteHit]
  | cons b bs ih =>
    simp only [List.length_cons] at hlen
    have d := drawRow_draws hs room (by omega) oy ox b
    refine (d.trans (ih (oy + 1) d.sized (by omega)) ?_).congr fun q => ?_
    · rintro q ⟨j, hj, -, hp⟩ ⟨k, b', hk, j', hj', -, hp'⟩
      have hk' : k < bs.length := (List.getElem?_eq_some_iff.mp hk).1
      have := PixelOn.inj room hp hp' (by omega) (by omega)
      omega
    · constructor
      · rintro (h | ⟨k, b', hk, h⟩)
        · exact ⟨0, b, rfl, h⟩
        · exact ⟨k + 1, b', by simpa using hk, by rwa [show oy + (k + 1) = oy + 1 + k by omega]⟩
      · rintro ⟨k, b', hk, h⟩
        cases k with
        | zero =>
          obtain rfl : b = b' := by simpa using hk
          exact .inl h
        | succ k =>
          exact .inr ⟨k, b', by simpa using hk, by rwa [show oy + 1 + k = oy + (k + 1) by omega]⟩

/-- Drawing keeps the size whatever the policy and the room: it only toggles cells. -/
theorem sized_drawRows {cfg : Config} (ox : Nat) (bs : List Byte) (oy : Nat) {acc : Framebuffer × Bool}
    (hs : acc.1.Sized cfg) : (drawRows cfg ox bs oy acc).1.Sized cfg := by
  induction bs generalizing oy acc with
  | nil => exact hs
  | cons b bs ih =>
    refine ih (oy + 1) ?_
    suffices ∀ l : List Nat, ∀ acc : Framebuffer × Bool, acc.1.Sized cfg → (l.foldl
        (fun acc j => if b.getLsbD (7 - j) then drawPixel cfg oy (ox + j) acc else acc) acc).1.Sized cfg from this _ _ hs
    intro l
    induction l with
    | nil => exact fun _ h => h
    | cons j l ihl =>
      intro acc h
      refine ihl _ ?_
      dsimp only
      split
      · exact (drawPixel_draws h oy (ox + j)).sized
      · exact h

end Sys2Proof.Machine
end

