-- ==== Sys2Proof/Laws/Flags.lean ====
section
/-! SUPPORT. The ALU laws of 42_load_arith.md R112, in integers. -/

namespace Sys2Proof.Machine

@[simp] theorem toNat_aluAdd (a b : Byte) : (aluAdd a b).1.toNat = (a.toNat + b.toNat) % 256 := by simp [aluAdd]

theorem aluAdd_flag (a b : Byte) : (aluAdd a b).2 = decide (255 < a.toNat + b.toNat) := rfl

@[simp] theorem toNat_aluSub (a b : Byte) : (aluSub a b).1.toNat = (256 + a.toNat - b.toNat) % 256 := by simp [aluSub]

theorem aluSub_flag (a b : Byte) : (aluSub a b).2 = decide (b.toNat < a.toNat) := rfl

/-- Equal operands give 0 with the flag 0 (R112). -/
theorem aluSub_self (a : Byte) : aluSub a a = (0#8, false) := by
  have := a.isLt
  simp [aluSub]

@[simp] theorem toNat_aluShr (a : Byte) : (aluShr a).1.toNat = a.toNat / 2 := by
  have := a.isLt
  simp [aluShr]; omega

/-- The bit a right shift puts into VF is the value modulo 2. -/
theorem aluShr_flag (a : Byte) : (aluShr a).2 = decide (a.toNat % 2 = 1) := by
  simp [aluShr, BitVec.getLsbD, Nat.testBit_zero]

@[simp] theorem toNat_aluShl (a : Byte) : (aluShl a).1.toNat = a.toNat * 2 % 256 := by simp [aluShl]

/-- The bit a left shift puts into VF is the value divided by 128. -/
theorem aluShl_flag (a : Byte) : (aluShl a).2 = decide (a.toNat / 128 = 1) := by
  have := a.isLt
  simp only [aluShl, BitVec.getLsbD, Nat.testBit_eq_decide_div_mod_eq]
  congr 1
  simp; omega

/-- A flag byte is 0 or 1 (R11). -/
theorem toNat_flagByte (c : Bool) : (flagByte c).toNat = if c then 1 else 0 := by cases c <;> rfl

end Sys2Proof.Machine
end

