-- ==== Sys2Proof/Laws/Step.lean ====
section
/-! SUPPORT. What a step can do, said once (40_step_dispatch.md R80 to R87). -/

namespace Sys2Proof.Machine

/-- A fetch answers exactly up to address `MEM_SIZE - 2`, with the big-endian word (R81). -/
theorem fetchWord_eq_some {cfg : Config} {s : State} {w : Word} :
    fetchWord cfg s = some w ↔
      s.pc.toNat + 1 < cfg.memSize ∧ w = wordOfBytes (s.readByte s.pc.toNat) (s.readByte (s.pc.toNat + 1)) := by
  simp only [fetchWord]
  split <;> simp_all [eq_comm]

theorem fetchWord_eq_none {cfg : Config} {s : State} : fetchWord cfg s = none ↔ cfg.memSize ≤ s.pc.toNat + 1 := by
  simp only [fetchWord]
  split <;> simp <;> omega

theorem finishResult_eq_next {r : Result} {t : State} :
    finishResult r = .next t ↔ ∃ u, r = .next u ∧ t = finish u := by
  cases r <;> simp [finishResult, eq_comm]

/-- A step's phases that answer `next t`: the core was halted and nothing changed; or the fetch faulted; or the decoded
instruction ran on the advanced state and the step finished. -/
theorem stepPhases_cases {cfg : Config} {decoder : Word → Instr} {execute : Instr → State → Result} {s t : State}
    (h : stepPhases cfg decoder execute s = .next t) :
    (s.fault ≠ .none ∧ t = s) ∨
    (s.fault = .none ∧ cfg.memSize ≤ s.pc.toNat + 1 ∧ t = s.takeFault s.pc .fetchRange s.pc) ∨
    (s.fault = .none ∧ s.pc.toNat + 1 < cfg.memSize ∧ ∃ w u, fetchWord cfg s = some w ∧
      execute (decoder w) s.advance = .next u ∧ t = finish u) := by
  unfold stepPhases at h
  split at h
  · rename_i hh
    cases h
    exact .inl ⟨by simpa using hh, rfl⟩
  · rename_i hh
    have hf : s.fault = .none := by simpa using hh
    split at h
    · rename_i e
      cases h
      exact .inr (.inl ⟨hf, fetchWord_eq_none.mp e, rfl⟩)
    · rename_i w e
      obtain ⟨u, hu, rfl⟩ := finishResult_eq_next.mp h
      exact .inr (.inr ⟨hf, (fetchWord_eq_some.mp e).1, w, u, e, hu, rfl⟩)

/-- The same of the step at the values taken. -/
theorem step_cases {s t : State} (h : step s = .next t) :
    (s.fault ≠ .none ∧ t = s) ∨
    (s.fault = .none ∧ 4095 ≤ s.pc.toNat ∧ t = s.takeFault s.pc .fetchRange s.pc) ∨
    (s.fault = .none ∧ s.pc.toNat ≤ 4094 ∧ ∃ w u, fetchWord Config.taken s = some w ∧
      exec (decode w) s.advance = .next u ∧ t = finish u) := by
  rcases stepPhases_cases h with h | ⟨hf, hp, h⟩ | ⟨hf, hp, h⟩
  · exact .inl h
  · exact .inr (.inl ⟨hf, by simp at hp; omega, h⟩)
  · exact .inr (.inr ⟨hf, by simp at hp; omega, h⟩)

/-- A running core with a word to fetch runs the decoded instruction and finishes. -/
theorem stepPhases_running {cfg : Config} {decoder : Word → Instr} {execute : Instr → State → Result} {s : State} {w : Word}
    (hf : s.fault = .none) (hw : fetchWord cfg s = some w) :
    stepPhases cfg decoder execute s = finishResult (execute (decoder w) s.advance) := by
  unfold stepPhases
  rw [if_neg (by simpa using hf), hw]

/-- At the values taken, the configured execute is `exec`: each instruction's meaning calls the operation it calls. -/
theorem execWith_taken (i : Instr) (s : State) : execWith Config.taken i s = exec i s := by cases i <;> rfl

/-- Finishing changes the timers alone, and only when no fault was raised (R84, R86). -/
theorem finish_eq (t : State) : finish t = if t.fault = .none then t.tick else t := by
  unfold finish
  by_cases h : t.fault = .none
  · simp [State.halted, h]
  · simp [State.halted, h]

@[simp] theorem finish_fault (t : State) : (finish t).fault = t.fault := by rw [finish_eq]; split <;> rfl
@[simp] theorem finish_pc (t : State) : (finish t).pc = t.pc := by rw [finish_eq]; split <;> rfl
@[simp] theorem finish_regI (t : State) : (finish t).regI = t.regI := by rw [finish_eq]; split <;> rfl
@[simp] theorem finish_sp (t : State) : (finish t).sp = t.sp := by rw [finish_eq]; split <;> rfl
@[simp] theorem finish_stack (t : State) : (finish t).stack = t.stack := by rw [finish_eq]; split <;> rfl
@[simp] theorem finish_keys (t : State) : (finish t).keys = t.keys := by rw [finish_eq]; split <;> rfl
@[simp] theorem finish_fb (t : State) : (finish t).fb = t.fb := by rw [finish_eq]; split <;> rfl
@[simp] theorem finish_mem (t : State) : (finish t).mem = t.mem := by rw [finish_eq]; split <;> rfl
@[simp] theorem finish_v (t : State) : (finish t).v = t.v := by rw [finish_eq]; split <;> rfl
@[simp] theorem finish_rndCount (t : State) : (finish t).rndCount = t.rndCount := by rw [finish_eq]; split <;> rfl
@[simp] theorem finish_getV (t : State) (x : RegIdx) : (finish t).getV x = t.getV x := by rw [finish_eq]; split <;> rfl
@[simp] theorem finish_readByte (t : State) (a : Nat) : (finish t).readByte a = t.readByte a := by
  rw [finish_eq]; split <;> rfl

end Sys2Proof.Machine
end

