-- ==== Sys2Proof/Laws/HostPort.lean ====
section
/-! SUPPORT. What reset and program load leave in memory (10_state.md R25, 70_reset_and_hazards.md R215). -/

namespace Sys2Proof.Machine

/-- Every cell a reset lists lies inside memory, and holds the reset byte, which an unlisted address does not. -/
theorem mem_resetMemory {cfg : Config} {c : Host.Cell} :
    c ∈ resetMemory cfg ↔ c.1 < cfg.memSize ∧ c.2 = cfg.resetByte c.1 ∧ cfg.resetByte c.1 ≠ unlistedByte c.1 := by
  obtain ⟨a, b⟩ := c
  simp only [resetMemory, List.mem_filterMap, List.mem_range]
  constructor
  · rintro ⟨x, hx, h⟩
    split at h
    · cases h
    · rename_i hc
      cases h
      exact ⟨hx, rfl, hc⟩
  · rintro ⟨h1, h3, h4⟩
    exact ⟨a, h1, by simp [h4, h3]⟩

/-- The memory a reset leaves is canonical. -/
theorem wfBelow_resetMemory (cfg : Config) : (resetMemory cfg).wfBelow cfg.memSize := by
  constructor
  · unfold resetMemory
    refine List.Pairwise.filterMap _ (R := (· < ·)) ?_ List.pairwise_lt_range
    intro a a' haa b hb b' hb'
    split at hb
    · cases hb
    · split at hb'
      · cases hb'
      · cases hb; cases hb'; exact haa
  · intro c hc
    obtain ⟨h1, h2, h3⟩ := mem_resetMemory.mp hc
    exact ⟨h1, by rwa [h2]⟩

/-- What the memory a reset leaves reads as, at every address of memory (R25). -/
theorem read_resetMemory {cfg : Config} {a : Nat} (ha : a < cfg.memSize) : (resetMemory cfg).read a = cfg.resetByte a := by
  by_cases h : cfg.resetByte a = unlistedByte a
  · rw [h]
    refine Memory.read_of_not_listed fun c hc e => ?_
    obtain ⟨-, -, h3⟩ := mem_resetMemory.mp hc
    rw [e] at h3
    exact h3 h
  · exact Memory.read_of_mem (wfBelow_resetMemory cfg).1 (c := (a, cfg.resetByte a)) (mem_resetMemory.mpr ⟨ha, rfl, h⟩)

/-! ### The fields a reset leaves (R25, R210): one lemma each, so that no proof unfolds the reset memory -/

section
variable (cfg : Config) (s : State) (memInit : Nat → Byte)

@[simp] theorem hostReset_v : (hostReset cfg s).v = .replicate 16 0 := rfl
@[simp] theorem hostReset_regI : (hostReset cfg s).regI = 0 := rfl
@[simp] theorem hostReset_pc : (hostReset cfg s).pc = BitVec.ofNat 16 cfg.progOrigin := rfl
@[simp] theorem hostReset_sp : (hostReset cfg s).sp = 0 := rfl
@[simp] theorem hostReset_stack : (hostReset cfg s).stack = .replicate cfg.stackDepth 0 := rfl
@[simp] theorem hostReset_dt : (hostReset cfg s).dt = 0 := rfl
@[simp] theorem hostReset_st : (hostReset cfg s).st = 0 := rfl
@[simp] theorem hostReset_keys : (hostReset cfg s).keys = .replicate 16 false := rfl
@[simp] theorem hostReset_fb : (hostReset cfg s).fb = clearFb cfg := rfl
@[simp] theorem resetFor_mem : (resetFor cfg).mem = resetMemory cfg := rfl
@[simp] theorem hostReset_mem : (hostReset cfg s).mem = resetMemory cfg := rfl
@[simp] theorem hostReset_fault : (hostReset cfg s).fault = .none := rfl
@[simp] theorem hostReset_rndCount : (hostReset cfg s).rndCount = s.rndCount := rfl
@[simp] theorem resetWith_mem : (resetWith memInit).mem = resetMemory (Config.taken.withMemInit memInit) := by
  unfold resetWith
  exact resetFor_mem _

end

/-- What memory reads as after a reset from any state (R25). -/
theorem readByte_hostReset {cfg : Config} {a : Nat} (ha : a < cfg.memSize) (s : State) :
    (hostReset cfg s).readByte a = cfg.resetByte a := by
  rw [State.readByte, hostReset_mem, read_resetMemory ha]

/-- At the values taken a reset lists nothing, and leaves `State.reset`. -/
theorem resetFor_taken : resetFor Config.taken = State.reset := by
  have : resetMemory Config.taken = [] := by
    refine List.eq_nil_iff_forall_not_mem.mpr fun c hc => ?_
    exact (mem_resetMemory.mp hc).2.2 rfl
  unfold resetFor State.reset
  rw [this]
  rfl

/-- A loaded image is written whole, and the rest of the state is untouched (R215, R216). -/
theorem loadProgram_fst (cfg : Config) (image : List Byte) (s : State) :
    (loadProgram cfg image s).1 = if cfg.progTop < cfg.progOrigin + image.length then s
      else { s with mem := s.mem.writeBytes cfg.progOrigin image } := by
  unfold loadProgram
  split <;> rfl

theorem loadProgram_snd (cfg : Config) (image : List Byte) (s : State) :
    (loadProgram cfg image s).2 = decide (cfg.progTop < cfg.progOrigin + image.length) := by
  unfold loadProgram
  split <;> simp_all

/-- An image that fits is written whole, and only memory changes (R215). -/
theorem loadProgram_of_le {cfg : Config} {image : List Byte} (h : cfg.progOrigin + image.length ≤ cfg.progTop) (s : State) :
    loadProgram cfg image s = ({ s with mem := s.mem.writeBytes cfg.progOrigin image }, false) :=
  if_neg (by omega)

/-- An image that does not fit changes nothing and raises `load_err` (R216). -/
theorem loadProgram_of_lt {cfg : Config} {image : List Byte} (h : cfg.progTop < cfg.progOrigin + image.length) (s : State) :
    loadProgram cfg image s = (s, true) :=
  if_pos h

end Sys2Proof.Machine
end

