-- ==== Sys2Proof/Laws/Operands.lean ====
section
/-! SUPPORT. What each operand form gives. -/

namespace Sys2Proof.Machine

@[simp] theorem toNat_zext12 (nnn : Addr12) : (zext12 nnn).toNat = nnn.toNat := by
  have := nnn.isLt
  simp [zext12]; omega

@[simp] theorem toNat_zext8 (b : Byte) : (zext8 b).toNat = b.toNat := by
  have := b.isLt
  simp [zext8]; omega

/-- Under `fault` a register value names the key of its number, up to 15 (R163). -/
theorem keyIndex_fault_eq_some {b : Byte} {k : Fin 16} : keyIndex .fault b = some k ↔ b.toNat = k.val := by
  simp only [keyIndex]
  split
  · simp [Fin.ext_iff]
  · have := k.isLt
    simp; omega

theorem keyIndex_fault_eq_none {b : Byte} : keyIndex .fault b = none ↔ 15 < b.toNat := by
  simp only [keyIndex]
  split <;> simp <;> omega

/-- Under `mask4` a register value names the key of its low 4 bits (R163). -/
@[simp] theorem keyIndex_mask4 (b : Byte) : keyIndex .mask4 b = some (Fin.ofNat 16 b.toNat) := rfl

/-- The key found is pressed and no lower one is (R162). -/
theorem lowestKey_eq_some {keys : Vector Bool 16} {k : Fin 16} :
    lowestKey keys = some k ↔ keys.get k = true ∧ ∀ j, j < k → keys.get j = false := by
  unfold lowestKey
  rw [List.find?_eq_some_iff_getElem]
  constructor
  · rintro ⟨hk, i, hi, rfl, hlt⟩
    refine ⟨hk, fun j hj => ?_⟩
    have hi' : i < 16 := by simpa using hi
    have := hlt j.val (by simpa [Fin.lt_def] using hj)
    simpa using this
  · rintro ⟨hk, hlt⟩
    refine ⟨hk, k.val, by simp, by simp, fun j hj => ?_⟩
    have := hlt ⟨j, by omega⟩ (by simpa [Fin.lt_def] using hj)
    simpa using this

theorem lowestKey_eq_none {keys : Vector Bool 16} : lowestKey keys = none ↔ ∀ k, keys.get k = false := by
  simp [lowestKey]

/-- The glyph address is 5 times the whole digit value (R122). -/
theorem toNat_glyphAddr (b : Byte) : (glyphAddr Config.taken b).toNat = 5 * b.toNat := by
  have := b.isLt
  simp [glyphAddr]; omega

@[simp] theorem length_regsUpTo (s : State) (x : RegIdx) : (s.regsUpTo x).length = x.toNat + 1 := by
  have := x.isLt
  simp [State.regsUpTo]; omega

/-- Element `k` of the registers stored is `V[k]`, for `k` up to `x` inclusive (R131). -/
theorem getElem?_regsUpTo (s : State) (x k : RegIdx) :
    (s.regsUpTo x)[k.toNat]? = if k.toNat ≤ x.toNat then some (s.getV k) else none := by
  have := k.isLt
  simp only [State.regsUpTo, State.getV, Vector.get_eq_getElem, List.getElem?_take]
  by_cases h : k.toNat ≤ x.toNat
  · have h' : k.toNat < x.toNat + 1 := by omega
    simp [h, h']
  · have h' : ¬ k.toNat < x.toNat + 1 := by omega
    simp [h, h']

end Sys2Proof.Machine
end

