-- ==== Sys2Proof/Laws/PerInstr.lean ====
section
/-! SUPPORT. Per instruction: its canonical word matches its own row of the opcode table, and that row builds it back (30_encoding.md R73). -/

namespace Sys2Proof.Laws.TableRow

/-- Some row of the table is matched by the instruction's canonical word and builds the instruction from it. -/
def Statement (i : Instr) : Prop :=
  ∃ (k : Nat) (r : OpcodeRow), opcodeTable[k]? = some r ∧ r.matchesWord (encode i) = true ∧ r.build (encode i) = i

theorem cls : Statement .cls :=
  ⟨0, _, rfl, by decide, rfl⟩

theorem ret : Statement .ret :=
  ⟨1, _, rfl, by decide, rfl⟩

theorem jp (nnn : Addr12) : Statement (.jp nnn) :=
  ⟨2, _, rfl, by simp [OpcodeRow.matchesWord, encode, and_F000], by simp [encode]⟩

theorem call (nnn : Addr12) : Statement (.call nnn) :=
  ⟨3, _, rfl, by simp [OpcodeRow.matchesWord, encode, and_F000], by simp [encode]⟩

theorem seByte (x : RegIdx) (kk : Byte) : Statement (.seByte x kk) :=
  ⟨4, _, rfl, by simp [OpcodeRow.matchesWord, encode, and_F000], by simp [encode]⟩

theorem sneByte (x : RegIdx) (kk : Byte) : Statement (.sneByte x kk) :=
  ⟨5, _, rfl, by simp [OpcodeRow.matchesWord, encode, and_F000], by simp [encode]⟩

theorem seReg (x y : RegIdx) : Statement (.seReg x y) :=
  ⟨6, _, rfl, by simp [OpcodeRow.matchesWord, encode, and_F000], by simp [encode]⟩

theorem ldByte (x : RegIdx) (kk : Byte) : Statement (.ldByte x kk) :=
  ⟨7, _, rfl, by simp [OpcodeRow.matchesWord, encode, and_F000], by simp [encode]⟩

theorem addByte (x : RegIdx) (kk : Byte) : Statement (.addByte x kk) :=
  ⟨8, _, rfl, by simp [OpcodeRow.matchesWord, encode, and_F000], by simp [encode]⟩

theorem ldReg (x y : RegIdx) : Statement (.ldReg x y) :=
  ⟨9, _, rfl, by simp [OpcodeRow.matchesWord, encode, and_F00F], by simp [encode]⟩

theorem orReg (x y : RegIdx) : Statement (.orReg x y) :=
  ⟨10, _, rfl, by simp [OpcodeRow.matchesWord, encode, and_F00F], by simp [encode]⟩

theorem andReg (x y : RegIdx) : Statement (.andReg x y) :=
  ⟨11, _, rfl, by simp [OpcodeRow.matchesWord, encode, and_F00F], by simp [encode]⟩

theorem xorReg (x y : RegIdx) : Statement (.xorReg x y) :=
  ⟨12, _, rfl, by simp [OpcodeRow.matchesWord, encode, and_F00F], by simp [encode]⟩

theorem addReg (x y : RegIdx) : Statement (.addReg x y) :=
  ⟨13, _, rfl, by simp [OpcodeRow.matchesWord, encode, and_F00F], by simp [encode]⟩

theorem sub (x y : RegIdx) : Statement (.sub x y) :=
  ⟨14, _, rfl, by simp [OpcodeRow.matchesWord, encode, and_F00F], by simp [encode]⟩

theorem shr (x : RegIdx) : Statement (.shr x) :=
  ⟨15, _, rfl, by simp [OpcodeRow.matchesWord, encode, and_F00F], by simp [encode]⟩

theorem subn (x y : RegIdx) : Statement (.subn x y) :=
  ⟨16, _, rfl, by simp [OpcodeRow.matchesWord, encode, and_F00F], by simp [encode]⟩

theorem shl (x : RegIdx) : Statement (.shl x) :=
  ⟨17, _, rfl, by simp [OpcodeRow.matchesWord, encode, and_F00F], by simp [encode]⟩

theorem sneReg (x y : RegIdx) : Statement (.sneReg x y) :=
  ⟨18, _, rfl, by simp [OpcodeRow.matchesWord, encode, and_F000], by simp [encode]⟩

theorem ldI (nnn : Addr12) : Statement (.ldI nnn) :=
  ⟨19, _, rfl, by simp [OpcodeRow.matchesWord, encode, and_F000], by simp [encode]⟩

theorem jpV0 (nnn : Addr12) : Statement (.jpV0 nnn) :=
  ⟨20, _, rfl, by simp [OpcodeRow.matchesWord, encode, and_F000], by simp [encode]⟩

theorem rnd (x : RegIdx) (kk : Byte) : Statement (.rnd x kk) :=
  ⟨21, _, rfl, by simp [OpcodeRow.matchesWord, encode, and_F000], by simp [encode]⟩

theorem drw (x y : RegIdx) (n : Nibble) : Statement (.drw x y n) :=
  ⟨22, _, rfl, by simp [OpcodeRow.matchesWord, encode, and_F000], by simp [encode]⟩

theorem skp (x : RegIdx) : Statement (.skp x) :=
  ⟨23, _, rfl, by simp [OpcodeRow.matchesWord, encode, and_F00F], by simp [encode]⟩

theorem sknp (x : RegIdx) : Statement (.sknp x) :=
  ⟨24, _, rfl, by simp [OpcodeRow.matchesWord, encode, and_F00F], by simp [encode]⟩

theorem ldVxDt (x : RegIdx) : Statement (.ldVxDt x) :=
  ⟨25, _, rfl, by simp [OpcodeRow.matchesWord, encode, and_F0FF], by simp [encode]⟩

theorem ldVxK (x : RegIdx) : Statement (.ldVxK x) :=
  ⟨26, _, rfl, by simp [OpcodeRow.matchesWord, encode, and_F0FF], by simp [encode]⟩

theorem ldDtVx (x : RegIdx) : Statement (.ldDtVx x) :=
  ⟨27, _, rfl, by simp [OpcodeRow.matchesWord, encode, and_F0FF], by simp [encode]⟩

theorem ldStVx (x : RegIdx) : Statement (.ldStVx x) :=
  ⟨28, _, rfl, by simp [OpcodeRow.matchesWord, encode, and_F0FF], by simp [encode]⟩

theorem addI (x : RegIdx) : Statement (.addI x) :=
  ⟨29, _, rfl, by simp [OpcodeRow.matchesWord, encode, and_F0FF], by simp [encode]⟩

theorem ldF (x : RegIdx) : Statement (.ldF x) :=
  ⟨30, _, rfl, by simp [OpcodeRow.matchesWord, encode, and_F0FF], by simp [encode]⟩

theorem ldB (x : RegIdx) : Statement (.ldB x) :=
  ⟨31, _, rfl, by simp [OpcodeRow.matchesWord, encode, and_F0FF], by simp [encode]⟩

theorem ldMemVx (x : RegIdx) : Statement (.ldMemVx x) :=
  ⟨32, _, rfl, by simp [OpcodeRow.matchesWord, encode, and_F0FF], by simp [encode]⟩

theorem ldVxMem (x : RegIdx) : Statement (.ldVxMem x) :=
  ⟨33, _, rfl, by simp [OpcodeRow.matchesWord, encode, and_F0FF], by simp [encode]⟩

theorem nop0 (nnn : Addr12) : Statement (.nop0 nnn) :=
  ⟨34, _, rfl, by simp [OpcodeRow.matchesWord, encode, and_F000], by simp [encode]⟩

theorem nop8 (x y : RegIdx) (key : Nibble) : Statement (.nop8 x y key) :=
  ⟨35, _, rfl, by simp [OpcodeRow.matchesWord, encode, and_F000], by simp [encode]⟩

theorem nopE (x : RegIdx) (mid key : Nibble) : Statement (.nopE x mid key) :=
  ⟨36, _, rfl, by simp [OpcodeRow.matchesWord, encode, and_F000], by simp [encode]⟩

theorem nopF (x : RegIdx) (key : Byte) : Statement (.nopF x key) :=
  ⟨37, _, rfl, by simp [OpcodeRow.matchesWord, encode, and_F000], by simp [encode]⟩

end Sys2Proof.Laws.TableRow
end

