-- ==== Sys2Proof/Tests/Slice0.lean ====
section
/-! SUPPORT. The model's own tests. Expected values are those of spec/95_test_vectors.md, whose ids (CF1, A8, D3 and so on) the comments give, or a hand calculation from the rule named. -/

namespace Sys2Proof.Tests

open Sys2Proof Sys2Proof.Machine Sys2Proof.Safety

/-! ### Well-formedness: an ill-formed term for each check -/

/-- Keys 0 and E of family 0 are CLS and RET. -/
theorem test_wellFormed_nop0 : (Instr.nop0 0x123#12).wellFormed = true ∧ (Instr.nop0 0x120#12).wellFormed = false ∧
    (Instr.nop0 0x12E#12).wellFormed = false := by decide

/-- Keys 0 to 7 and E of family 8 are defined. -/
theorem test_wellFormed_nop8 : (Instr.nop8 1#4 2#4 0x8#4).wellFormed = true ∧ (Instr.nop8 1#4 2#4 0x7#4).wellFormed = false ∧
    (Instr.nop8 1#4 2#4 0x0#4).wellFormed = false ∧ (Instr.nop8 1#4 2#4 0xE#4).wellFormed = false := by decide

/-- Keys E and 1 of family E are defined. -/
theorem test_wellFormed_nopE : (Instr.nopE 1#4 9#4 0xF#4).wellFormed = true ∧ (Instr.nopE 1#4 9#4 0xE#4).wellFormed = false ∧
    (Instr.nopE 1#4 9#4 0x1#4).wellFormed = false := by decide

/-- The nine keys of family F are defined; 75 and 85 are not (R71). -/
theorem test_wellFormed_nopF : (Instr.nopF 1#4 0x75#8).wellFormed = true ∧ (Instr.nopF 1#4 0x85#8).wellFormed = true ∧
    ∀ k ∈ [0x07#8, 0x0A#8, 0x15#8, 0x18#8, 0x1E#8, 0x29#8, 0x33#8, 0x55#8, 0x65#8],
      (Instr.nopF 1#4 k).wellFormed = false := by decide

/-! ### Decoding: words written out from 30_encoding.md R65 to R72 -/

/-- Control flow (R65, R67): families 0, 1, 2, 3, 4, 5, 9, B. -/
theorem test_decode_controlFlow :
    decode 0b0000000011101110#16 = .ret ∧ decode 0b0001101010111100#16 = .jp 0xABC#12 ∧
    decode 0b0010001100000000#16 = .call 0x300#12 ∧ decode 0b0011101001010101#16 = .seByte 0xA#4 0x55#8 ∧
    decode 0b0100101001010101#16 = .sneByte 0xA#4 0x55#8 ∧ decode 0b0101101010110000#16 = .seReg 0xA#4 0xB#4 ∧
    decode 0b1001101010110000#16 = .sneReg 0xA#4 0xB#4 ∧ decode 0b1011001100000000#16 = .jpV0 0x300#12 := by decide

/-- Loads, arithmetic, logic, shifts (R65, R68): families 6, 7, 8. -/
theorem test_decode_alu :
    decode 0b0110101001111111#16 = .ldByte 0xA#4 0x7F#8 ∧ decode 0b0111101000000001#16 = .addByte 0xA#4 0x01#8 ∧
    decode 0b1000101010110000#16 = .ldReg 0xA#4 0xB#4 ∧ decode 0b1000101010110001#16 = .orReg 0xA#4 0xB#4 ∧
    decode 0b1000101010110010#16 = .andReg 0xA#4 0xB#4 ∧ decode 0b1000101010110011#16 = .xorReg 0xA#4 0xB#4 ∧
    decode 0b1000101010110100#16 = .addReg 0xA#4 0xB#4 ∧ decode 0b1000101010110101#16 = .sub 0xA#4 0xB#4 ∧
    decode 0b1000101000000110#16 = .shr 0xA#4 ∧ decode 0b1000101010110111#16 = .subn 0xA#4 0xB#4 ∧
    decode 0b1000101000001110#16 = .shl 0xA#4 := by decide

/-- Addressing, random, screen, keys (R65, R67, R69): families A, C, D, 0, E. -/
theorem test_decode_addressing_screen_keys :
    decode 0b1010001011110000#16 = .ldI 0x2F0#12 ∧ decode 0b1100001100001111#16 = .rnd 0x3#4 0x0F#8 ∧
    decode 0b1101001101000101#16 = .drw 0x3#4 0x4#4 0x5#4 ∧ decode 0b0000000011100000#16 = .cls ∧
    decode 0b1110010010011110#16 = .skp 0x4#4 ∧ decode 0b1110010010100001#16 = .sknp 0x4#4 := by decide

/-- Family F (R71). -/
theorem test_decode_familyF :
    decode 0b1111001100000111#16 = .ldVxDt 0x3#4 ∧ decode 0b1111001100001010#16 = .ldVxK 0x3#4 ∧
    decode 0b1111001100010101#16 = .ldDtVx 0x3#4 ∧ decode 0b1111001100011000#16 = .ldStVx 0x3#4 ∧
    decode 0b1111001100011110#16 = .addI 0x3#4 ∧ decode 0b1111001100101001#16 = .ldF 0x3#4 ∧
    decode 0b1111101000110011#16 = .ldB 0xA#4 ∧ decode 0b1111001001010101#16 = .ldMemVx 0x2#4 ∧
    decode 0b1111001001100101#16 = .ldVxMem 0x2#4 := by decide

/-- The no-op words of V-NOP, one or two of each family. -/
theorem test_decode_noOps :
    decode 0x0123#16 = .nop0 0x123#12 ∧ decode 0x0FFF#16 = .nop0 0xFFF#12 ∧
    decode 0x8AB8#16 = .nop8 0xA#4 0xB#4 0x8#4 ∧ decode 0x8ABF#16 = .nop8 0xA#4 0xB#4 0xF#4 ∧
    decode 0xE09F#16 = .nopE 0x0#4 0x9#4 0xF#4 ∧ decode 0xE4A2#16 = .nopE 0x4#4 0xA#4 0x2#4 ∧
    decode 0xF075#16 = .nopF 0x0#4 0x75#8 ∧ decode 0xF00B#16 = .nopF 0x0#4 0x0B#8 := by decide

/-- Aliases (R72), and the words V-NOP says only look like no-ops. -/
theorem test_decode_aliases :
    decode 0x0000#16 = .cls ∧ decode 0x00F0#16 = .cls ∧ decode 0x0EEE#16 = .ret ∧ decode 0xE00E#16 = .skp 0x0#4 ∧
    decode 0xE001#16 = .sknp 0x0#4 ∧ decode 0x5AB3#16 = .seReg 0xA#4 0xB#4 ∧ decode 0x9AB3#16 = .sneReg 0xA#4 0xB#4 := by
  decide

/-- Canonical words (R74). -/
theorem test_encode :
    encode .cls = 0x00E0#16 ∧ encode .ret = 0x00EE#16 ∧ encode (.skp 0x4#4) = 0xE49E#16 ∧
    encode (.sknp 0x4#4) = 0xE4A1#16 ∧ encode (.shr 0xA#4) = 0x8A06#16 ∧ encode (.drw 0x3#4 0x4#4 0x5#4) = 0xD345#16 ∧
    encode (.jp 0xABC#12) = 0x1ABC#16 ∧ encode (.addByte 0xA#4 0x01#8) = 0x7A01#16 := by decide

/-- Bytes: the first of a pair is the high one, what follows is left, one byte is too few, a table word of 24 bits is none (R42, R60). -/
theorem test_decodeBytes :
    decodeBytes [0x6A#8, 0x7F#8, 0x11#8] = .ok (.ldByte 0xA#4 0x7F#8, [0x11#8]) ∧
    decodeBytes [0x6A#8] = .error .tooShort ∧
    decodeTableWord 16 0x6A7F = some (.ldByte 0xA#4 0x7F#8) ∧ decodeTableWord 24 0x6A7F = none := ⟨rfl, rfl, rfl, rfl⟩

/-! ### Start states -/

/-- What a step leaves, through a view; `none` when it answers no next state. -/
def stepView {α : Type} (s : State) (view : State → α) : Option α :=
  match step s with
  | .next t => some (view t)
  | _ => none

/-- Bytes placed in memory. -/
def put (a : Nat) (bs : List Byte) (s : State) : State := { s with mem := s.mem.writeBytes a bs }

/-- Call-stack entries and their number. -/
def stacked (n : Nat) (entry : Word) (s : State) : State := { s with sp := n, stack := .replicate 16 entry }

/-- The listed keys pressed. -/
def press (ks : List Nat) (s : State) : State := s.setKeys (.ofFn fun k => decide (k.val ∈ ks))

/-- A lit framebuffer cell. -/
def lit (r c : Nat) (s : State) : State := s.setFb (Framebuffer.toggle s.fb r c)

/-- The start state of 95_test_vectors.md: reset, with the word at `pc`. -/
def start (w : Nat) : State := State.reset.withFetchWord 16 w

/-- A start state with two registers. -/
def start2 (w : Nat) (x : RegIdx) (a : Byte) (y : RegIdx) (b : Byte) : State := ((start w).setV x a).setV y b

/-- `pc`, fault, `fault_info`. -/
def stop (t : State) : Word × Cause × Word := (t.pc, t.fault, t.faultInfo)

/-! ### Control flow -/

/-- CF1. -/
theorem test_jp : stepView (start 0x1ABC) (fun t => t.pc) = some 0x0ABC#16 := by decide
/-- CF5. -/
theorem test_call : stepView (stacked 15 0x0400#16 (start 0x2300)) (fun t => (t.pc, t.sp, t.entry 15)) =
    some (0x0300#16, 16, 0x0202#16) := by decide
/-- CF6. -/
theorem test_call_overflow : stepView (stacked 16 0x0400#16 (start 0x2300)) (fun t => (stop t, t.sp)) =
    some ((0x0200#16, .stackOverflow, 0x10#16), 16) := by decide
/-- CF9, an alias of RET. -/
theorem test_ret : stepView (stacked 2 0x0456#16 (start 0x0ABE)) (fun t => (t.pc, t.sp)) = some (0x0456#16, 1) := by decide
/-- CF8. -/
theorem test_ret_underflow : stepView (start 0x00EE) stop = some (0x0200#16, .stackUnderflow, 0#16) := by decide
/-- CF10, CF11. -/
theorem test_seByte : stepView ((start 0x3A55).setV 0xA#4 0x55#8) (fun t => t.pc) = some 0x0204#16 ∧
    stepView ((start 0x3A55).setV 0xA#4 0x54#8) (fun t => t.pc) = some 0x0202#16 := by decide
/-- CF12, CF13. -/
theorem test_sneByte : stepView ((start 0x4A55).setV 0xA#4 0x55#8) (fun t => t.pc) = some 0x0202#16 ∧
    stepView ((start 0x4A55).setV 0xA#4 0x54#8) (fun t => t.pc) = some 0x0204#16 := by decide
/-- CF15, CF16. -/
theorem test_seReg : stepView (start2 0x5AB7 0xA#4 9#8 0xB#4 9#8) (fun t => t.pc) = some 0x0204#16 ∧
    stepView (start2 0x5AB0 0xA#4 9#8 0xB#4 8#8) (fun t => t.pc) = some 0x0202#16 := by decide
/-- CF17, CF18. -/
theorem test_sneReg : stepView (start2 0x9AB0 0xA#4 9#8 0xB#4 8#8) (fun t => t.pc) = some 0x0204#16 ∧
    stepView (start2 0x9ABF 0xA#4 9#8 0xB#4 9#8) (fun t => t.pc) = some 0x0202#16 := by decide
/-- CF20: no masking to 12 bits. -/
theorem test_jpV0 : stepView ((start 0xBFFF).setV 0#4 0xFF#8) (fun t => t.pc) = some 0x10FE#16 := by decide

/-! ### Loads, arithmetic, logic, shifts: V[A], V[B], VF -/

/-- `V[10]`, `V[11]`, VF. -/
def abf (t : State) : Byte × Byte × Byte := (t.getV 0xA#4, t.getV 0xB#4, t.getV 0xF#4)

/-- A start state of V-ALU. -/
def alu (w : Nat) (a b f : Byte) : State := (start2 w 0xA#4 a 0xB#4 b).setV 0xF#4 f

/-- A1. -/
theorem test_ldByte : stepView (alu 0x6A7F 1#8 0#8 9#8) abf = some (0x7F#8, 0#8, 9#8) := by decide
/-- A2. -/
theorem test_addByte : stepView (alu 0x7A01 0xFF#8 0#8 9#8) abf = some (0#8, 0#8, 9#8) := by decide
/-- A4. -/
theorem test_ldReg : stepView (alu 0x8AB0 1#8 0xC3#8 9#8) abf = some (0xC3#8, 0xC3#8, 9#8) := by decide
/-- A5. -/
theorem test_orReg : stepView (alu 0x8AB1 0x0F#8 0xF0#8 9#8) abf = some (0xFF#8, 0xF0#8, 9#8) := by decide
/-- A6. -/
theorem test_andReg : stepView (alu 0x8AB2 0x3C#8 0x0F#8 9#8) abf = some (0x0C#8, 0x0F#8, 9#8) := by decide
/-- A7. -/
theorem test_xorReg : stepView (alu 0x8AB3 0xFF#8 0x0F#8 9#8) abf = some (0xF0#8, 0x0F#8, 9#8) := by decide
/-- A8, A9. -/
theorem test_addReg : stepView (alu 0x8AB4 0xFF#8 1#8 9#8) abf = some (0#8, 1#8, 1#8) ∧
    stepView (alu 0x8AB4 0x80#8 0x7F#8 9#8) abf = some (0xFF#8, 0x7F#8, 0#8) := by decide
/-- A21: at x = 15 the flag wins. -/
theorem test_addReg_vf : stepView (start2 0x8FE4 0xF#4 0x10#8 0xE#4 0x20#8) (fun t => t.getV 0xF#4) = some 0#8 := by decide
/-- A12, A13. -/
theorem test_sub : stepView (alu 0x8AB5 3#8 0xA#8 1#8) abf = some (0xF9#8, 0xA#8, 0#8) ∧
    stepView (alu 0x8AB5 7#8 7#8 1#8) abf = some (0#8, 7#8, 0#8) := by decide
/-- A28: SUB VE,VF reads the old VF. -/
theorem test_sub_vf : stepView (start2 0x8EF5 0xE#4 9#8 0xF#4 5#8) (fun t => (t.getV 0xE#4, t.getV 0xF#4)) =
    some (4#8, 1#8) := by decide
/-- A14, A16. -/
theorem test_subn : stepView (alu 0x8AB7 3#8 0xA#8 0#8) abf = some (7#8, 0xA#8, 1#8) ∧
    stepView (alu 0x8AB7 7#8 7#8 1#8) abf = some (0#8, 7#8, 0#8) := by decide
/-- A29. -/
theorem test_subn_vf : stepView (start2 0x8EF7 0xE#4 9#8 0xF#4 5#8) (fun t => (t.getV 0xE#4, t.getV 0xF#4)) =
    some (0xFC#8, 0#8) := by decide
/-- A17, A18: the second register is ignored. -/
theorem test_shr : stepView (alu 0x8AB6 1#8 0xEE#8 0#8) abf = some (0#8, 0xEE#8, 1#8) ∧
    stepView (alu 0x8AB6 0xFE#8 0xEF#8 1#8) abf = some (0x7F#8, 0xEF#8, 0#8) := by decide
/-- A19, A20. -/
theorem test_shl : stepView (alu 0x8ABE 0x80#8 1#8 0#8) abf = some (0#8, 1#8, 1#8) ∧
    stepView (alu 0x8ABE 0x7F#8 0x80#8 1#8) abf = some (0xFE#8, 0x80#8, 0#8) := by decide

/-! ### Address register -/

/-- R120. -/
theorem test_ldI : stepView (start 0xAFFF) (fun t => (t.regI, t.pc)) = some (0x0FFF#16, 0x0202#16) := by decide
/-- R121: the sum wraps modulo 65536, VF is untouched. -/
theorem test_addI : stepView (((start 0xF31E).setV 3#4 0x02#8).setI 0xFFFF#16) (fun t => (t.regI, t.getV 0xF#4)) =
    some (1#16, 0#8) := by decide
/-- R122: the digit is not masked, 5 * 0xFF = 0x4FB. -/
theorem test_ldF : stepView ((start 0xF329).setV 3#4 0xFF#8) (fun t => t.regI) = some 0x04FB#16 := by decide

/-! ### Memory blocks -/

/-- B-top, and S6's row for 234. -/
theorem test_ldB : stepView (((start 0xFA33).setV 0xA#4 0x7B#8).setI 0xFFD#16)
      (fun t => (t.mem.readBytes 0xFFD 3, t.pc)) = some ([1#8, 2#8, 3#8], 0x202#16) ∧
    stepView (((start 0xFA33).setV 0xA#4 0xEA#8).setI 0x300#16) (fun t => t.mem.readBytes 0x300 3) =
      some [2#8, 3#8, 4#8] := by decide
/-- B-f1, B-f2. -/
theorem test_ldB_range : stepView (((start 0xFA33).setV 0xA#4 0x7B#8).setI 0xFFE#16)
      (fun t => (stop t, t.mem.readBytes 0xFFE 2)) = some ((0x200#16, .memWriteRange, 0x1000#16), [0#8, 0#8]) ∧
    stepView (((start 0xFA33).setV 0xA#4 0x7B#8).setI 0xFFFF#16) stop =
      some (0x200#16, .memWriteRange, 0xFFFF#16) := by decide
/-- S1. -/
theorem test_ldMemVx : stepView (((((start 0xF255).setV 0#4 0x11#8).setV 1#4 0x22#8).setV 2#4 0x33#8).setI 0x400#16)
      (fun t => (t.mem.readBytes 0x400 4, t.regI)) = some ([0x11#8, 0x22#8, 0x33#8, 0#8], 0x400#16) := by decide
/-- S4. -/
theorem test_ldMemVx_range : stepView ((start 0xFF55).setI 0xFF1#16) stop =
    some (0x200#16, .memWriteRange, 0x1000#16) := by decide
/-- L1. -/
theorem test_ldVxMem : stepView (((put 0x400 [0x11#8, 0x22#8, 0x33#8, 0x44#8] (start 0xF265)).setV 3#4 0x77#8).setI 0x400#16)
      (fun t => (t.getV 0#4, t.getV 1#4, t.getV 2#4, t.getV 3#4, t.regI)) =
    some (0x11#8, 0x22#8, 0x33#8, 0x77#8, 0x400#16) := by decide
/-- L3, L5. -/
theorem test_ldVxMem_range : stepView (((start 0xFF65).setV 0#4 1#8).setI 0xFF1#16) (fun t => (stop t, t.getV 0#4)) =
      some ((0x200#16, .memReadRange, 0x1000#16), 1#8) ∧
    stepView ((start 0xF065).setI 0x8000#16) stop = some (0x200#16, .memReadRange, 0x8000#16) := by decide

/-! ### Random -/

/-- R3 of V-RND: the mask 00 gives 0 whatever the byte, and the byte is consumed (R140). -/
theorem test_rnd_zero : ∃ t, exec (.rnd 0xA#4 0#8) (State.reset.setV 0xA#4 0xEE#8) = .next t ∧
    t.getV 0xA#4 = 0#8 ∧ t.rndCount = 1 := by
  refine ⟨_, rfl, ?_, rfl⟩
  simp [State.drawRnd]
/-- R2 of V-RND: the mask FF passes the byte, whichever it is. -/
theorem test_rnd_pass : ∃ t, exec (.rnd 0xA#4 0xFF#8) State.reset = .next t ∧ t.getV 0xA#4 = Config.rndIn 0 := by
  refine ⟨_, rfl, ?_⟩
  simp only [State.getV_setV, if_true, State.drawRnd]
  exact BitVec.and_allOnes

/-! ### Screen -/

/-- D4: clipped at the right edge and at the bottom. -/
theorem test_drw_clip : stepView ((put 0x300 [0xFF#8, 0xFF#8] (start2 0xD012 0#4 0x3E#8 1#4 0x1F#8)).setI 0x300#16)
    (fun t => (fbRead t 31 61, fbRead t 31 62, fbRead t 31 63, fbRead t 0 62, fbRead t 31 0, t.getV 0xF#4)) =
    some (false, true, true, false, false, 0#8) := by decide
/-- D8: one pixel sets, one collides; the bits run from the most significant. -/
theorem test_drw_collision : stepView ((put 0x300 [0xC0#8] (lit 0 1 (start 0xD011))).setI 0x300#16)
    (fun t => (fbRead t 0 0, fbRead t 0 1, fbRead t 0 2, t.getV 0xF#4)) = some (true, false, false, 1#8) := by decide
/-- D15. -/
theorem test_drw_range : stepView (((start 0xD013).setV 0xF#4 1#8).setI 0xFFE#16) (fun t => (stop t, t.getV 0xF#4)) =
    some ((0x200#16, .memReadRange, 0x1000#16), 1#8) := by decide
/-- D18, D19. -/
theorem test_cls : stepView ((lit 31 63 (lit 5 5 (start 0x00E0))).setV 0xF#4 1#8) (fun t => (t.fb == clearFb Config.taken, t.getV 0xF#4)) =
      some (true, 1#8) ∧ stepView (lit 0 0 (start 0x0000)) (fun t => fbRead t 0 0) = some false := by decide

/-! ### Keys -/

/-- K1, K2. -/
theorem test_skp : stepView (press [10] ((start 0xE49E).setV 4#4 0xA#8)) (fun t => t.pc) = some 0x204#16 ∧
    stepView (press [9, 11] ((start 0xE49E).setV 4#4 0xA#8)) (fun t => t.pc) = some 0x202#16 := by decide
/-- K7. -/
theorem test_skp_range : stepView (press [0] ((start 0xE49E).setV 4#4 0x10#8)) stop =
    some (0x200#16, .keyIndexRange, 0x10#16) := by decide
/-- K3, K6. -/
theorem test_sknp : stepView (press [10] ((start 0xE4A1).setV 4#4 0xA#8)) (fun t => t.pc) = some 0x202#16 ∧
    stepView ((start 0xE4F1).setV 4#4 0xF#8) (fun t => t.pc) = some 0x204#16 := by decide
/-- K8. -/
theorem test_sknp_range : stepView ((start 0xE4A1).setV 4#4 0xFF#8) stop = some (0x200#16, .keyIndexRange, 0xFF#16) := by decide
/-- K10: no key, the timers tick. -/
theorem test_ldVxK_wait : stepView ((((start 0xF30A).setV 3#4 0x55#8).setDt 2#8).setSt 1#8)
    (fun t => (t.pc, t.getV 3#4, t.dt, t.st)) = some (0x200#16, 0x55#8, 1#8, 0#8) := by decide
/-- K11: the lowest key. -/
theorem test_ldVxK_key : stepView (press [3, 9] (((start 0xF30A).setV 3#4 0x55#8).setDt 2#8))
    (fun t => (t.pc, t.getV 3#4, t.dt)) = some (0x202#16, 3#8, 1#8) := by decide

/-! ### Timers -/

/-- T1. -/
theorem test_ldVxDt : stepView (((start 0xF307).setV 3#4 0x55#8).setDt 42#8) (fun t => (t.getV 3#4, t.dt)) =
    some (0x2A#8, 41#8) := by decide
/-- T3, T5. -/
theorem test_ldDtVx : stepView ((start 0xF315).setV 3#4 5#8) (fun t => t.dt) = some 4#8 ∧
    stepView ((start 0xF315).setDt 9#8) (fun t => t.dt) = some 0#8 := by decide
/-- T7, T8. -/
theorem test_ldStVx : stepView (((start 0xF318).setV 3#4 5#8).setDt 3#8) (fun t => (t.st, t.dt, soundActive t)) =
      some (4#8, 2#8, true) ∧
    stepView ((start 0xF318).setV 3#4 1#8) (fun t => (t.st, soundActive t)) = some (0#8, false) := by decide

/-! ### No-ops (V-NOP) and the step -/

/-- The start state of V-NOP. -/
def nopStart (w : Nat) : State := (((alu w 7#8 9#8 1#8).setV 0#4 3#8).setI 0x300#16).setDt 2#8

/-- A no-op word of each family: `pc` and `DT` alone. -/
theorem test_noOps : ∀ w ∈ [0x0123, 0x8AB8, 0xE4A2, 0xF075],
    stepView (nopStart w) (fun t => (t.pc, t.dt, t.getV 0xF#4, t.regI, t.fault)) =
      some (0x202#16, 1#8, 1#8, 0x300#16, .none) := by decide
/-- CF24, CF22: 4094 is the last fetchable address. -/
theorem test_fetch_edge : stepView (State.reset.setPc 0xFFF#16) stop = some (0xFFF#16, .fetchRange, 0xFFF#16) ∧
    stepView ((State.reset.setPc 0xFFE#16).withFetchWord 16 0x6005) (fun t => (t.pc, t.getV 0#4)) =
      some (0x1000#16, 5#8) := by decide
/-- CF26: an odd `pc` is fetched as it is. -/
theorem test_fetch_odd : stepView ((State.reset.setPc 0x201#16).withFetchWord 16 0x6AFF) (fun t => (t.pc, t.getV 0xA#4)) =
    some (0x203#16, 0xFF#8) := by decide
/-- R87: a halted core keeps everything. -/
theorem test_halted : stepView { State.reset with fault := .stackUnderflow, dt := 9#8 } (fun t => (t.dt, stop t)) =
    some (9#8, 0x200#16, .stackUnderflow, 0#16) := by decide
/-- S10 at its boundary, and a small load (V-RST). -/
theorem test_load : (loadProgram Config.taken [0x60#8, 0x2A#8] State.reset).1.mem.readBytes 0x200 2 = [0x60#8, 0x2A#8] ∧
    (loadProgram Config.taken [] State.reset) = (State.reset, false) := by decide
/-- S10: 3585 bytes are refused and nothing is written, 3584 are accepted. -/
theorem test_load_edge : loadProgram Config.taken (.replicate 3585 0x60#8) State.reset = (State.reset, true) ∧
    (loadProgram Config.taken (.replicate 3584 0x60#8) State.reset).2 = false := by
  refine ⟨?_, ?_⟩
  · unfold loadProgram; exact if_pos (by rw [List.length_replicate]; decide)
  · rw [loadProgram_snd, List.length_replicate]; decide
/-- R203: a load comes once, after a reset and before the first step. -/
theorem test_legalMoves : legalMoves .unreset [.reset fun _ => 0, .load [0x12#8, 0x00#8], .keys (.replicate 16 true), .step] = true ∧
    legalMoves .unreset [.step] = false ∧ legalMoves .fresh [.step, .load []] = false ∧
    legalMoves .fresh [.load [], .load []] = false := ⟨rfl, rfl, rfl, rfl⟩
/-- R88's idiom at reset: `12 00` spins, `12 02` does not. -/
theorem test_spinning : spinning (start 0x1200) = true ∧ spinning (start 0x1202) = false := by decide

/-! ### Other configurations (00_scope.md R5) -/

/-- With STACK_DEPTH 1 the second call overflows; with 16 it does not (R91). -/
theorem test_stackDepth : (match stepWith { Config.taken with stackDepth := 1 } (stacked 1 0#16 (start 0x2300)) with
      | .next t => t.fault | _ => .none) = .stackOverflow ∧
    stepView (stacked 1 0#16 (start 0x2300)) (fun t => t.fault) = some .none := by decide

/-- K7 under `mask4`: index 0x10 and 0x0F is key 0, which is pressed. -/
theorem test_mask4 : (match stepWith { Config.taken with keyIndexPolicy := .mask4 } (press [0] ((start 0xE49E).setV 4#4 0x10#8)) with
      | .next t => t.pc | _ => 0) = 0x204#16 := by decide

/-- Another opcode table: with the one row 0x1nnn, 6005 is a no-op and 1ABC still a jump. -/
theorem test_opcodeTable : ∀ w ∈ [(0x6005, 0x202#16), (0x1ABC, 0xABC#16)],
    (match stepWith { Config.taken with opcodeTable := [⟨"JP", 0x1000#16, 0xF000#16, 0, fun w => .jp (fieldNNN w)⟩] } (start w.1) with
      | .next t => t.pc | _ => 0) = w.2 := by decide

/-- A key write (R196) and the rest of the state. -/
theorem test_writeKeys : (writeKeys (.replicate 16 true) State.reset).keys.get 15 = true ∧
    (writeKeys (.replicate 16 true) State.reset).pc = 0x200#16 := by decide

/-! ### Witnesses: for each obligation with hypotheses, values that meet them together, at the boundaries of their ranges -/

/-- A state whose next instruction is the word, at another `pc`. -/
def startAt (pc : Word) (w : Nat) : State := (State.reset.setPc pc).withFetchWord 16 w

/-- What an instruction leaves, through a view. -/
def execView {α : Type} (i : Instr) (s : State) (view : State → α) : Option α :=
  match exec i s with
  | .next t => some (view t)
  | _ => none

theorem stepView_eq_some {α : Type} {s : State} {view : State → α} {a : α} (h : stepView s view = some a) :
    ∃ t, step s = .next t ∧ view t = a := by
  unfold stepView at h
  split at h
  · exact ⟨_, by assumption, by simpa using h⟩
  · cases h

theorem witness_DecodeEncodeRoundTrip : (Instr.drw 0xF#4 0xF#4 0xF#4).wellFormed = true ∧
    (Instr.nop8 0xF#4 0xF#4 0xF#4).wellFormed = true ∧ (Instr.nopF 0xF#4 0xFF#8).wellFormed = true := by decide

theorem witness_CanonicalWordsEncodeBack : isCanonicalWord 0x00E0#16 = true ∧ isCanonicalWord 0x0FFF#16 = true ∧
    isCanonicalWord 0x5AB0#16 = true ∧ isCanonicalWord 0x8A06#16 = true ∧ isCanonicalWord 0xE49E#16 = true ∧
    isCanonicalWord 0xFFFF#16 = true := ⟨rfl, rfl, rfl, rfl, rfl, rfl⟩

theorem witness_AliasesSelectTheCanonicalBehaviour :
    0x0FF0#16 &&& 0xF00F#16 = 0x0000#16 ∧ 0x0FFE#16 &&& 0xF00F#16 = 0x000E#16 ∧ 0x5FFF#16 &&& 0xF000#16 = 0x5000#16 ∧
    0x9FFF#16 &&& 0xF000#16 = 0x9000#16 ∧ 0x8FF6#16 &&& 0xF00F#16 = 0x8006#16 ∧ 0x8FFE#16 &&& 0xF00F#16 = 0x800E#16 ∧
    0xEFFE#16 &&& 0xF00F#16 = 0xE00E#16 ∧ 0xEFF1#16 &&& 0xF00F#16 = 0xE001#16 := by decide

/-- Every `EncodedBy` clause has a word that meets its mask and pattern: families with no secondary key, all operand bits set. -/
theorem witness_EncodedBy_families : ∀ op ∈ [0x1#4, 0x2#4, 0x3#4, 0x4#4, 0x5#4, 0x6#4, 0x7#4, 0x9#4, 0xA#4, 0xB#4, 0xC#4, 0xD#4],
    (op ++ 0xFFF#12) &&& 0xF000#16 = op ++ 0x000#12 := by decide

/-- Keys of one nibble, their ignored and operand bits set. -/
theorem witness_EncodedBy_nibbleKeys :
    (∀ k ∈ [0x0#4, 0xE#4], (0x0FF#12 ++ k) &&& 0xF00F#16 = 0x000#12 ++ k) ∧
    (∀ k ∈ [0x0#4, 0x1#4, 0x2#4, 0x3#4, 0x4#4, 0x5#4, 0x6#4, 0x7#4, 0xE#4], (0x8FF#12 ++ k) &&& 0xF00F#16 = 0x800#12 ++ k) ∧
    (∀ k ∈ [0x1#4, 0xE#4], (0xEFF#12 ++ k) &&& 0xF00F#16 = 0xE00#12 ++ k) := by decide

/-- Keys of one byte. -/
theorem witness_EncodedBy_byteKeys :
    ∀ k ∈ [0x07#8, 0x0A#8, 0x15#8, 0x18#8, 0x1E#8, 0x29#8, 0x33#8, 0x55#8, 0x65#8],
      (0xFF#8 ++ k) &&& 0xF0FF#16 = 0xF0#8 ++ k := by decide

theorem witness_StepRunsTheDecodedInstruction : Running (startAt 0xFFE#16 0x6005) ∧ (startAt 0xFFE#16 0x6005).pc.toNat ≤ 4094 ∧
    instrAt (startAt 0xFFE#16 0x6005) = .ldByte 0#4 5#8 := by decide

theorem witness_FetchReadsTwoBytesBigEndian : (startAt 0xFFE#16 0x6005).pc.toNat ≤ 4094 ∧
    fetchWord Config.taken (startAt 0xFFE#16 0x6005) = some 0x6005#16 := by decide

theorem witness_FetchPastMemoryFaults : Running (State.reset.setPc 0xFFF#16) ∧ 4095 ≤ (State.reset.setPc 0xFFF#16).pc.toNat ∧
    (State.reset.setPc 0xFFE#16).pc.toNat ≤ 4094 := by decide

theorem witness_HaltedCoreIgnoresSteps : (State.reset.takeFault 0x200#16 .stackUnderflow 0#16).fault ≠ .none := by decide

/-- One step that stays running, and one that faults. -/
theorem witness_TimersTickOncePerStep :
    (∃ t, step ((start 0x0123).setDt 3#8) = .next t ∧ (Running ((start 0x0123).setDt 3#8) ∧ Running t)) ∧
    (∃ t, step ((start 0x00EE).setDt 3#8) = .next t ∧ (Running ((start 0x00EE).setDt 3#8) ∧ t.fault ≠ .none)) := by
  constructor
  · obtain ⟨t, h1, h2⟩ := stepView_eq_some (show stepView ((start 0x0123).setDt 3#8) (fun t => t.fault) = some .none by decide)
    exact ⟨t, h1, by decide, h2⟩
  · obtain ⟨t, h1, h2⟩ := stepView_eq_some (show stepView ((start 0x00EE).setDt 3#8) (fun t => t.fault) = some .stackUnderflow by decide)
    exact ⟨t, h1, by decide, by rw [h2]; decide⟩

/-- Running states that meet each row of the fault table, at its boundary, and the row beside it that does not fault. -/
theorem witness_FaultsAreExactlyTheTableAndPrecise :
    Running (start 0xD013) ∧
    stepFault (State.reset.setPc 0xFFF#16) = some (.fetchRange, 0xFFF) ∧ stepFault (State.reset.setPc 0xFFE#16) = none ∧
    stepFault ((start 0xD013).setI 0xFFE#16) = some (.memReadRange, 4096) ∧ stepFault ((start 0xD013).setI 0xFFD#16) = none ∧
    stepFault ((start 0xD010).setI 0xFFFF#16) = none ∧
    stepFault ((start 0xFF65).setI 0xFF1#16) = some (.memReadRange, 4096) ∧ stepFault ((start 0xFF65).setI 0xFF0#16) = none ∧
    stepFault ((start 0xFA33).setI 0xFFE#16) = some (.memWriteRange, 4096) ∧ stepFault ((start 0xFA33).setI 0xFFD#16) = none ∧
    stepFault ((start 0xFF55).setI 0xFF1#16) = some (.memWriteRange, 4096) ∧ stepFault ((start 0xFF55).setI 0xFF0#16) = none ∧
    stepFault (stacked 16 0#16 (start 0x2300)) = some (.stackOverflow, 16) ∧ stepFault (stacked 15 0#16 (start 0x2300)) = none ∧
    stepFault (start 0x00EE) = some (.stackUnderflow, 0) ∧ stepFault (stacked 1 0#16 (start 0x00EE)) = none ∧
    stepFault ((start 0xE49E).setV 4#4 0x10#8) = some (.keyIndexRange, 16) ∧ stepFault ((start 0xE49E).setV 4#4 0xF#8) = none := by
  decide

theorem memoryOk_start (w : Nat) : MemoryOk (start w) := by
  unfold start State.withFetchWord placeWord
  split
  · rename_i t h
    obtain ⟨hr, rfl⟩ := State.writeRange_eq_some.mp h
    exact Memory.wfBelow_writeBytes (Memory.wfBelow_nil _) _ (.inr (by simp [bytesOfWord, State.reset]))
  · exact Memory.wfBelow_nil _

theorem witness_StepKeepsMemoryCanonical : MemoryOk (start 0xF155) ∧ ∃ t, step (start 0xF155) = .next t :=
  ⟨memoryOk_start _, _, rfl⟩

/-- The largest `pc`, and a full stack of the largest return address. -/
theorem witness_StepKeepsPcInRange : PcOk (stacked 16 0x1000#16 (State.reset.setPc 0x10FE#16)) ∧
    ∃ t, step (stacked 16 0x1000#16 (State.reset.setPc 0x10FE#16)) = .next t := by
  refine ⟨⟨by decide, fun k _ => ?_⟩, _, rfl⟩
  simp only [State.entry, stacked, List.getElem?_replicate]
  split <;> decide

theorem shapeOk_reset : ShapeOk State.reset := ⟨by decide, rfl, Framebuffer.sized_clearFb Config.taken⟩

/-- A full stack, and a configuration of other sizes. -/
theorem witness_StepKeepsTheShape : ShapeOk (stacked 16 0#16 State.reset) ∧
    (∃ t, step (stacked 16 0#16 State.reset) = .next t) ∧
    ShapeOkFor { Config.taken with fbWidth := 128, fbHeight := 1, stackDepth := 12 }
      (resetFor { Config.taken with fbWidth := 128, fbHeight := 1, stackDepth := 12 }) :=
  ⟨⟨by decide, rfl, shapeOk_reset.2.2⟩, ⟨_, rfl⟩, Nat.zero_le _, rfl, Framebuffer.sized_clearFb _⟩

/-- A core at the values taken with a word to fetch; a table with no row gives the word none. -/
theorem witness_StepIsTheConfiguredStepAtTheValuesTaken : Running (startAt 0xFFE#16 0x6005) ∧
    (startAt 0xFFE#16 0x6005).pc.toNat + 1 < Config.taken.memSize ∧
    (0x6005#16 = wordOfBytes ((startAt 0xFFE#16 0x6005).readByte 0xFFE) ((startAt 0xFFE#16 0x6005).readByte 0xFFF)) ∧
    decodeByTable Config.taken.opcodeTable 0x6005#16 = some (.ldByte 0#4 5#8) ∧
    decodeByTable ({ Config.taken with opcodeTable := [] } : Config).opcodeTable 0x6005#16 = none :=
  ⟨by decide, by decide, by decide, rfl, rfl⟩

/-- A load of the largest image and a key write, at the values taken. -/
theorem witness_EveryHostMoveKeepsTheInvariants : Config.taken.progTop ≤ Config.taken.memSize ∧ MemoryOkFor Config.taken State.reset ∧
    ShapeOkFor Config.taken State.reset ∧ PcOk State.reset ∧
    (∃ t, applyMove Config.taken (.load (.replicate 3584 0xFF#8)) State.reset = .next t) ∧
    (∃ t, applyMove Config.taken (.keys (.replicate 16 true)) State.reset = .next t) ∧
    (∃ t, applyMove Config.taken .step State.reset = .next t) :=
  ⟨by decide, Memory.wfBelow_nil _, shapeOk_reset, ⟨by decide, fun _ h => absurd h (Nat.not_lt_zero _)⟩, ⟨_, rfl⟩, ⟨_, rfl⟩, _, rfl⟩

/-- Another font at another place, in its last byte and beside it. -/
theorem witness_ResetInstallsTheFont : ∃ cfg : Config, cfg = { Config.taken with font := [0xAA#8, 0x55#8], fontBase := 0x50 } ∧
    1 < cfg.font.length ∧ cfg.fontBase + 1 < cfg.memSize ∧ 0x52 < cfg.memSize ∧ cfg.fontBase + cfg.font.length ≤ 0x52 ∧
    0x4F < cfg.fontBase ∧ 15 < 16 := ⟨_, rfl, by decide, by decide, by decide, by decide, by decide, by decide⟩

theorem witness_KeyWriteSetsTheLatchAlone : ∃ t, step (press [15] State.reset) = .next t := ⟨_, rfl⟩

theorem witness_ResetLeavesTheListedValues : (List.replicate 3584 0xFF#8).length ≤ 3584 ∧ 4095 < 4096 ∧
    79 < standardFont.length ∧ ¬ 80 < standardFont.length := ⟨by rw [List.length_replicate], by decide, by decide, by decide⟩

theorem witness_ProgramLoadIsAllOrNothing : MemoryOk State.reset ∧ (List.replicate 3584 0xFF#8).length ≤ 3584 ∧
    3584 < (List.replicate 3585 0xFF#8).length :=
  ⟨Memory.wfBelow_nil _, by rw [List.length_replicate], by rw [List.length_replicate]; decide⟩

theorem witness_OnlyDestinationRegistersChange : (∃ t, exec (.addReg 1#4 2#4) State.reset = .next t) ∧
    3#4 ∉ destRegs (.addReg 1#4 2#4) ∧ writesFlag (.addReg 1#4 2#4) = true ∧ 3#4 ≠ 0xF#4 ∧
    0xE#4 ∈ destRegs (.ldVxMem 0xE#4) ∧ 0xF#4 ∉ destRegs (.ldVxMem 0xE#4) ∧ writesFlag (.ldVxMem 0xE#4) = false :=
  ⟨⟨_, rfl⟩, by decide⟩

theorem witness_FlagIsWrittenByExactlySixInstructions :
    (∃ t, Running State.reset ∧ exec (.shl 0xF#4) State.reset = .next t ∧ Running t) ∧ writesFlag (.shl 0xF#4) = true ∧
    (∃ t, Running State.reset ∧ exec (.orReg 1#4 2#4) State.reset = .next t ∧ Running t) ∧
    writesFlag (.orReg 1#4 2#4) = false ∧ 0xF#4 ∉ destRegs (.orReg 1#4 2#4) :=
  ⟨⟨_, rfl, rfl, rfl⟩, rfl, ⟨_, rfl, rfl, rfl⟩, rfl, by decide⟩

/-- An instruction that changes each piece: the framebuffer, the stack, memory, `I`, the timers, the random count. -/
theorem witness_EachPieceIsWrittenOnlyByItsInstructions :
    execView .cls (lit 0 0 State.reset) (fun t => decide (t.fb ≠ (lit 0 0 State.reset).fb)) = some true ∧
    execView (.call 0x300#12) State.reset (fun t => decide (t.sp ≠ State.reset.sp ∧ t.stack ≠ State.reset.stack)) = some true ∧
    execView (.ldB 0#4) State.reset (fun t => decide (t.mem ≠ State.reset.mem)) = some true ∧
    execView (.ldI 1#12) State.reset (fun t => decide (t.regI ≠ State.reset.regI)) = some true ∧
    execView (.ldDtVx 0#4) (State.reset.setDt 1#8) (fun t => decide (t.dt ≠ 1#8)) = some true ∧
    execView (.ldStVx 0#4) (State.reset.setSt 1#8) (fun t => decide (t.st ≠ 1#8)) = some true ∧
    execView (.rnd 0#4 0#8) State.reset (fun t => decide (t.rndCount ≠ State.reset.rndCount)) = some true := by decide

theorem witness_LatchesAndOutputsAreReadOnlyByTheirInstructions :
    (∃ t, exec (.addReg 1#4 2#4) State.reset = .next t) ∧
    (∀ x, Instr.addReg 1#4 2#4 ≠ .skp x ∧ Instr.addReg 1#4 2#4 ≠ .sknp x ∧ Instr.addReg 1#4 2#4 ≠ .ldVxK x) ∧
    (Instr.addReg 1#4 2#4 ≠ .cls ∧ ∀ x y n, Instr.addReg 1#4 2#4 ≠ .drw x y n) := ⟨⟨_, rfl⟩, by simp, by simp⟩

/-- A word of each of the four families, a well-formed term of each row, and a state at the last address a fetch can read. -/
theorem witness_NoOpOnlyAdvancesAndTicks :
    (0x0FFF / 4096 = 0x0 ∧ 0x0FFF % 16 ∉ [0x0, 0xE]) ∧
    (0x8AB8 / 4096 = 0x8 ∧ 0x8AB8 % 16 ∉ [0x0, 0x1, 0x2, 0x3, 0x4, 0x5, 0x6, 0x7, 0xE]) ∧
    (0xE4A2 / 4096 = 0xE ∧ 0xE4A2 % 16 ∉ [0xE, 0x1]) ∧
    (0xF075 / 4096 = 0xF ∧ 0xF075 % 256 ∉ [0x07, 0x0A, 0x15, 0x18, 0x1E, 0x29, 0x33, 0x55, 0x65]) ∧
    (Instr.nop0 0xFFF#12).wellFormed = true ∧ (Instr.nop8 0#4 0#4 0x8#4).wellFormed = true ∧
    (Instr.nopE 0#4 0#4 0x2#4).wellFormed = true ∧ (Instr.nopF 0#4 0x75#8).wellFormed = true ∧
    Running (startAt 0xFFE#16 0xE4A2) ∧ (startAt 0xFFE#16 0xE4A2).pc.toNat ≤ 4094 ∧
    isNoOp (instrAt (startAt 0xFFE#16 0xE4A2)) = true := by decide

theorem witness_JumpToSelfSpins : Running (startAt 0xFFE#16 0x1FFE) ∧ (startAt 0xFFE#16 0x1FFE).pc.toNat ≤ 4094 ∧
    instrAt (startAt 0xFFE#16 0x1FFE) = .jp ((startAt 0xFFE#16 0x1FFE).pc.extractLsb' 0 12) := by decide

theorem witness_JpV0AddsV0WithoutMasking : Config.taken.bnnnDefined = true ∧
    ({ Config.taken with bnnnDefined := false } : Config).bnnnDefined = false := by decide

theorem witness_CallPushesTheReturnAddress : ShapeOk (stacked 15 0#16 State.reset) ∧ (stacked 15 0#16 State.reset).sp < 16 ∧ State.reset.sp < 16 ∧
    (stacked 16 0#16 State.reset).sp = 16 := by decide

theorem witness_RetPopsTheReturnAddress : 0 < (stacked 1 0#16 State.reset).sp ∧ 0 < (stacked 16 0#16 State.reset).sp ∧
    State.reset.sp = 0 := by decide

/-- S9, with the stack one short of full. -/
def callRet : State := put 0x300 [0x00#8, 0xEE#8] (stacked 15 0x0400#16 (start 0x2300))

theorem witness_CallThenReturnComesBack : ShapeOk callRet ∧ Running callRet ∧ callRet.pc.toNat ≤ 4094 ∧ callRet.sp < 16 ∧
    instrAt callRet = .call 0x300#12 ∧ (0x300#12).toNat ≤ 4094 ∧
    decode (wordOfBytes (callRet.readByte (0x300#12).toNat) (callRet.readByte ((0x300#12).toNat + 1))) = .ret := by decide

/-- `x ≠ 15` in the results of 8xy4, 8xy5, 8xy6, 8xy7 and 8xyE. -/
theorem witness_DestinationOtherThanVf : (0xE#4 : RegIdx) ≠ 0xF#4 := by decide

theorem memoryOk_setI (w : Word) : MemoryOk (State.reset.setI w) := Memory.wfBelow_nil _

theorem witness_BcdWritesThreeDigits : MemoryOk (State.reset.setI 0xFFD#16) ∧ (State.reset.setI 0xFFD#16).addrI + 2 ≤ 4095 ∧
    4095 < (State.reset.setI 0xFFE#16).addrI + 2 := ⟨memoryOk_setI _, by decide⟩

theorem witness_BulkStoreWritesV0ToVx : MemoryOk (State.reset.setI 0xFF0#16) ∧
    (State.reset.setI 0xFF0#16).addrI + (0xF#4).toNat ≤ 4095 ∧ (State.reset.setI 0xFFF#16).addrI + (0x0#4).toNat ≤ 4095 ∧
    4095 < (State.reset.setI 0xFF1#16).addrI + (0xF#4).toNat := ⟨memoryOk_setI _, by decide⟩

theorem witness_BulkLoadReadsV0ToVx : (State.reset.setI 0xFF0#16).addrI + (0xF#4).toNat ≤ 4095 ∧
    4095 < (State.reset.setI 0xFF1#16).addrI + (0xF#4).toNat := by decide

theorem witness_BulkStoreThenLoadGivesBackV0ToVx : MemoryOk (State.reset.setI 0xFF0#16) ∧
    (State.reset.setI 0xFF0#16).addrI + (0xF#4).toNat ≤ 4095 ∧
    ∃ t, exec (.ldMemVx 0xF#4) (State.reset.setI 0xFF0#16) = .next t ∧ ∃ u : State, u.mem = t.mem ∧ u.regI = t.regI :=
  ⟨memoryOk_setI _, by decide, _, rfl, _, rfl, rfl⟩

theorem witness_StoredWordIsTheNextFetched : MemoryOk ((start 0xFF55).setI 0x202#16) ∧ Running ((start 0xFF55).setI 0x202#16) ∧
    ((start 0xFF55).setI 0x202#16).pc.toNat ≤ 4092 ∧ instrAt ((start 0xFF55).setI 0x202#16) = .ldMemVx 0xF#4 ∧ 1 ≤ (0xF#4).toNat ∧
    ((start 0xFF55).setI 0x202#16).addrI = ((start 0xFF55).setI 0x202#16).pc.toNat + 2 ∧
    ((start 0xFF55).setI 0x202#16).addrI + (0xF#4).toNat ≤ 4095 := ⟨memoryOk_start _, by decide⟩

/-- The boundaries of the sprite's range; a cell hit that was lit (D8); no cell hit that was lit. -/
theorem witness_DrawXorsTheSprite : ShapeOk State.reset ∧
    ((0x0#4).toNat = 0 ∨ (State.reset.setI 0xFFFF#16).addrI + (0x0#4).toNat - 1 ≤ 4095) ∧
    ((0xF#4).toNat = 0 ∨ (State.reset.setI 0xFF1#16).addrI + (0xF#4).toNat - 1 ≤ 4095) ∧
    (0 < (0xF#4).toNat ∧ 4095 < (State.reset.setI 0xFF2#16).addrI + (0xF#4).toNat - 1) ∧
    (spriteBit Config.taken (lit 0 0 State.reset) 0#4 1#4 5#4 0 0 = true ∧ Framebuffer.cell (lit 0 0 State.reset).fb 0 0 = true) ∧
    (∀ r c, spriteBit Config.taken State.reset 0#4 1#4 5#4 r c = true → Framebuffer.cell State.reset.fb r c = false) := by
  refine ⟨shapeOk_reset, by decide, by decide, by decide, by decide, fun r c _ => ?_⟩
  exact cell_clearFb Config.taken r c

/-- A drawn glyph; and a sprite of no rows, which has no set bit. -/
theorem witness_DrawingTwiceRestoresTheScreen : ShapeOk State.reset ∧ 0x0#4 ≠ 0xF#4 ∧ 0xE#4 ≠ 0xF#4 ∧
    (0x5#4).toNat ≠ 0 ∧ State.reset.addrI + (0x5#4).toNat - 1 ≤ 4095 ∧ spriteBit Config.taken State.reset 0#4 0xE#4 5#4 0 0 = true ∧
    (∀ r c, spriteBit Config.taken State.reset 0#4 0xE#4 0#4 r c = false) := by
  refine ⟨shapeOk_reset, by decide, by decide, by decide, by decide, by decide, fun r c => ?_⟩
  simp [spriteBit]
  omega

/-- The values taken but for `wrap`; a pixel that wraps to column 0, where clipping drops it; and the smallest framebuffer. -/
theorem witness_DrawUnderWrapPolicy : ({ Config.taken with edgePolicy := .wrap } : Config).edgePolicy = .wrap ∧
    8 ≤ Config.taken.fbWidth ∧ (0xF#4).toNat ≤ Config.taken.fbHeight ∧ ShapeOk State.reset ∧
    (State.reset.setI 0xFF1#16).addrI + (0xF#4).toNat ≤ Config.taken.memSize ∧
    spriteBitWrapped Config.taken ((State.reset.setV 0#4 0x3D#8).setV 1#4 0x1F#8) 0#4 1#4 5#4 31 0 = true ∧
    spriteBit Config.taken ((State.reset.setV 0#4 0x3D#8).setV 1#4 0x1F#8) 0#4 1#4 5#4 31 0 = false ∧
    ShapeOkFor { Config.taken with edgePolicy := .wrap, fbWidth := 8, fbHeight := 1 } { State.reset with fb := [.replicate 8 true] } :=
  ⟨rfl, by decide, by decide, shapeOk_reset, by decide, by decide, by decide, by decide⟩

theorem witness_KeySkipsTestTheIndexedKey : ((State.reset.setV 4#4 0xF#8).getV 4#4).toNat = (15 : Fin 16).val ∧
    15 < ((State.reset.setV 4#4 0x10#8).getV 4#4).toNat := by decide

theorem witness_KeyIndexPoliciesDifferOnlyAboveFifteen : Config.taken.keyIndexPolicy = .fault ∧
    ({ Config.taken with keyIndexPolicy := .mask4 } : Config).keyIndexPolicy = .mask4 ∧
    ((State.reset.setV 4#4 0xF#8).getV 4#4).toNat ≤ 15 ∧ 15 < ((State.reset.setV 4#4 0x10#8).getV 4#4).toNat ∧
    (0 : Fin 16).val = ((State.reset.setV 4#4 0x10#8).getV 4#4).toNat % 16 := by decide

theorem witness_WaitForKeyTakesTheLowestKey :
    ((press [15] State.reset).keys.get 15 = true ∧ ∀ j : Fin 16, j < 15 → (press [15] State.reset).keys.get j = false) ∧
    ((press [0, 15] State.reset).keys.get 0 = true ∧ ∀ j : Fin 16, j < 0 → (press [0, 15] State.reset).keys.get j = false) ∧
    (∀ k, State.reset.keys.get k = false) := by decide

theorem witness_TimerSetInAStepIsTickedInIt : Running (start 0xF315) ∧ (start 0xF315).pc.toNat ≤ 4094 ∧
    instrAt (start 0xF315) = .ldDtVx 3#4 ∧ instrAt (start 0xF318) = .ldStVx 3#4 ∧ instrAt (start 0xF307) = .ldVxDt 3#4 := by decide

end Sys2Proof.Tests
end

/-! Proofs about the opcode table as data (30_encoding.md R64, R66, R73): it selects one row for each word, and that row
builds what the two-level lookup decodes. -/

namespace Sys2Proof

/-! ### When a row matches, in fields of the word -/

section Rows
variable {p : Word} (m : String) (pr : Nat) (b : Word → Instr) (w : Word)

/-- A row with mask 0xF000 compares the high nibble. -/
@[simp] theorem OpcodeRow.matchesWord_F000 (hp : p &&& 0xF000#16 = p) :
    OpcodeRow.matchesWord ⟨m, p, 0xF000#16, pr, b⟩ w = decide (fieldOp w = p.extractLsb' 12 4) := by
  refine Bool.eq_iff_iff.mpr ?_
  simp only [OpcodeRow.matchesWord, beq_iff_eq, decide_eq_true_eq]
  refine ⟨fields_of_F000, fun (h : fieldOp w = fieldOp p) => ?_⟩
  rw [and_F000, h, ← and_F000, hp]

/-- A row with mask 0xF00F compares the high and the low nibble. -/
@[simp] theorem OpcodeRow.matchesWord_F00F (hp : p &&& 0xF00F#16 = p) :
    OpcodeRow.matchesWord ⟨m, p, 0xF00F#16, pr, b⟩ w =
      decide (fieldOp w = p.extractLsb' 12 4 ∧ fieldN w = p.extractLsb' 0 4) := by
  refine Bool.eq_iff_iff.mpr ?_
  simp only [OpcodeRow.matchesWord, beq_iff_eq, decide_eq_true_eq]
  refine ⟨fields_of_F00F, fun ⟨(hop : fieldOp w = fieldOp p), (hn : fieldN w = fieldN p)⟩ => ?_⟩
  rw [and_F00F, hop, hn, ← and_F00F, hp]

/-- A row with mask 0xF0FF compares the high nibble and the low byte. -/
@[simp] theorem OpcodeRow.matchesWord_F0FF (hp : p &&& 0xF0FF#16 = p) :
    OpcodeRow.matchesWord ⟨m, p, 0xF0FF#16, pr, b⟩ w =
      decide (fieldOp w = p.extractLsb' 12 4 ∧ fieldKK w = p.extractLsb' 0 8) := by
  refine Bool.eq_iff_iff.mpr ?_
  simp only [OpcodeRow.matchesWord, beq_iff_eq, decide_eq_true_eq]
  refine ⟨fields_of_F0FF, fun ⟨(hop : fieldOp w = fieldOp p), (hkk : fieldKK w = fieldKK p)⟩ => ?_⟩
  rw [and_F0FF, hop, hkk, ← and_F0FF, hp]

end Rows

/-! ### The row a word selects -/

/-- Decoding by a table takes the first of the rows the word selects. -/
theorem decodeByTable_eq_head? (table : List OpcodeRow) (w : Word) :
    decodeByTable table w = ((selectedRows table w).map fun r => r.build w).head? := by
  simp only [decodeByTable, selectedRows, ← List.head?_filter]
  cases table.filter fun r => r.priority == 0 && r.matchesWord w <;> simp

/-- The rows of one family, by the high nibble of their patterns (R65). -/
def familyRows (op : Nibble) : List OpcodeRow := opcodeTable.filter fun r => r.pattern.extractLsb' 12 4 == op

/-- Every mask of the spec's table compares the high nibble, so a row matches words of its own family alone. -/
theorem OpcodeRow.family_of_matchesWord {r : OpcodeRow} (hr : r ∈ opcodeTable) {w : Word} (h : r.matchesWord w = true) :
    r.pattern.extractLsb' 12 4 = fieldOp w := by
  have hmask : ∀ r ∈ opcodeTable, r.mask.extractLsb' 12 4 = BitVec.allOnes 4 := by decide
  rw [← beq_iff_eq.mp h, BitVec.extractLsb'_and, hmask r hr, BitVec.and_allOnes]
  rfl

theorem filter_familyRows (pred : OpcodeRow → Bool) (w : Word) :
    (familyRows (fieldOp w)).filter (fun r => pred r && r.matchesWord w) =
      opcodeTable.filter fun r => pred r && r.matchesWord w := by
  rw [familyRows, List.filter_filter]
  refine List.filter_congr fun r hr => ?_
  cases h : r.matchesWord w
  · simp
  · simp [OpcodeRow.family_of_matchesWord hr h]

/-- Level one of the lookup on the table (R64): the family alone decides which rows a word selects. -/
theorem selectedRows_familyRows (w : Word) : selectedRows (familyRows (fieldOp w)) w = selectedRows opcodeTable w := by
  have hall := filter_familyRows (fun _ => true) w
  simp only [Bool.true_and] at hall
  rw [selectedRows, selectedRows, filter_familyRows, hall]

/-- Each word selects one row of the spec's table, and that row builds the instruction the lookup by nibbles gives: the
branches of the lookup are the rows, its fall-through branches the rows of priority 1. -/
theorem build_selectedRows_opcodeTable (w : Word) :
    (selectedRows opcodeTable w).map (fun r => r.build w) = [decode w] := by
  rw [← selectedRows_familyRows]
  unfold decode
  split
  -- level two: the keyed families 0, 8, E and F split by their secondary key
  case' h_1 => unfold decodeFamily0; split
  case' h_9 => unfold decodeFamily8; split
  case' h_15 => unfold decodeFamilyE; split
  case' h_16 =>
    have hop : fieldOp w = 0xF#4 := by generalize fieldOp w = op at *; decide +revert
    clear * - hop
    unfold decodeFamilyF; split
  all_goals
    simp_all [selectedRows, familyRows, opcodeTable, opcodeRowsLow, opcodeRows8, opcodeRowsHigh,
      opcodeRowsF, opcodeRowsNop]

/-- The opcode table and the lookup by nibbles decode alike (R64, R73). -/
theorem decodeByTable_opcodeTable (w : Word) : decodeByTable opcodeTable w = some (decode w) := by
  rw [decodeByTable_eq_head?, build_selectedRows_opcodeTable, List.head?_cons]

/-! ### The decoder of a configuration (R66) -/

theorem Config.decode_of_row {cfg : Config} {w : Word} {i : Instr} (h : decodeByTable cfg.opcodeTable w = some i) :
    cfg.decode w = i := by
  rw [Config.decode, h, Option.getD_some]

/-- A word no row matches is a no-op (R70, log entry 22). -/
theorem Config.decode_of_no_row {cfg : Config} {w : Word} (h : decodeByTable cfg.opcodeTable w = none) :
    cfg.decode w = .nop0 (fieldNNN w) := by
  rw [Config.decode, h, Option.getD_none]

@[simp] theorem Config.taken_decode (w : Word) : Config.taken.decode w = Sys2Proof.decode w :=
  Config.decode_of_row (decodeByTable_opcodeTable w)

end Sys2Proof

namespace Sys2Proof.Machine

theorem stepWith_taken (s : State) : stepWith Config.taken s = step s := by
  have hd : Config.taken.decode = decode := funext Config.taken_decode
  have he : execWith Config.taken = exec := funext₂ execWith_taken
  rw [stepWith, step, hd, he]

/-- A running core with a word to fetch runs what its configuration decodes, under its configuration (R80). -/
theorem stepWith_running {cfg : Config} {s : State} {w : Word} (hf : s.fault = .none) (hw : fetchWord cfg s = some w) :
    stepWith cfg s = finishResult (execWith cfg (cfg.decode w) s.advance) :=
  stepPhases_running hf hw

/-- Under any configuration a no-op leaves the state after fetch (R85). -/
@[simp] theorem execWith_nop0 (cfg : Config) (nnn : Addr12) (s : State) : execWith cfg (.nop0 nnn) s = .next s := rfl

end Sys2Proof.Machine

namespace Sys2Proof.Proofs
open Sys2Proof Sys2Proof.Machine Sys2Proof.Safety

/-- Settles O11: the configured table and execute are those of `step` at the values taken; elsewhere the fetched word
runs as its row says, or as the no-op where it has none. -/
theorem stepIsTheConfiguredStepAtTheValuesTaken : Obligations.StepIsTheConfiguredStepAtTheValuesTaken := by
  unfold Obligations.StepIsTheConfiguredStepAtTheValuesTaken
  refine ⟨stepWith_taken, fun cfg s hrun hpc w hw => ?_⟩
  have hstep := stepWith_running hrun (fetchWord_eq_some.mpr ⟨hpc, hw⟩)
  constructor
  · intro i hrow
    rw [hstep, Config.decode_of_row hrow]
    rfl
  · intro hrow
    rw [hstep, Config.decode_of_no_row hrow, execWith_nop0]
    rfl

end Sys2Proof.Proofs

/-! Proofs about the state rules of 10_state.md: what execute does to each piece of the state, said once for every
instruction, and from it the invariants of the step, the frames, and the reset. -/

namespace Sys2Proof.Machine
open Sys2Proof.Safety

/-! ### What execute can do -/

/-- What an instruction that answers `next t` can have done to the state `s` after fetch: one constructor per way to
change the state, with the instructions that may change it so. -/
inductive ExecEffect (cfg : Config) (s : State) : Instr → State → Prop where
  /-- raised a fault (R183) -/
  | fault {i : Instr} {c : Cause} {info : Word} (hc : c ≠ .none) :
      ExecEffect cfg s i (s.takeFault (s.pc - instrWidth) c info)
  /-- left everything as it was (R85) -/
  | noOp {i : Instr} (hf : writesFlag i = false) : ExecEffect cfg s i s
  /-- skipped the next instruction, or did not (R98) -/
  | skip {i : Instr} {c : Bool} (hf : writesFlag i = false) : ExecEffect cfg s i (s.skipIf c)
  /-- gone back onto the instruction, waiting for a key (R162) -/
  | wait {x : RegIdx} : ExecEffect cfg s (.ldVxK x) s.retarget
  /-- jumped, at most to the largest target of JP V0 (R90, R97) -/
  | jump {i : Instr} {w : Word} (hf : writesFlag i = false) (hw : w.toNat ≤ 0x10FE) : ExecEffect cfg s i (s.setPc w)
  /-- pushed the return address and jumped (R91) -/
  | call {nnn : Addr12} (hsp : s.sp < cfg.stackDepth) :
      ExecEffect cfg s (.call nnn) (State.setPc { s with stack := s.stack.set s.sp s.pc, sp := s.sp + 1 } (zext12 nnn))
  /-- popped the return address (R92) -/
  | ret (hsp : 0 < s.sp) : ExecEffect cfg s .ret (State.setPc { s with sp := s.sp - 1 } (s.entry (s.sp - 1)))
  /-- written its destination register (R101 to R106, R162, R170) -/
  | setV {i : Instr} {x : RegIdx} {b : Byte} (hx : x ∈ destRegs i) (hf : writesFlag i = false) :
      ExecEffect cfg s i (s.setV x b)
  /-- written its destination register and then VF (R113) -/
  | setFlagged {i : Instr} {x : RegIdx} {r : Byte × Bool} (hx : x ∈ destRegs i) (hf : writesFlag i = true) :
      ExecEffect cfg s i (s.setFlagged x r)
  /-- consumed a random byte and written its destination register (R140) -/
  | rnd {x : RegIdx} {kk b : Byte} : ExecEffect cfg s (.rnd x kk) (s.drawRnd.2.setV x b)
  /-- loaded V0 to Vx (R132) -/
  | loadRegs {x : RegIdx} {bs : List Byte} (hlen : bs.length = x.toNat + 1) : ExecEffect cfg s (.ldVxMem x) (s.loadRegs bs)
  /-- stored bytes from `I` on, all of them inside memory (R130, R131) -/
  | store {i : Instr} {bs : List Byte} (hi : ∃ x, i = .ldB x ∨ i = .ldMemVx x)
      (hr : bs = [] ∨ s.addrI + bs.length ≤ cfg.memSize) :
      ExecEffect cfg s i { s with mem := s.mem.writeBytes s.addrI bs }
  /-- cleared the framebuffer (R151) -/
  | cls : ExecEffect cfg s .cls (s.setFb (clearFb cfg))
  /-- drawn a sprite and written the collision flag (R150) -/
  | drw {x y : RegIdx} {n : Nibble} {ox oy : Nat} {bs : List Byte} {c : Bool} :
      ExecEffect cfg s (.drw x y n) ((s.setFb (drawRows cfg ox bs oy (s.fb, false)).1).setV vf (flagByte c))
  /-- written the address register (R120 to R122) -/
  | setI {i : Instr} {w : Word} (hi : (∃ nnn, i = .ldI nnn) ∨ ∃ x, i = .addI x ∨ i = .ldF x) :
      ExecEffect cfg s i (s.setI w)
  /-- written the delay timer (R171) -/
  | setDt {x : RegIdx} {b : Byte} : ExecEffect cfg s (.ldDtVx x) (s.setDt b)
  /-- written the sound timer (R172) -/
  | setSt {x : RegIdx} {b : Byte} : ExecEffect cfg s (.ldStVx x) (s.setSt b)

section Effects
variable {cfg : Config} {s t : State} {i : Instr}

/-- A raise that answers `t` has written the latch (R183). -/
theorem ExecEffect.of_raise {c : Cause} {info : Word} (hc : c ≠ .none) (h : raise c info s = .next t) :
    ExecEffect cfg s i t := by
  cases h
  exact .fault hc

theorem callTo_effect {nnn : Addr12} (h : callTo cfg nnn s = .next t) : ExecEffect cfg s (.call nnn) t := by
  unfold callTo at h
  split at h
  · rename_i u hu
    obtain ⟨hsp, rfl⟩ := State.push_eq_some.mp hu
    cases h
    exact .call hsp
  · exact .of_raise (by decide) h

theorem execRet_effect (h : execRet s = .next t) : ExecEffect cfg s .ret t := by
  unfold execRet at h
  split at h
  · rename_i w u hu
    obtain ⟨hsp, rfl, rfl⟩ := State.pop_eq_some.mp hu
    cases h
    exact .ret hsp
  · exact .of_raise (by decide) h

/-- The target of JP V0 is at most 0xFFF + 0xFF (R97). -/
theorem jumpV0_effect {nnn : Addr12} (h : jumpV0 cfg nnn s = .next t) : ExecEffect cfg s (.jpV0 nnn) t := by
  unfold jumpV0 at h
  split at h
  · cases h
    refine .jump rfl ?_
    have := nnn.isLt
    have := (s.getV 0#4).isLt
    rw [BitVec.toNat_add, toNat_zext12, toNat_zext8]
    omega
  · cases h

theorem execJp_effect {nnn : Addr12} (h : execJp nnn s = .next t) : ExecEffect cfg s (.jp nnn) t := by
  cases h
  refine .jump rfl ?_
  have := nnn.isLt
  rw [toNat_zext12]
  omega

theorem draw_effect {x y : RegIdx} {n : Nibble} (h : draw cfg x y n s = .next t) : ExecEffect cfg s (.drw x y n) t := by
  unfold draw at h
  split at h
  · cases h
    exact .drw
  · exact .of_raise (by decide) h

theorem skipOnKey_effect {pressed : Bool} {x : RegIdx} (hf : writesFlag i = false)
    (h : skipOnKey cfg pressed x s = .next t) : ExecEffect cfg s i t := by
  unfold skipOnKey at h
  split at h
  · cases h
    exact .skip hf
  · exact .of_raise (by decide) h

theorem execLdVxK_effect {x : RegIdx} (h : execLdVxK x s = .next t) : ExecEffect cfg s (.ldVxK x) t := by
  unfold execLdVxK at h
  split at h
  · cases h
    exact .setV (List.mem_singleton_self x) rfl
  · cases h
    exact .wait

theorem storeAtI_effect {bs : List Byte} (hi : ∃ x, i = .ldB x ∨ i = .ldMemVx x) (h : storeAtI cfg bs s = .next t) :
    ExecEffect cfg s i t := by
  unfold storeAtI at h
  split at h
  · rename_i u hu
    obtain ⟨hr, rfl⟩ := State.writeRange_eq_some.mp hu
    cases h
    exact .store hi (hr.imp_left List.eq_nil_of_length_eq_zero)
  · exact .of_raise (by decide) h

theorem loadAtI_effect {x : RegIdx} (h : loadAtI cfg x s = .next t) : ExecEffect cfg s (.ldVxMem x) t := by
  unfold loadAtI at h
  split at h
  · rename_i bs hbs
    obtain ⟨-, rfl⟩ := State.readRange_eq_some.mp hbs
    cases h
    exact .loadRegs (Memory.length_readBytes _ _ _)
  · exact .of_raise (by decide) h

/-- Execute, said once: an instruction that answers a next state had one of the effects, under every configuration. -/
theorem execWith_effect (h : execWith cfg i s = .next t) : ExecEffect cfg s i t := by
  cases i
  case cls => cases h; exact .cls
  case ret => exact execRet_effect h
  case jp => exact execJp_effect h
  case jpV0 => exact jumpV0_effect h
  case call => exact callTo_effect h
  case drw => exact draw_effect h
  case skp | sknp => exact skipOnKey_effect rfl h
  case ldVxK => exact execLdVxK_effect h
  case ldB x => exact storeAtI_effect ⟨x, .inl rfl⟩ h
  case ldMemVx x => exact storeAtI_effect ⟨x, .inr rfl⟩ h
  case ldVxMem => exact loadAtI_effect h
  case rnd => cases h; exact .rnd
  case ldDtVx => cases h; exact .setDt
  case ldStVx => cases h; exact .setSt
  case ldI nnn => cases h; exact .setI (.inl ⟨nnn, rfl⟩)
  case addI x => cases h; exact .setI (.inr ⟨x, .inl rfl⟩)
  case ldF x => cases h; exact .setI (.inr ⟨x, .inr rfl⟩)
  case seByte | sneByte | seReg | sneReg => cases h; exact .skip rfl
  case ldByte | addByte | ldReg | orReg | andReg | xorReg | ldVxDt =>
    cases h; exact .setV (List.mem_singleton_self _) rfl
  case addReg | sub | subn | shr | shl => cases h; exact .setFlagged (List.mem_singleton_self _) rfl
  case nop0 | nop8 | nopE | nopF => cases h; exact .noOp rfl

theorem exec_effect (h : exec i s = .next t) : ExecEffect Config.taken s i t :=
  execWith_effect ((execWith_taken i s).trans h)

/-! ### What an effect does to each piece of the state -/

/-- A bulk load may write V0 to Vx, x included (R132). -/
theorem mem_destRegs_ldVxMem {r x : RegIdx} : r ∈ destRegs (.ldVxMem x) ↔ r.toNat ≤ x.toNat := by
  have hx := x.isLt
  simp only [destRegs, List.mem_map, List.mem_range]
  constructor
  · rintro ⟨k, hk, rfl⟩
    rw [BitVec.toNat_ofNat]
    omega
  · exact fun h => ⟨r.toNat, by omega, by simp⟩

namespace ExecEffect
variable (h : ExecEffect cfg s i t)
include h

theorem keys_eq : t.keys = s.keys := by
  cases h <;> simp

/-- Memory changes by a store inside it alone (R40, R45). -/
theorem mem_cases : t.mem = s.mem ∨ (∃ x, i = .ldB x ∨ i = .ldMemVx x) ∧
    ∃ bs, (bs = [] ∨ s.addrI + bs.length ≤ cfg.memSize) ∧ t.mem = s.mem.writeBytes s.addrI bs := by
  cases h with
  | store hi hr => exact .inr ⟨hi, _, hr, rfl⟩
  | _ => left; simp

/-- The framebuffer changes in CLS and DRW alone, which keep its size (R19). -/
theorem fb_cases : t.fb = s.fb ∨
    (i = .cls ∨ ∃ x y n, i = .drw x y n) ∧ (Framebuffer.Sized cfg s.fb → Framebuffer.Sized cfg t.fb) := by
  cases h with
  | cls => exact .inr ⟨.inl rfl, fun _ => Framebuffer.sized_clearFb cfg⟩
  | drw => exact .inr ⟨.inr ⟨_, _, _, rfl⟩, fun hs => sized_drawRows _ _ _ hs⟩
  | _ => left; simp

/-- The call stack changes by a push in CALL and a pop in RET alone (R14, R15). -/
theorem stack_cases : (t.sp = s.sp ∧ t.stack = s.stack) ∨
    ((∃ nnn, i = .call nnn) ∧ s.sp < cfg.stackDepth ∧ t.sp = s.sp + 1 ∧ t.stack = s.stack.set s.sp s.pc) ∨
    (i = .ret ∧ t.sp = s.sp - 1 ∧ t.stack = s.stack) := by
  cases h with
  | call hsp => exact .inr (.inl ⟨⟨_, rfl⟩, hsp, rfl, rfl⟩)
  | ret => exact .inr (.inr ⟨rfl, rfl, rfl⟩)
  | _ => left; simp

theorem regI_cases : t.regI = s.regI ∨ (∃ nnn, i = .ldI nnn) ∨ ∃ x, i = .addI x ∨ i = .ldF x := by
  cases h with
  | setI hi => exact .inr hi
  | _ => left; simp

theorem dt_cases : t.dt = s.dt ∨ ∃ x, i = .ldDtVx x := by
  cases h with
  | setDt => exact .inr ⟨_, rfl⟩
  | _ => left; simp

theorem st_cases : t.st = s.st ∨ ∃ x, i = .ldStVx x := by
  cases h with
  | setSt => exact .inr ⟨_, rfl⟩
  | _ => left; simp

theorem rndCount_cases : t.rndCount = s.rndCount ∨ ∃ x kk, i = .rnd x kk := by
  cases h with
  | rnd => exact .inr ⟨_, _, rfl⟩
  | _ => left; simp

/-- The register frame: what is neither a destination nor VF under a flag keeps its value (R10, R11). -/
theorem getV_eq {r : RegIdx} (hr : r ∉ destRegs i) (hvf : writesFlag i = true → r ≠ vf) : t.getV r = s.getV r := by
  cases h with
  | setV hx => rw [State.getV_setV, if_neg (ne_of_mem_of_not_mem hx hr).symm]
  | setFlagged hx hf =>
    rw [State.getV_setFlagged, if_neg (hvf hf), if_neg (ne_of_mem_of_not_mem hx hr).symm]
  | rnd => rw [State.getV_setV, if_neg (List.ne_of_not_mem_cons hr), State.drawRnd_getV]
  | drw => rw [State.getV_setV, if_neg (hvf rfl), State.setFb_getV]
  | @loadRegs x bs hlen =>
    have hout : bs.length ≤ r.toNat := by
      rw [mem_destRegs_ldVxMem] at hr
      omega
    rw [State.getV_loadRegs, List.getElem?_eq_none hout, Option.getD_none]
  | skip => exact State.skipIf_getV _ _ _
  | _ => rfl

/-- An instruction that writes a flag leaves 0 or 1 in VF, unless it faults, whatever its operands are (R11, R113). -/
theorem getV_vf (hf : writesFlag i = true) (ht : Running t) : ∃ c, t.getV vf = flagByte c := by
  cases h with
  | fault hc => exact absurd ht hc
  | @setFlagged _ _ r => exact ⟨r.2, by rw [State.getV_setFlagged, if_pos rfl]⟩
  | @drw _ _ _ _ _ _ c => exact ⟨c, by rw [State.getV_setV, if_pos rfl]⟩
  | store hi => obtain ⟨x, rfl | rfl⟩ := hi <;> cases hf
  | setI hi => obtain ⟨_, rfl⟩ | ⟨x, rfl | rfl⟩ := hi <;> cases hf
  | noOp h | skip h | jump h | setV _ h => exact absurd (h.symm.trans hf) Bool.false_ne_true
  | _ => cases hf

end ExecEffect
end Effects

/-! ### The invariants of the step -/

/-- A property that a fetch fault keeps, and that running any instruction from a fetchable address keeps, is kept by the
step: a halted core does not change (R80, R87). -/
theorem stepPhases_keeps {cfg : Config} {decoder : Word → Instr} {execute : Instr → State → Result} {P : State → Prop}
    (hfetch : ∀ s, P s → P (s.takeFault s.pc .fetchRange s.pc))
    (hrun : ∀ i s u, s.pc.toNat + 1 < cfg.memSize → P s → execute i s.advance = .next u → P (finish u))
    {s t : State} (hs : P s) (h : stepPhases cfg decoder execute s = .next t) : P t := by
  obtain ⟨-, rfl⟩ | ⟨-, -, rfl⟩ | ⟨-, hpc, w, u, -, hu, rfl⟩ := stepPhases_cases h
  · exact hs
  · exact hfetch s hs
  · exact hrun _ s u hpc hs hu

/-- Execute keeps memory canonical: a store lies inside memory, and nothing else writes it (R45). -/
theorem ExecEffect.memoryOkFor {cfg : Config} {i : Instr} {s t : State} (h : ExecEffect cfg s i t) (hs : MemoryOkFor cfg s) :
    MemoryOkFor cfg t := by
  obtain hm | ⟨-, bs, hr, hm⟩ := h.mem_cases
  · rwa [MemoryOkFor, hm]
  · rw [MemoryOkFor, hm]
    exact Memory.wfBelow_writeBytes hs bs hr

theorem stepWith_keeps_memoryOkFor {cfg : Config} {s t : State} (hs : MemoryOkFor cfg s) (h : stepWith cfg s = .next t) :
    MemoryOkFor cfg t := by
  refine stepPhases_keeps (P := MemoryOkFor cfg) (fun _ hs => hs) (fun i s u _ hs hu => ?_) hs h
  rw [MemoryOkFor, finish_mem]
  exact (execWith_effect hu).memoryOkFor hs

/-- Execute keeps the sizes: a push finds room below `STACK_DEPTH`, and clearing and drawing keep the framebuffer's. -/
theorem ExecEffect.shapeOkFor {cfg : Config} {i : Instr} {s t : State} (h : ExecEffect cfg s i t) (hs : ShapeOkFor cfg s) :
    ShapeOkFor cfg t := by
  obtain ⟨hsp, hlen, hfb⟩ := hs
  refine ⟨?_, ?_, ?_⟩
  · obtain ⟨e, -⟩ | ⟨-, hroom, e, -⟩ | ⟨-, e, -⟩ := h.stack_cases <;> omega
  · obtain ⟨-, e⟩ | ⟨-, -, -, e⟩ | ⟨-, -, e⟩ := h.stack_cases <;> simp [e, hlen]
  · obtain e | ⟨-, hkeep⟩ := h.fb_cases
    · rwa [e]
    · exact hkeep hfb

theorem stepWith_keeps_shapeOkFor {cfg : Config} {s t : State} (hs : ShapeOkFor cfg s) (h : stepWith cfg s = .next t) :
    ShapeOkFor cfg t := by
  refine stepPhases_keeps (P := ShapeOkFor cfg) (fun _ hs => hs) (fun i s u _ hs hu => ?_) hs h
  rw [ShapeOkFor, finish_sp, finish_stack, finish_fb]
  exact (execWith_effect hu).shapeOkFor hs

/-! ### The range of `pc` (R12) -/

/-- After a store to the call stack an entry is the one stored, an old one, or the 0 beyond the storage. -/
theorem toNat_entry_set_le {stack : List Word} {n k m : Nat} {w : Word} (hw : w.toNat ≤ m)
    (hold : k ≠ n → ((stack[k]?).getD 0).toNat ≤ m) : (((stack.set n w)[k]?).getD 0).toNat ≤ m := by
  rw [List.getElem?_set]
  split_ifs with hk hlt
  · exact hw
  · exact Nat.zero_le m
  · exact hold (Ne.symm hk)

section PcRange
variable {cfg : Config} {i : Instr} {s t : State}

/-- Execute leaves `pc` at most 0x10FE: it falls through, skips, waits or faults, jumps to a literal plus V0, or returns (R12). -/
theorem ExecEffect.toNat_pc_le (h : ExecEffect cfg s i t) (hlo : 2 ≤ s.pc.toNat) (hhi : s.pc.toNat ≤ 4096)
    (hret : ∀ k, k < s.sp → (s.entry k).toNat ≤ 4096) : t.pc.toNat ≤ 0x10FE := by
  have hback : (s.pc - instrWidth).toNat ≤ 0x10FE := by
    rw [BitVec.toNat_sub_of_le (show instrWidth ≤ s.pc from hlo)]
    omega
  have hskip : (s.pc + instrWidth).toNat ≤ 0x10FE := by
    rw [BitVec.toNat_add, show instrWidth.toNat = 2 from rfl]
    omega
  cases h with
  | fault => exact hback
  | wait => exact hback
  | @skip c =>
    rw [State.skipIf_pc]
    split
    · exact hskip
    · omega
  | jump _ hw => exact hw
  | @call nnn =>
    have := nnn.isLt
    rw [State.setPc_pc, toNat_zext12]
    omega
  | ret hsp => exact (hret _ (by omega)).trans (by omega)
  | _ => exact hhi.trans (by omega)

/-- Execute leaves every valid return address at most 4096: a push adds `pc`, a pop only removes one (R91, R92). -/
theorem ExecEffect.toNat_entry_le (h : ExecEffect cfg s i t) (hhi : s.pc.toNat ≤ 4096)
    (hret : ∀ k, k < s.sp → (s.entry k).toNat ≤ 4096) : ∀ k, k < t.sp → (t.entry k).toNat ≤ 4096 := by
  intro k hk
  obtain ⟨hsp, hst⟩ | ⟨-, -, hsp, hst⟩ | ⟨-, hsp, hst⟩ := h.stack_cases
  · rw [State.entry, hst]
    exact hret k (by omega)
  · rw [State.entry, hst]
    exact toNat_entry_set_le hhi fun hne => hret k (by omega)
  · rw [State.entry, hst]
    exact hret k (by omega)

/-- A step that fetches starts at `pc` up to 4094, so execute starts at most at 4096 (R81, R82). -/
theorem step_keeps_pcOk (hs : PcOk s) (h : step s = .next t) : PcOk t := by
  refine stepPhases_keeps (P := PcOk) (fun _ hs => hs) (fun i s u hpc hs hu => ?_) hs h
  have hfetch : s.pc.toNat + 1 < 4096 := hpc
  have hadv : s.advance.pc.toNat = s.pc.toNat + 2 := by
    rw [State.advance_pc, BitVec.toNat_add, show instrWidth.toNat = 2 from rfl]
    omega
  have heff := exec_effect hu
  constructor
  · rw [finish_pc]
    exact heff.toNat_pc_le (by omega) (by omega) hs.2
  · rw [finish_sp]
    intro k hk
    rw [State.entry, finish_stack]
    exact heff.toNat_entry_le (by omega) hs.2 k hk

end PcRange

/-! ### The reset state (R25) -/

@[simp] theorem resetFor_pc (cfg : Config) : (resetFor cfg).pc = BitVec.ofNat 16 cfg.progOrigin := rfl

theorem memoryOkFor_resetFor (cfg : Config) : MemoryOkFor cfg (resetFor cfg) := wfBelow_resetMemory cfg

theorem memoryOkFor_hostReset (cfg : Config) (s : State) : MemoryOkFor cfg (hostReset cfg s) := by
  rw [MemoryOkFor, hostReset_mem]
  exact wfBelow_resetMemory cfg

theorem shapeOkFor_resetFor (cfg : Config) : ShapeOkFor cfg (resetFor cfg) :=
  ⟨Nat.zero_le _, List.length_replicate, Framebuffer.sized_clearFb cfg⟩

theorem running_resetFor (cfg : Config) : Running (resetFor cfg) := rfl

/-- The reset `pc` is `PROG_ORIGIN`, and no return address is valid. -/
theorem pcOk_resetFor {cfg : Config} (h : cfg.progOrigin ≤ 0x10FE) : PcOk (resetFor cfg) := by
  constructor
  · rw [resetFor_pc, BitVec.toNat_ofNat]
    omega
  · intro k hk
    exact absurd hk (Nat.not_lt_zero k)

theorem resetWith_zero : resetWith (fun _ => 0) = State.reset := resetFor_taken

/-- What the memory holds after a reset at the values taken: the font from 0, `MEM_INIT` above it (R25, R46). -/
theorem resetByte_taken_withMemInit (memInit : Nat → Byte) (a : Nat) : (Config.taken.withMemInit memInit).resetByte a =
    if h : a < standardFont.length then standardFont[a] else memInit a := by
  simp [Config.resetByte_eq, -length_standardFont]

/-- What memory reads as after a load that fits: the image from `PROG_ORIGIN`, the old bytes elsewhere (R215). -/
theorem readByte_loadProgram {s : State} (hs : s.mem.Pairwise fun c d => c.1 < d.1) {cfg : Config} {image : List Byte}
    (hfit : cfg.progOrigin + image.length ≤ cfg.progTop) (a : Nat) :
    (loadProgram cfg image s).1.readByte a =
      if h : cfg.progOrigin ≤ a ∧ a < cfg.progOrigin + image.length then image[a - cfg.progOrigin] else s.readByte a := by
  rw [loadProgram_of_le hfit, State.readByte, Memory.read_writeBytes hs]
  split_ifs with h1 h2 h2
  · rw [List.getElem?_eq_getElem (by omega), Option.getD_some]
  · rw [List.getElem?_eq_none (by omega), Option.getD_none]
    rfl
  · omega
  · rfl

/-! ### Two runs that differ in the sound timer, the key latch or the framebuffer (R17 to R19) -/

/-- A change of the three pieces of state that few instructions read: the sound timer, the key latch, the framebuffer. -/
def State.overlay (fst : Byte → Byte) (fkeys : Vector Bool 16 → Vector Bool 16) (ffb : Framebuffer → Framebuffer)
    (s : State) : State := { s with st := fst s.st, keys := fkeys s.keys, fb := ffb s.fb }

theorem State.setSt_eq_overlay (s : State) (b : Byte) : s.setSt b = s.overlay (fun _ => b) id id := rfl
theorem State.setKeys_eq_overlay (s : State) (k : Vector Bool 16) : s.setKeys k = s.overlay id (fun _ => k) id := rfl
theorem State.setFb_eq_overlay (s : State) (f : Framebuffer) : s.setFb f = s.overlay id id (fun _ => f) := rfl

/-- A change carried through what an instruction answers. -/
def mapNext (f : State → State) : Result → Result
  | .next t => .next (f t)
  | .fault r => .fault r
  | .refused r => .refused r

/-- The instructions that read the key latch (R18). -/
def readsKeys : Instr → Bool
  | .skp _ | .sknp _ | .ldVxK _ => true
  | _ => false

/-- The instructions that read or write the framebuffer (R19). -/
def usesFb : Instr → Bool
  | .cls | .drw _ _ _ => true
  | _ => false

theorem exists_of_readsKeys {i : Instr} (h : readsKeys i = true) : ∃ x, i = .skp x ∨ i = .sknp x ∨ i = .ldVxK x := by
  cases i
  case skp x => exact ⟨x, .inl rfl⟩
  case sknp x => exact ⟨x, .inr (.inl rfl)⟩
  case ldVxK x => exact ⟨x, .inr (.inr rfl)⟩
  all_goals cases h

theorem eq_of_usesFb {i : Instr} (h : usesFb i = true) : i = .cls ∨ ∃ x y n, i = .drw x y n := by
  cases i
  case cls => exact .inl rfl
  case drw x y n => exact .inr ⟨x, y, n, rfl⟩
  all_goals cases h

section Overlay
variable (fst : Byte → Byte) (fkeys : Vector Bool 16 → Vector Bool 16) (ffb : Framebuffer → Framebuffer) (cfg : Config)
  (s : State)

@[simp] theorem State.overlay_pc : (s.overlay fst fkeys ffb).pc = s.pc := rfl
@[simp] theorem State.overlay_addrI : (s.overlay fst fkeys ffb).addrI = s.addrI := rfl
@[simp] theorem State.overlay_keys : (s.overlay fst fkeys ffb).keys = fkeys s.keys := rfl
@[simp] theorem State.overlay_getV (x : RegIdx) : (s.overlay fst fkeys ffb).getV x = s.getV x := rfl
@[simp] theorem State.overlay_readRange (a k : Nat) : (s.overlay fst fkeys ffb).readRange cfg a k = s.readRange cfg a k := rfl

theorem State.overlay_skipIf (c : Bool) : (s.overlay fst fkeys ffb).skipIf c = (s.skipIf c).overlay fst fkeys ffb := by
  cases c <;> rfl

theorem State.overlay_push (w : Word) :
    (s.overlay fst fkeys ffb).push cfg w = (s.push cfg w).map (State.overlay fst fkeys ffb) := by
  rw [State.push, State.push, apply_ite (Option.map _)]
  rfl

theorem State.overlay_pop :
    (s.overlay fst fkeys ffb).pop = s.pop.map fun (w, t) => (w, t.overlay fst fkeys ffb) := by
  rw [State.pop, State.pop, apply_ite (Option.map _)]
  rfl

theorem State.overlay_writeRange (a : Nat) (bs : List Byte) :
    (s.overlay fst fkeys ffb).writeRange cfg a bs = (s.writeRange cfg a bs).map (State.overlay fst fkeys ffb) := by
  rw [State.writeRange, State.writeRange, apply_ite (Option.map _)]
  rfl

theorem callTo_overlay (nnn : Addr12) :
    callTo cfg nnn (s.overlay fst fkeys ffb) = mapNext (State.overlay fst fkeys ffb) (callTo cfg nnn s) := by
  rw [callTo, callTo, State.overlay_push, State.overlay_pc]
  cases s.push cfg s.pc <;> rfl

theorem execRet_overlay : execRet (s.overlay fst fkeys ffb) = mapNext (State.overlay fst fkeys ffb) (execRet s) := by
  rw [execRet, execRet, State.overlay_pop]
  cases s.pop <;> rfl

theorem storeAtI_overlay (bs : List Byte) :
    storeAtI cfg bs (s.overlay fst fkeys ffb) = mapNext (State.overlay fst fkeys ffb) (storeAtI cfg bs s) := by
  rw [storeAtI, storeAtI, State.overlay_writeRange, State.overlay_addrI]
  cases s.writeRange cfg s.addrI bs <;> rfl

theorem loadAtI_overlay (x : RegIdx) :
    loadAtI cfg x (s.overlay fst fkeys ffb) = mapNext (State.overlay fst fkeys ffb) (loadAtI cfg x s) := by
  rw [loadAtI, loadAtI, State.overlay_readRange, State.overlay_addrI]
  cases s.readRange cfg s.addrI (x.toNat + 1) <;> rfl

/-- With the key latch kept: a key skip reads nothing else of the three. -/
theorem skipOnKey_overlay (pressed : Bool) (x : RegIdx) :
    skipOnKey cfg pressed x (s.overlay fst id ffb) = mapNext (State.overlay fst id ffb) (skipOnKey cfg pressed x s) := by
  rw [skipOnKey, skipOnKey, State.overlay_getV, State.overlay_keys]
  cases keyIndex cfg.keyIndexPolicy (s.getV x) with
  | none => rfl
  | some k => exact congrArg Host.Outcome.next (State.overlay_skipIf fst id ffb s _)

theorem execLdVxK_overlay (x : RegIdx) :
    execLdVxK x (s.overlay fst id ffb) = mapNext (State.overlay fst id ffb) (execLdVxK x s) := by
  rw [execLdVxK, execLdVxK, State.overlay_keys, id_eq]
  cases lowestKey s.keys <;> rfl

/-- With the framebuffer kept: a draw reads nothing else of the three. -/
theorem draw_overlay (x y : RegIdx) (n : Nibble) :
    draw cfg x y n (s.overlay fst fkeys id) = mapNext (State.overlay fst fkeys id) (draw cfg x y n s) := by
  rw [draw, draw, State.overlay_readRange, State.overlay_addrI]
  cases s.readRange cfg s.addrI n.toNat <;> rfl

/-- What a skip answers commutes with the change: no condition of a skip on registers reads the three. -/
theorem next_skipIf_overlay (c : Bool) : (.next ((s.overlay fst fkeys ffb).skipIf c) : Result) =
    mapNext (State.overlay fst fkeys ffb) (.next (s.skipIf c)) :=
  congrArg Host.Outcome.next (State.overlay_skipIf fst fkeys ffb s c)

/-- Execute commutes with a change of the three pieces, when it keeps each piece that the instruction may read or write. -/
theorem exec_overlay {i : Instr} (hst : ∀ x, i = .ldStVx x → fst = id) (hkeys : readsKeys i = true → fkeys = id)
    (hfb : usesFb i = true → ffb = id) :
    exec i (s.overlay fst fkeys ffb) = mapNext (State.overlay fst fkeys ffb) (exec i s) := by
  cases i
  case ldStVx x =>
    obtain rfl := hst x rfl
    rfl
  case skp x | sknp x =>
    obtain rfl := hkeys rfl
    exact skipOnKey_overlay fst ffb Config.taken s _ x
  case ldVxK x =>
    obtain rfl := hkeys rfl
    exact execLdVxK_overlay fst ffb s x
  case cls =>
    obtain rfl := hfb rfl
    rfl
  case drw x y n =>
    obtain rfl := hfb rfl
    exact draw_overlay fst fkeys Config.taken s x y n
  case call nnn => exact callTo_overlay fst fkeys ffb Config.taken s nnn
  case ret => exact execRet_overlay fst fkeys ffb s
  case ldB | ldMemVx => exact storeAtI_overlay fst fkeys ffb Config.taken s _
  case ldVxMem x => exact loadAtI_overlay fst fkeys ffb Config.taken s x
  case seByte | sneByte | seReg | sneReg => exact next_skipIf_overlay fst fkeys ffb s _
  all_goals rfl

end Overlay
end Sys2Proof.Machine

namespace Sys2Proof.Proofs
open Sys2Proof Sys2Proof.Machine Sys2Proof.Safety

/-- Settles O17: a store lies inside memory and keeps the list canonical, and nothing else writes memory. -/
theorem stepKeepsMemoryCanonical : Obligations.StepKeepsMemoryCanonical := by
  unfold Obligations.StepKeepsMemoryCanonical
  exact ⟨fun s t hs h => stepWith_keeps_memoryOkFor hs ((stepWith_taken s).trans h),
    fun _ _ _ => stepWith_keeps_memoryOkFor⟩

/-- Settles O18: a push finds room, a pop and every store keep the sizes, and drawing only toggles cells. -/
theorem stepKeepsTheShape : Obligations.StepKeepsTheShape := by
  unfold Obligations.StepKeepsTheShape
  exact ⟨fun s t hs h => stepWith_keeps_shapeOkFor hs ((stepWith_taken s).trans h),
    fun _ _ _ => stepWith_keeps_shapeOkFor⟩

/-- Settles O19, from the range that execute leaves `pc` and the return addresses in. -/
theorem stepKeepsPcInRange : Obligations.StepKeepsPcInRange := by
  unfold Obligations.StepKeepsPcInRange
  exact fun _ _ => step_keeps_pcOk

/-- Settles O20: the reset state of any `MEM_INIT`; the values taken are the case of zeros. -/
theorem resetMeetsTheInvariants : Obligations.ResetMeetsTheInvariants := by
  unfold Obligations.ResetMeetsTheInvariants
  have hinv : ∀ memInit, MemoryOk (resetWith memInit) ∧ ShapeOk (resetWith memInit) ∧ PcOk (resetWith memInit) ∧
      Running (resetWith memInit) := fun memInit =>
    ⟨memoryOkFor_resetFor (Config.taken.withMemInit memInit), shapeOkFor_resetFor (Config.taken.withMemInit memInit),
      pcOk_resetFor (by simp), running_resetFor _⟩
  obtain ⟨hmem, hshape, hpc, hrun⟩ := resetWith_zero ▸ hinv fun _ => 0
  exact ⟨hinv, hmem, hshape, hpc, hrun, resetWith_zero, fun _ _ => rfl⟩

/-- Settles O23: the fields of the reset state, its memory, and the memory after a load that fits. -/
theorem resetLeavesTheListedValues : Obligations.ResetLeavesTheListedValues := by
  unfold Obligations.ResetLeavesTheListedValues
  intro memInit s
  refine ⟨_, rfl, fun r => ?_, rfl, rfl, rfl, rfl, rfl, fun k => ?_, cell_clearFb _, rfl, fun a ha => ?_, fun image hlen => ?_⟩
  · simp [State.getV, Vector.get_eq_getElem]
  · simp [Vector.get_eq_getElem]
  · rw [readByte_hostReset (cfg := Config.taken.withMemInit memInit) ha, resetByte_taken_withMemInit]
  · have hfit : Config.taken.progOrigin + image.length ≤ Config.taken.progTop := by
      rw [Config.taken_progOrigin, Config.taken_progTop]
      omega
    refine ⟨_, loadProgram_of_le hfit _, rfl, fun a => ?_⟩
    have hread := readByte_loadProgram (memoryOkFor_hostReset (Config.taken.withMemInit memInit) s).1 hfit a
    rwa [loadProgram_of_le hfit] at hread

/-- Settles O27, from the register frame of the effects. -/
theorem onlyDestinationRegistersChange : Obligations.OnlyDestinationRegistersChange := by
  unfold Obligations.OnlyDestinationRegistersChange
  exact fun _ _ _ h _ => (exec_effect h).getV_eq

/-- Settles O28: a flag write leaves a flag byte in VF; elsewhere VF is in the register frame. -/
theorem flagIsWrittenByExactlySixInstructions : Obligations.FlagIsWrittenByExactlySixInstructions := by
  unfold Obligations.FlagIsWrittenByExactlySixInstructions
  intro i s t _ h ht
  refine ⟨fun hf => ?_, fun hf hd => (exec_effect h).getV_eq hd fun hf' => ?_⟩
  · obtain ⟨c, hc⟩ := (exec_effect h).getV_vf hf ht
    cases c
    · exact .inl hc
    · exact .inr hc
  · exact absurd (hf.symm.trans hf') Bool.false_ne_true

/-- Settles O29, one piece of the state at a time. -/
theorem eachPieceIsWrittenOnlyByItsInstructions : Obligations.EachPieceIsWrittenOnlyByItsInstructions := by
  unfold Obligations.EachPieceIsWrittenOnlyByItsInstructions
  intro i s t h
  have heff := exec_effect h
  refine ⟨heff.keys_eq, fun hne => ?_, fun hne => ?_, fun hne => ?_, heff.regI_cases.resolve_left, heff.dt_cases.resolve_left,
    heff.st_cases.resolve_left, heff.rndCount_cases.resolve_left⟩
  · exact (heff.fb_cases.resolve_left hne).1
  · obtain ⟨hsp, hst⟩ | ⟨hcall, -⟩ | ⟨hret, -⟩ := heff.stack_cases
    · exact absurd hne (by simp [hsp, hst])
    · exact .inr hcall
    · exact .inl hret
  · exact (heff.mem_cases.resolve_left hne).1

/-- Settles O30: each change is an overlay that execute commutes with; LD ST,Vx overwrites the changed timer. -/
theorem latchesAndOutputsAreReadOnlyByTheirInstructions : Obligations.LatchesAndOutputsAreReadOnlyByTheirInstructions := by
  unfold Obligations.LatchesAndOutputsAreReadOnlyByTheirInstructions
  intro i s t h
  refine ⟨fun b => ?_, fun k hi => ?_, fun f hi => ?_⟩
  · by_cases hi : ∃ x, i = .ldStVx x
    · obtain ⟨x, rfl⟩ := hi
      exact h
    · have hst : exec i (s.setSt b) = .next (t.setSt b) := by
        rw [State.setSt_eq_overlay, exec_overlay _ _ _ _ (fun x e => absurd ⟨x, e⟩ hi) (fun _ => rfl) fun _ => rfl, h]
        rfl
      rw [hst]
      split
      · exact absurd ⟨_, rfl⟩ hi
      · rfl
  · have hkeys : readsKeys i ≠ true := fun hr => by
      obtain ⟨x, e⟩ := exists_of_readsKeys hr
      obtain ⟨hskp, hsknp, hldk⟩ := hi x
      exact e.elim hskp fun e => e.elim hsknp hldk
    rw [State.setKeys_eq_overlay, exec_overlay _ _ _ _ (fun _ _ => rfl) (fun hr => absurd hr hkeys) (fun _ => rfl), h]
    rfl
  · have hfb : usesFb i ≠ true := fun hu => by
      obtain e | ⟨x, y, n, e⟩ := eq_of_usesFb hu
      · exact hi.1 e
      · exact hi.2 x y n e
    rw [State.setFb_eq_overlay, exec_overlay _ _ _ _ (fun _ _ => rfl) (fun _ => rfl) (fun hu => absurd hu hfb), h]
    rfl

end Sys2Proof.Proofs

/-! Proofs about the rules of 20_memory.md: the fetched word (R42), a fetch after a store (R52), and what a reset leaves
in memory (R46, R25). -/

namespace Sys2Proof

/-! ### The word of two bytes (R42) -/

theorem toNat_wordOfBytes (hi lo : Byte) : (wordOfBytes hi lo).toNat = hi.toNat * 256 + lo.toNat := by
  have := hi.isLt
  have := lo.isLt
  rw [wordOfBytes, BitVec.toNat_ofNat]
  omega

@[simp] theorem highByte_wordOfBytes (hi lo : Byte) : highByte (wordOfBytes hi lo) = hi := by
  apply BitVec.eq_of_toNat_eq
  have := lo.isLt
  rw [highByte, BitVec.extractLsb'_toNat, toNat_wordOfBytes, Nat.shiftRight_eq_div_pow]
  omega

@[simp] theorem lowByte_wordOfBytes (hi lo : Byte) : lowByte (wordOfBytes hi lo) = lo := by
  apply BitVec.eq_of_toNat_eq
  have := lo.isLt
  rw [lowByte, BitVec.extractLsb'_toNat, toNat_wordOfBytes, Nat.shiftRight_zero]
  omega

/-! ### What a reset leaves at an address (R25, R46) -/

variable {cfg : Config}

/-- Inside the font a reset leaves the font's byte. -/
theorem Config.resetByte_fontBase_add {k : Nat} (hk : k < cfg.font.length) :
    cfg.resetByte (cfg.fontBase + k) = cfg.font[k] := by
  simp [Config.resetByte_eq, hk]

/-- Outside the font a reset leaves `MEM_INIT`. -/
theorem Config.resetByte_of_outside_font {a : Nat} (ha : a < cfg.fontBase ∨ cfg.fontBase + cfg.font.length ≤ a) :
    cfg.resetByte a = cfg.memInit a := by
  rw [Config.resetByte_eq, dif_neg (by omega)]

end Sys2Proof

namespace Sys2Proof.Machine
open Sys2Proof.Safety

variable {cfg : Config} {s : State}

/-- A range read inside the font after a reset is a segment of the font. -/
theorem readBytes_resetMemory_font {a k : Nat} (hfont : a + k ≤ cfg.font.length)
    (hmem : cfg.fontBase + cfg.font.length ≤ cfg.memSize) :
    (resetMemory cfg).readBytes (cfg.fontBase + a) k = (cfg.font.drop a).take k := by
  refine List.ext_getElem? fun j => ?_
  rw [Memory.getElem?_readBytes, List.getElem?_take]
  split
  · rw [read_resetMemory (by omega), Nat.add_assoc, Config.resetByte_fontBase_add (by omega), List.getElem?_drop,
      List.getElem?_eq_getElem]
  · rfl

/-- At the values taken the font lies from 0 on, whatever `MEM_INIT` is (R46). -/
theorem readBytes_resetWith_font (memInit : Nat → Byte) {a k : Nat} (h : a + k ≤ 80) :
    (resetWith memInit).mem.readBytes a k = (standardFont.drop a).take k := by
  have hseg := readBytes_resetMemory_font (cfg := Config.taken.withMemInit memInit) h (by simp)
  rwa [Config.withMemInit_fontBase, Config.taken_fontBase, Nat.zero_add, Config.withMemInit_font, Config.taken_font,
    ← resetWith_mem] at hseg

theorem shapeOkFor_hostReset (cfg : Config) (s : State) : ShapeOkFor cfg (hostReset cfg s) := shapeOkFor_resetFor cfg

/-! ### A step that stores, and the fetch after it (R52) -/

/-- A running core at a fetchable address runs the instruction at `pc` (R80). -/
theorem step_running (hf : Running s) (hpc : s.pc.toNat ≤ 4094) : step s = finishResult (exec (instrAt s) s.advance) :=
  stepPhases_running hf (fetchWord_eq_some.mpr ⟨Nat.lt_of_le_of_lt (Nat.succ_le_succ hpc) (by decide), rfl⟩)

/-- Short of the 16-bit wrap, advancing adds 2 to `pc` (R82). -/
theorem State.toNat_advance_pc (hpc : s.pc.toNat ≤ 4094) : s.advance.pc.toNat = s.pc.toNat + 2 := by
  rw [State.advance_pc, BitVec.toNat_add, show instrWidth.toNat = 2 from rfl]
  omega

/-- A store whose range is inside memory writes its bytes and nothing else (R133, R53). -/
theorem storeAtI_of_le {bs : List Byte} (h : s.addrI + bs.length ≤ cfg.memSize) :
    storeAtI cfg bs s = .next { s with mem := s.mem.writeBytes s.addrI bs } := by
  rw [storeAtI, State.writeRange_eq_some.mpr ⟨.inr h, rfl⟩]

/-- The state after a bulk store of V0 to Vx from `I` on, at the end of its step (R131). -/
def State.afterBulkStore (s : State) (x : RegIdx) : State :=
  finish { s.advance with mem := s.mem.writeBytes s.addrI (s.regsUpTo x) }

/-- A running core at LD [I],Vx with the range inside memory stores V0 to Vx (R131). -/
theorem step_ldMemVx {x : RegIdx} (hrun : Running s) (hpc : s.pc.toNat ≤ 4094) (hi : instrAt s = .ldMemVx x)
    (hrange : s.addrI + x.toNat ≤ 4095) : step s = .next (s.afterBulkStore x) := by
  have hfit : s.advance.addrI + (s.advance.regsUpTo x).length ≤ Config.taken.memSize := by
    rw [length_regsUpTo, Config.taken_memSize]
    exact Nat.succ_le_succ hrange
  rw [step_running hrun hpc, hi]
  exact congrArg finishResult (storeAtI_of_le hfit)

@[simp] theorem State.afterBulkStore_fault (x : RegIdx) : (s.afterBulkStore x).fault = s.fault := finish_fault _

@[simp] theorem State.afterBulkStore_pc (x : RegIdx) : (s.afterBulkStore x).pc = s.advance.pc := finish_pc _

/-- After a bulk store the byte at `I + k` is `V[k]`, for `k` up to `x` (R131). -/
theorem State.afterBulkStore_readByte (hs : MemoryOk s) {x k : RegIdx} (hk : k.toNat ≤ x.toNat) :
    (s.afterBulkStore x).readByte (s.addrI + k.toNat) = s.getV k := by
  rw [State.afterBulkStore, finish_readByte, State.readByte, Memory.read_writeBytes hs.1, if_pos (Nat.le_add_right _ _),
    Nat.add_sub_cancel_left, getElem?_regsUpTo, if_pos hk, Option.getD_some]

end Sys2Proof.Machine

namespace Sys2Proof.Proofs
open Sys2Proof Sys2Proof.Machine Sys2Proof.Safety

/-- Settles O24: memory after a reset is the reset byte at every address, of the font or of `MEM_INIT`; at the values
taken glyph `d` is the segment of the font from `5 * d`. -/
theorem resetInstallsTheFont : Obligations.ResetInstallsTheFont := by
  unfold Obligations.ResetInstallsTheFont
  refine ⟨fun cfg s => ⟨_, rfl, hostReset_pc cfg s, fun k hk hmem => ?_, fun a hmem ha => ?_, memoryOkFor_hostReset cfg s,
    shapeOkFor_hostReset cfg s, fun _ _ => ⟨_, rfl, rfl⟩⟩, fun memInit d hd => ?_⟩
  · rw [readByte_hostReset hmem, Config.resetByte_fontBase_add hk]
  · rw [readByte_hostReset hmem, Config.resetByte_of_outside_font ha]
  · rw [readBytes_resetWith_font memInit (by omega)]
    revert d
    decide

/-- Settles O50: the store leaves V0 and V1 at the next instruction's two addresses, where the next fetch reads them. -/
theorem storedWordIsTheNextFetched : Obligations.StoredWordIsTheNextFetched := by
  unfold Obligations.StoredWordIsTheNextFetched
  intro s x hmem hrun hpc hi hx hI hrange
  have hnext : (s.afterBulkStore x).pc.toNat = s.addrI := by
    rw [State.afterBulkStore_pc, State.toNat_advance_pc (by omega), hI]
  have hin : (s.afterBulkStore x).pc.toNat + 1 < Config.taken.memSize := by
    rw [hnext, Config.taken_memSize]
    omega
  have hV0 : (s.afterBulkStore x).readByte s.addrI = s.getV 0#4 :=
    State.afterBulkStore_readByte hmem (k := 0#4) (Nat.zero_le _)
  have hV1 : (s.afterBulkStore x).readByte (s.addrI + 1) = s.getV 1#4 :=
    State.afterBulkStore_readByte hmem (k := 1#4) hx
  refine ⟨_, _, step_ldMemVx hrun (by omega) hi hrange, (State.afterBulkStore_fault x).trans hrun,
    fetchWord_eq_some.mpr ⟨hin, rfl⟩, ?_⟩
  rw [toNat_wordOfBytes, hnext, hV0, hV1]

/-- Settles O12, from the word of two bytes and its halves. -/
theorem fetchReadsTwoBytesBigEndian : Obligations.FetchReadsTwoBytesBigEndian := by
  unfold Obligations.FetchReadsTwoBytesBigEndian
  intro s hpc
  have hin : s.pc.toNat + 1 < Config.taken.memSize := by
    rw [Config.taken_memSize]
    omega
  exact ⟨_, fetchWord_eq_some.mpr ⟨hin, rfl⟩, toNat_wordOfBytes _ _, highByte_wordOfBytes _ _, lowByte_wordOfBytes _ _⟩

end Sys2Proof.Proofs

/-! Proofs about the decoder and the encoder (30_encoding.md): the lookup family by family, the no-op space, the round
trips, the aliases. -/

namespace Sys2Proof
open Sys2Proof.Safety

/-! ### Level one of the lookup (R64, R65): four families have a secondary key -/

section Lookup
variable {w : Word}

theorem decode_family0 (h : fieldOp w = 0x0#4) : decode w = decodeFamily0 w := by simp [decode, h]

theorem decode_family8 (h : fieldOp w = 0x8#4) : decode w = decodeFamily8 w := by simp [decode, h]

theorem decode_familyE (h : fieldOp w = 0xE#4) : decode w = decodeFamilyE w := by simp [decode, h]

theorem decode_familyF (h : fieldOp w = 0xF#4) : decode w = decodeFamilyF w := by simp [decode, h]

/-- The families with a secondary key (R64). -/
def KeyedFamily (op : Nibble) : Prop := op = 0x0#4 ∨ op = 0x8#4 ∨ op = 0xE#4 ∨ op = 0xF#4

/-- A family with no secondary key holds no no-op. -/
theorem isNoOp_decode_of_unkeyed (h : ¬ KeyedFamily (fieldOp w)) : isNoOp (decode w) = false := by
  unfold decode
  split
  case h_16 =>
    simp only [KeyedFamily, imp_false] at *
    bv_omega
  case h_1 | h_9 | h_15 => simp_all [KeyedFamily]
  all_goals rfl

/-! ### Level two (R67 to R71): the no-op is what the keys leave over (R70) -/

theorem isNoOp_decodeFamily0 : isNoOp (decodeFamily0 w) = true ↔ ¬ definedKey0 (fieldN w) := by
  unfold decodeFamily0
  split <;> simp_all [isNoOp]

theorem isNoOp_decodeFamily8 : isNoOp (decodeFamily8 w) = true ↔ ¬ definedKey8 (fieldN w) := by
  unfold decodeFamily8
  split
  case h_10 =>
    refine iff_of_true rfl ?_
    simp only [definedKey8, imp_false] at *
    bv_omega
  all_goals simp_all [isNoOp]

theorem isNoOp_decodeFamilyE : isNoOp (decodeFamilyE w) = true ↔ ¬ definedKeyE (fieldN w) := by
  unfold decodeFamilyE
  split <;> simp_all [isNoOp]

theorem isNoOp_decodeFamilyF : isNoOp (decodeFamilyF w) = true ↔ ¬ definedKeyF (fieldKK w) := by
  unfold decodeFamilyF
  split <;> simp_all [isNoOp]

theorem decode_nop0 (hop : fieldOp w = 0x0#4) (hk : ¬ definedKey0 (fieldN w)) : decode w = .nop0 (fieldNNN w) := by
  rw [decode_family0 hop, decodeFamily0]
  split <;> simp_all

theorem decode_nop8 (hop : fieldOp w = 0x8#4) (hk : ¬ definedKey8 (fieldN w)) :
    decode w = .nop8 (fieldX w) (fieldY w) (fieldN w) := by
  rw [decode_family8 hop, decodeFamily8]
  split <;> simp_all

theorem decode_nopE (hop : fieldOp w = 0xE#4) (hk : ¬ definedKeyE (fieldN w)) :
    decode w = .nopE (fieldX w) (fieldY w) (fieldN w) := by
  rw [decode_familyE hop, decodeFamilyE]
  split <;> simp_all

theorem decode_nopF (hop : fieldOp w = 0xF#4) (hk : ¬ definedKeyF (fieldKK w)) :
    decode w = .nopF (fieldX w) (fieldKK w) := by
  rw [decode_familyF hop, decodeFamilyF]
  split <;> simp_all

/-! ### The no-op space (R70) -/

/-- The word's family and secondary key are those of a no-op: the key is none that its family defines (R70). -/
def UnmatchedKey (w : Word) : Prop :=
  (fieldOp w = 0x0#4 ∧ ¬ definedKey0 (fieldN w)) ∨ (fieldOp w = 0x8#4 ∧ ¬ definedKey8 (fieldN w)) ∨
  (fieldOp w = 0xE#4 ∧ ¬ definedKeyE (fieldN w)) ∨ (fieldOp w = 0xF#4 ∧ ¬ definedKeyF (fieldKK w))

/-- A word is a no-op exactly when its key is unmatched in its family (R70). -/
theorem isNoOp_decode (w : Word) : isNoOp (decode w) = true ↔ UnmatchedKey w := by
  by_cases h : KeyedFamily (fieldOp w)
  · obtain h | h | h | h := h
    · rw [decode_family0 h, isNoOp_decodeFamily0]
      simp [UnmatchedKey, h]
    · rw [decode_family8 h, isNoOp_decodeFamily8]
      simp [UnmatchedKey, h]
    · rw [decode_familyE h, isNoOp_decodeFamilyE]
      simp [UnmatchedKey, h]
    · rw [decode_familyF h, isNoOp_decodeFamilyF]
      simp [UnmatchedKey, h]
  · rw [isNoOp_decode_of_unkeyed h]
    simp_all [KeyedFamily, UnmatchedKey]

/-- Only a no-op carries a condition on its key (R63). -/
theorem Instr.wellFormed_of_not_isNoOp {i : Instr} (h : isNoOp i ≠ true) : i.wellFormed = true := by
  cases i
  case nop0 | nop8 | nopE | nopF => exact absurd rfl h
  all_goals rfl

/-- Every word decodes to a well-formed term: its no-ops have an unmatched key (R64, R70). -/
theorem wellFormed_decode (w : Word) : (decode w).wellFormed = true := by
  by_cases h : isNoOp (decode w) = true
  · obtain ⟨hop, hk⟩ | ⟨hop, hk⟩ | ⟨hop, hk⟩ | ⟨hop, hk⟩ := (isNoOp_decode w).mp h
    · rw [decode_nop0 hop hk]
      simpa [Instr.wellFormed] using hk
    · rw [decode_nop8 hop hk]
      exact decide_eq_true hk
    · rw [decode_nopE hop hk]
      exact decide_eq_true hk
    · rw [decode_nopF hop hk]
      exact decide_eq_true hk
  · exact Instr.wellFormed_of_not_isNoOp h

end Lookup

/-! ### Decoding what was encoded (R76) -/

/-- The fields of a canonical word are the operands it was put together from; only a no-op needs its key looked at. -/
theorem decode_encode {i : Instr} (h : i.wellFormed = true) : decode (encode i) = i := by
  cases i
  case cls | ret => rfl
  case nop0 nnn =>
    have hk : ¬ definedKey0 (nnn.extractLsb' 0 4) := of_decide_eq_true h
    simpa [encode] using decode_nop0 (w := wordOfAddr 0x0#4 nnn) (by simp) (by simpa using hk)
  case nop8 x y key =>
    have hk : ¬ definedKey8 key := of_decide_eq_true h
    simpa [encode] using decode_nop8 (w := wordOfNibbles 0x8#4 x y key) (by simp) (by simpa using hk)
  case nopE x mid key =>
    have hk : ¬ definedKeyE key := of_decide_eq_true h
    simpa [encode] using decode_nopE (w := wordOfNibbles 0xE#4 x mid key) (by simp) (by simpa using hk)
  case nopF x key =>
    have hk : ¬ definedKeyF key := of_decide_eq_true h
    simpa [encode] using decode_nopF (w := wordOfByte 0xF#4 x key) (by simp) (by simpa using hk)
  all_goals simp [encode, decode, decodeFamily8, decodeFamilyE, decodeFamilyF]

/-! ### Encoding what was decoded (R74, R76) -/

section Canonical
variable {w : Word}

theorem wordOfNibbles_of_fields {op y n : Nibble} (hop : fieldOp w = op) (hy : fieldY w = y) (hn : fieldN w = n) :
    wordOfNibbles op (fieldX w) y n = w := by
  rw [← hop, ← hy, ← hn, wordOfNibbles_fields]

theorem wordOfByte_of_fields {op : Nibble} {kk : Byte} (hop : fieldOp w = op) (hkk : fieldKK w = kk) :
    wordOfByte op (fieldX w) kk = w := by
  rw [← hop, ← hkk, wordOfByte_fields]

theorem wordOfAddr_of_fieldOp {op : Nibble} (hop : fieldOp w = op) : wordOfAddr op (fieldNNN w) = w := by
  rw [← hop, wordOfAddr_fields]

theorem wordOfByte_eq_wordOfNibbles (op x : Nibble) (kk : Byte) :
    wordOfByte op x kk = wordOfNibbles op x (kk.extractLsb' 4 4) (kk.extractLsb' 0 4) := by
  simpa using (wordOfNibbles_fields (wordOfByte op x kk)).symm

theorem encode_decodeFamily0 (hop : fieldOp w = 0x0#4) (hc : isCanonicalWord w = true) : encode (decodeFamily0 w) = w := by
  unfold decodeFamily0
  split
  case h_1 hn =>
    have hw : w = 0x00E0#16 := by simpa [isCanonicalWord, hop, hn] using hc
    exact hw.symm
  case h_2 hn =>
    have hw : w = 0x00EE#16 := by simpa [isCanonicalWord, hop, hn] using hc
    exact hw.symm
  case h_3 => exact wordOfAddr_of_fieldOp hop

theorem encode_decodeFamily8 (hop : fieldOp w = 0x8#4) (hc : isCanonicalWord w = true) : encode (decodeFamily8 w) = w := by
  unfold decodeFamily8
  split
  case h_7 hn | h_9 hn => exact wordOfNibbles_of_fields hop (by simpa [isCanonicalWord, hop, hn] using hc) hn
  case h_10 => exact wordOfNibbles_of_fields hop rfl rfl
  all_goals exact wordOfNibbles_of_fields hop rfl ‹_›

theorem encode_decodeFamilyE (hop : fieldOp w = 0xE#4) (hc : isCanonicalWord w = true) : encode (decodeFamilyE w) = w := by
  unfold decodeFamilyE
  split
  case h_1 hn | h_2 hn =>
    rw [encode, wordOfByte_eq_wordOfNibbles]
    exact wordOfNibbles_of_fields hop (by simpa [isCanonicalWord, hop, hn] using hc) hn
  case h_3 => exact wordOfNibbles_of_fields hop rfl rfl

theorem encode_decodeFamilyF (hop : fieldOp w = 0xF#4) : encode (decodeFamilyF w) = w := by
  unfold decodeFamilyF
  split
  case h_10 => exact wordOfByte_of_fields hop rfl
  all_goals exact wordOfByte_of_fields hop ‹_›

/-- On canonical words the encoder inverts the decoder; the ignored bits of the aliases are those R74 gives. -/
theorem encode_decode (hc : isCanonicalWord w = true) : encode (decode w) = w := by
  unfold decode
  split
  case h_1 hop => exact encode_decodeFamily0 hop hc
  case h_9 hop => exact encode_decodeFamily8 hop hc
  case h_15 hop => exact encode_decodeFamilyE hop hc
  case h_16 => exact encode_decodeFamilyF (by simp only [imp_false] at *; bv_omega)
  case h_6 hop => exact wordOfNibbles_of_fields hop rfl (by simpa [isCanonicalWord, hop] using hc)
  case h_10 hop => exact wordOfNibbles_of_fields hop rfl (by simpa [isCanonicalWord, hop] using hc)
  case h_14 hop => exact wordOfNibbles_of_fields hop rfl rfl
  case h_2 hop | h_3 hop | h_11 hop | h_12 hop => exact wordOfAddr_of_fieldOp hop
  all_goals exact wordOfByte_of_fields ‹_› rfl

end Canonical

/-! ### Rows and aliases (R72, R73) -/

/-- A matching row of priority 0 is selected (R73). -/
theorem mem_selectedRows {table : List OpcodeRow} {r : OpcodeRow} {w : Word} (hr : r ∈ table) (hp : r.priority = 0)
    (hw : r.matchesWord w = true) : r ∈ selectedRows table w := by
  have hmem : r ∈ table.filter fun r => r.priority == 0 && r.matchesWord w :=
    List.mem_filter.mpr ⟨hr, by simp [hp, hw]⟩
  unfold selectedRows
  split
  case h_1 hnil => exact absurd (hnil ▸ hmem) List.not_mem_nil
  case h_2 => exact hmem

/-- A word that matches a row of priority 0 is the instruction the row builds (R73). -/
theorem encodedBy_row {r : OpcodeRow} (hr : r ∈ opcodeTable) (hp : r.priority = 0) :
    EncodedBy r.mask r.pattern r.build := by
  intro w hw
  have hbuild := List.mem_map_of_mem (f := fun r => r.build w) (mem_selectedRows hr hp (beq_iff_eq.mpr hw))
  rw [build_selectedRows_opcodeTable, List.mem_singleton] at hbuild
  exact hbuild.symm

theorem encodedBy_cls : EncodedBy 0xF00F#16 0x0000#16 fun _ => .cls :=
  encodedBy_row (r := ⟨"CLS", _, _, 0, _⟩) (by simp [opcodeTable, opcodeRowsLow]) rfl

theorem encodedBy_ret : EncodedBy 0xF00F#16 0x000E#16 fun _ => .ret :=
  encodedBy_row (r := ⟨"RET", _, _, 0, _⟩) (by simp [opcodeTable, opcodeRowsLow]) rfl

theorem encodedBy_seReg : EncodedBy 0xF000#16 0x5000#16 fun w => .seReg (fieldX w) (fieldY w) :=
  encodedBy_row (r := ⟨"SE.reg", _, _, 0, _⟩) (by simp [opcodeTable, opcodeRowsLow]) rfl

theorem encodedBy_sneReg : EncodedBy 0xF000#16 0x9000#16 fun w => .sneReg (fieldX w) (fieldY w) :=
  encodedBy_row (r := ⟨"SNE.reg", _, _, 0, _⟩) (by simp [opcodeTable, opcodeRowsHigh]) rfl

theorem encodedBy_shr : EncodedBy 0xF00F#16 0x8006#16 fun w => .shr (fieldX w) :=
  encodedBy_row (r := ⟨"SHR", _, _, 0, _⟩) (by simp [opcodeTable, opcodeRows8]) rfl

theorem encodedBy_shl : EncodedBy 0xF00F#16 0x800E#16 fun w => .shl (fieldX w) :=
  encodedBy_row (r := ⟨"SHL", _, _, 0, _⟩) (by simp [opcodeTable, opcodeRows8]) rfl

theorem encodedBy_skp : EncodedBy 0xF00F#16 0xE00E#16 fun w => .skp (fieldX w) :=
  encodedBy_row (r := ⟨"SKP", _, _, 0, _⟩) (by simp [opcodeTable, opcodeRowsHigh]) rfl

theorem encodedBy_sknp : EncodedBy 0xF00F#16 0xE001#16 fun w => .sknp (fieldX w) :=
  encodedBy_row (r := ⟨"SKNP", _, _, 0, _⟩) (by simp [opcodeTable, opcodeRowsHigh]) rfl

section Masked
variable {w m b : Word}

theorem fieldX_and_of (hm : fieldX m = BitVec.allOnes 4) : fieldX (w &&& m) = fieldX w := by
  unfold fieldX at hm ⊢
  rw [BitVec.extractLsb'_and, hm, BitVec.and_allOnes]

theorem fieldY_and_of (hm : fieldY m = BitVec.allOnes 4) : fieldY (w &&& m) = fieldY w := by
  unfold fieldY at hm ⊢
  rw [BitVec.extractLsb'_and, hm, BitVec.and_allOnes]

theorem fieldX_or_of (hb : fieldX b = 0#4) : fieldX (w ||| b) = fieldX w := by
  unfold fieldX at hb ⊢
  rw [BitVec.extractLsb'_or, hb, BitVec.or_zero]

variable {mask p : Word} {build : Word → Instr}

/-- Two words that agree under a row's mask, and from which the row builds the same, are aliases (R72). -/
theorem Safety.EncodedBy.decode_eq (h : EncodedBy mask p build) {w' : Word} (hw : w &&& mask = p)
    (hm : w' &&& mask = w &&& mask) (hb : build w' = build w) : decode w = decode w' := by
  rw [h w hw, h w' (hm.trans hw), hb]

/-- Clearing bits outside the mask keeps the row. -/
theorem Safety.EncodedBy.decode_and (h : EncodedBy mask p build) (hw : w &&& mask = p) (hm : m &&& mask = mask)
    (hb : build (w &&& m) = build w) : decode w = decode (w &&& m) :=
  h.decode_eq hw (by rw [BitVec.and_assoc, hm]) hb

/-- Clearing and then setting bits outside the mask keeps the row. -/
theorem Safety.EncodedBy.decode_and_or (h : EncodedBy mask p build) (hw : w &&& mask = p) (hm : m &&& mask = mask)
    (h0 : b &&& mask = 0#16) (hb : build (w &&& m ||| b) = build w) : decode w = decode (w &&& m ||| b) :=
  h.decode_eq hw (by rw [BitVec.and_or_distrib_right, BitVec.and_assoc, hm, h0, BitVec.or_zero]) hb

end Masked

/-! ### The no-op space in numbers (R70) -/

theorem toNat_fieldOp (w : Word) : (fieldOp w).toNat = w.toNat / 4096 := by
  rw [fieldOp, BitVec.extractLsb'_toNat, Nat.shiftRight_eq_div_pow]
  omega

theorem toNat_fieldN (w : Word) : (fieldN w).toNat = w.toNat % 16 := by
  simp [fieldN]

theorem toNat_fieldKK (w : Word) : (fieldKK w).toNat = w.toNat % 256 := by
  simp [fieldKK]

theorem not_definedKey0_iff (k : Nibble) : ¬ definedKey0 k ↔ k.toNat ∉ [0x0, 0xE] := by decide +revert

theorem not_definedKey8_iff (k : Nibble) : ¬ definedKey8 k ↔ k.toNat ∈ [0x8, 0x9, 0xA, 0xB, 0xC, 0xD, 0xF] := by
  decide +revert

theorem not_definedKeyE_iff (k : Nibble) : ¬ definedKeyE k ↔ k.toNat ∉ [0xE, 0x1] := by decide +revert

theorem not_definedKeyF_iff (k : Byte) :
    ¬ definedKeyF k ↔ k.toNat ∉ [0x07, 0x0A, 0x15, 0x18, 0x1E, 0x29, 0x33, 0x55, 0x65] := by
  simp [definedKeyF, ← BitVec.toNat_inj]

theorem unmatchedKey_iff (w : Word) : UnmatchedKey w ↔
    (w.toNat / 4096 = 0x0 ∧ w.toNat % 16 ∉ [0x0, 0xE]) ∨
    (w.toNat / 4096 = 0x8 ∧ w.toNat % 16 ∈ [0x8, 0x9, 0xA, 0xB, 0xC, 0xD, 0xF]) ∨
    (w.toNat / 4096 = 0xE ∧ w.toNat % 16 ∉ [0xE, 0x1]) ∨
    (w.toNat / 4096 = 0xF ∧ w.toNat % 256 ∉ [0x07, 0x0A, 0x15, 0x18, 0x1E, 0x29, 0x33, 0x55, 0x65]) := by
  rw [UnmatchedKey, not_definedKey0_iff, not_definedKey8_iff, not_definedKeyE_iff, not_definedKeyF_iff]
  simp only [← BitVec.toNat_inj, toNat_fieldOp, toNat_fieldN, toNat_fieldKK]
  rfl

end Sys2Proof

namespace Sys2Proof.Proofs
open Sys2Proof Sys2Proof.Safety

/-- Settles O1: the fields of a canonical word are the operands it was put together from, and the key of a well-formed
no-op matches no row of its family. -/
theorem decodeEncodeRoundTrip : Obligations.DecodeEncodeRoundTrip := by
  unfold Obligations.DecodeEncodeRoundTrip
  exact fun _ => decode_encode

/-- Settles O2: a decoded no-op has an unmatched key, and no other instruction carries a condition. -/
theorem decodeGivesWellFormed : Obligations.DecodeGivesWellFormed := by
  unfold Obligations.DecodeGivesWellFormed
  exact wellFormed_decode

/-- Settles O3, family by family. -/
theorem canonicalWordsEncodeBack : Obligations.CanonicalWordsEncodeBack := by
  unfold Obligations.CanonicalWordsEncodeBack
  exact fun _ => encode_decode

/-- Settles O4: each pair of words agrees under the mask of its row, and in the operands the row reads. -/
theorem aliasesSelectTheCanonicalBehaviour : Obligations.AliasesSelectTheCanonicalBehaviour := by
  unfold Obligations.AliasesSelectTheCanonicalBehaviour
  refine ⟨fun w h => ⟨encodedBy_cls w h, encodedBy_cls w h⟩, rfl, fun w h => ⟨encodedBy_ret w h, encodedBy_ret w h⟩,
    fun w h => encodedBy_seReg.decode_and h rfl ?_, fun w h => encodedBy_sneReg.decode_and h rfl ?_,
    fun w h => encodedBy_shr.decode_and h rfl ?_, fun w h => encodedBy_shl.decode_and h rfl ?_,
    fun w h => encodedBy_skp.decode_and_or h rfl rfl ?_, fun w h => encodedBy_sknp.decode_and_or h rfl rfl ?_⟩
  · rw [fieldX_and_of rfl, fieldY_and_of rfl]
  · rw [fieldX_and_of rfl, fieldY_and_of rfl]
  · rw [fieldX_and_of rfl]
  · rw [fieldX_and_of rfl]
  · rw [fieldX_or_of rfl, fieldX_and_of rfl]
  · rw [fieldX_or_of rfl, fieldX_and_of rfl]

/-- Settles O5: the one row a word selects builds what the lookup gives. -/
theorem opcodeTableAgreesWithTheTwoLevelLookup : Obligations.OpcodeTableAgreesWithTheTwoLevelLookup := by
  unfold Obligations.OpcodeTableAgreesWithTheTwoLevelLookup
  exact decodeByTable_opcodeTable

/-- Settles O6: the selected rows build one instruction, so they are one. -/
theorem everyWordSelectsOneRow : Obligations.EveryWordSelectsOneRow := by
  unfold Obligations.EveryWordSelectsOneRow
  refine ⟨rfl, fun w => ?_⟩
  rw [← List.length_map (fun r : OpcodeRow => r.build w), build_selectedRows_opcodeTable, List.length_singleton]

/-- Settles O7: a no-op is an unmatched key, read as numbers. -/
theorem noOpSpaceIsTheUnmatchedKeys : Obligations.NoOpSpaceIsTheUnmatchedKeys := by
  unfold Obligations.NoOpSpaceIsTheUnmatchedKeys
  exact fun w => (isNoOp_decode w).trans (unmatchedKey_iff w)

/-- Settles O8: the lookup evaluated at each word. -/
theorem spelledWordsDecode : Obligations.SpelledWordsDecode := by
  unfold Obligations.SpelledWordsDecode
  decide

end Sys2Proof.Proofs

/-! Proofs about the rules of 40_step_dispatch.md: the step by its three equations (R80), execute always answers (R64),
the tick (R84), the no-op (R85), and the halted core (R87). -/

namespace Sys2Proof.Machine
open Sys2Proof.Safety

variable {cfg : Config} {s t : State} {i : Instr}

/-! ### The step, one equation per phase that ends it (R80); the third is `step_running` -/

/-- A halted core does not change (R87). -/
theorem step_halted (hf : s.fault ≠ .none) : step s = .next s := if_pos ((halted_iff s).mpr hf)

/-- A running core with no word to fetch raises FETCH_RANGE on the state as it is (R81, R86). -/
theorem step_fetchFault (hf : Running s) (hpc : 4095 ≤ s.pc.toNat) :
    step s = .next (s.takeFault s.pc .fetchRange s.pc) := by
  have hw : fetchWord Config.taken s = none := fetchWord_eq_none.mpr (Nat.succ_le_succ hpc)
  rw [step, stepPhases, if_neg (by simpa using hf), hw]
  rfl

theorem finish_of_running (ht : Running t) : finish t = t.tick := by rw [finish_eq, if_pos ht]

theorem finish_of_faulted (ht : t.fault ≠ .none) : finish t = t := by rw [finish_eq, if_neg ht]

/-! ### Execute always answers a next state (R64, R183): a fault is one too -/

theorem callTo_answers (cfg : Config) (nnn : Addr12) (s : State) : ∃ t, callTo cfg nnn s = .next t := by
  unfold callTo
  split <;> exact ⟨_, rfl⟩

theorem execRet_answers (s : State) : ∃ t, execRet s = .next t := by
  unfold execRet
  split <;> exact ⟨_, rfl⟩

/-- JP V0 is refused under no configuration that defines it (R97). -/
theorem jumpV0_of_defined (h : cfg.bnnnDefined = true) (nnn : Addr12) (s : State) :
    jumpV0 cfg nnn s = .next (s.setPc (zext12 nnn + zext8 (s.getV 0x0#4))) := if_pos h

theorem draw_answers (cfg : Config) (x y : RegIdx) (n : Nibble) (s : State) : ∃ t, draw cfg x y n s = .next t := by
  unfold draw
  split <;> exact ⟨_, rfl⟩

theorem skipOnKey_answers (cfg : Config) (pressed : Bool) (x : RegIdx) (s : State) :
    ∃ t, skipOnKey cfg pressed x s = .next t := by
  unfold skipOnKey
  split <;> exact ⟨_, rfl⟩

theorem execLdVxK_answers (x : RegIdx) (s : State) : ∃ t, execLdVxK x s = .next t := by
  unfold execLdVxK
  split <;> exact ⟨_, rfl⟩

theorem storeAtI_answers (cfg : Config) (bs : List Byte) (s : State) : ∃ t, storeAtI cfg bs s = .next t := by
  unfold storeAtI
  split <;> exact ⟨_, rfl⟩

theorem loadAtI_answers (cfg : Config) (x : RegIdx) (s : State) : ∃ t, loadAtI cfg x s = .next t := by
  unfold loadAtI
  split <;> exact ⟨_, rfl⟩

theorem exec_answers (i : Instr) (s : State) : ∃ t, exec i s = .next t := by
  cases i
  case call nnn => exact callTo_answers _ nnn s
  case ret => exact execRet_answers s
  case jpV0 nnn => exact ⟨_, jumpV0_of_defined Config.taken_bnnnDefined nnn s⟩
  case drw x y n => exact draw_answers _ x y n s
  case skp x | sknp x => exact skipOnKey_answers _ _ x s
  case ldVxK x => exact execLdVxK_answers x s
  case ldB | ldMemVx => exact storeAtI_answers _ _ s
  case ldVxMem x => exact loadAtI_answers _ x s
  all_goals exact ⟨_, rfl⟩

theorem step_answers (s : State) : ∃ t, step s = .next t := by
  by_cases hf : Running s
  · obtain hpc | hpc := Nat.lt_or_ge s.pc.toNat 4095
    · obtain ⟨u, hu⟩ := exec_answers (instrAt s) s.advance
      exact ⟨finish u, by rw [step_running hf (Nat.le_of_lt_succ hpc), hu, finishResult]⟩
    · exact ⟨_, step_fetchFault hf hpc⟩
  · exact ⟨s, step_halted hf⟩

/-! ### The halted core (R87) -/

/-- The first of `k + 1` steps, when it answers a next state. -/
theorem run_succ {M : Host.Core} {a b : M.State} (h : M.step a = .next b) (k : Nat) : M.run (k + 1) a = M.run k b := by
  rw [Host.Core.run, h]

theorem run_halted (hf : s.fault ≠ .none) (k : Nat) : Host.Core.run Sys2Proof.core k s = .next s := by
  induction k with
  | zero => rfl
  | succ k ih => exact (run_succ (M := Sys2Proof.core) (step_halted hf) k).trans ih

theorem outcomeAfter_halted (hf : s.fault ≠ .none) (k : Nat) :
    outcomeAfter k s = .fault (.halted s.fault s.faultPc s.faultInfo) := by
  rw [outcomeAfter, run_halted hf]
  exact if_pos ((halted_iff s).mpr hf)

/-! ### The timers through execute (R84) -/

/-- An instruction that leaves a running core faulted has taken a fault and done nothing else (R183). -/
theorem ExecEffect.eq_takeFault (h : ExecEffect cfg s i t) (hs : Running s) (ht : t.fault ≠ .none) :
    ∃ c info, t = s.takeFault (s.pc - instrWidth) c info := by
  cases h with
  | fault => exact ⟨_, _, rfl⟩
  | skip => exact absurd ((State.skipIf_fault _ _).trans hs) ht
  | _ => exact absurd hs ht

/-- The delay timer after execute: `V[x]` for LD DT,Vx, else the old one (R171). -/
theorem exec_dt (h : exec i s = .next t) :
    (∀ x, i = .ldDtVx x → t.dt = s.getV x) ∧ ((∀ x, i ≠ .ldDtVx x) → t.dt = s.dt) := by
  refine ⟨fun x hi => ?_, fun hi => (exec_effect h).dt_cases.resolve_right fun ⟨x, hx⟩ => hi x hx⟩
  subst hi
  cases h
  rfl

/-- The sound timer after execute: `V[x]` for LD ST,Vx, else the old one (R172). -/
theorem exec_st (h : exec i s = .next t) :
    (∀ x, i = .ldStVx x → t.st = s.getV x) ∧ ((∀ x, i ≠ .ldStVx x) → t.st = s.st) := by
  refine ⟨fun x hi => ?_, fun hi => (exec_effect h).st_cases.resolve_right fun ⟨x, hx⟩ => hi x hx⟩
  subst hi
  cases h
  rfl

/-! ### The no-op (R85) -/

theorem exec_of_isNoOp (hi : isNoOp i = true) (s : State) : exec i s = .next s := by
  cases i
  case nop0 | nop8 | nopE | nopF => rfl
  all_goals cases hi

/-- A running core at a no-op advances and ticks (R85). -/
theorem step_noOp (hf : Running s) (hpc : s.pc.toNat ≤ 4094) (hi : isNoOp (instrAt s) = true) :
    step s = .next s.advance.tick := by
  rw [step_running hf hpc, exec_of_isNoOp hi, finishResult, finish_of_running (t := s.advance) hf]

/-- The keys that family 8 leaves over, listed by what they are not (R68). -/
theorem mem_unmatchedKeys8_iff (k : Nibble) : k.toNat ∈ [0x8, 0x9, 0xA, 0xB, 0xC, 0xD, 0xF] ↔
    k.toNat ∉ [0x0, 0x1, 0x2, 0x3, 0x4, 0x5, 0x6, 0x7, 0xE] := by decide +revert

end Sys2Proof.Machine

namespace Sys2Proof.Proofs
open Sys2Proof Sys2Proof.Machine Sys2Proof.Safety

/-- Settles O10: a halted core answers itself, a fetch out of range and every instruction answer a next state. -/
theorem stepAlwaysAnswersANextState : Obligations.StepAlwaysAnswersANextState := by
  unfold Obligations.StepAlwaysAnswersANextState
  exact step_answers

/-- Settles O14, by induction on the number of steps. -/
theorem haltedCoreIgnoresSteps : Obligations.HaltedCoreIgnoresSteps := by
  unfold Obligations.HaltedCoreIgnoresSteps
  exact fun s hf => ⟨fun k => ⟨run_halted hf k, outcomeAfter_halted hf k⟩, fun cfg => hostReset_fault cfg s⟩

/-- Settles O15: what execute leaves in the timers is ticked when no fault was raised, and a fault leaves them. -/
theorem timersTickOncePerStep : Obligations.TimersTickOncePerStep := by
  unfold Obligations.TimersTickOncePerStep
  intro s t hrun hstep
  obtain hpc | hpc := Nat.lt_or_ge s.pc.toNat 4095
  · obtain ⟨u, hu, rfl⟩ := finishResult_eq_next.mp ((step_running hrun (Nat.le_of_lt_succ hpc)).symm.trans hstep)
    rw [Running, finish_fault]
    refine ⟨fun hok => ?_, fun hfault => ?_⟩
    · obtain ⟨hdtLoad, hdtKeep⟩ := exec_dt hu
      obtain ⟨hstLoad, hstKeep⟩ := exec_st hu
      rw [finish_of_running hok, State.tick_dt, State.tick_st, toNat_tickTimer, toNat_tickTimer]
      constructor
      · split
        next x hi => rw [hdtLoad x hi, State.advance_getV]
        next hi => rw [hdtKeep hi, State.advance_dt]
      · split
        next x hi => rw [hstLoad x hi, State.advance_getV]
        next hi => rw [hstKeep hi, State.advance_st]
    · obtain ⟨c, info, rfl⟩ := (exec_effect hu).eq_takeFault hrun hfault
      rw [finish_of_faulted hfault]
      exact ⟨rfl, rfl⟩
  · cases (step_fetchFault hrun hpc).symm.trans hstep
    exact ⟨fun ht => (by cases ht), fun _ => ⟨rfl, rfl⟩⟩

/-- Settles O31: the no-op space in numbers, and the step at a word of it. -/
theorem noOpOnlyAdvancesAndTicks : Obligations.NoOpOnlyAdvancesAndTicks := by
  unfold Obligations.NoOpOnlyAdvancesAndTicks
  refine ⟨fun w hw => ?_, fun s _ _ => exec_of_isNoOp rfl s, fun s _ _ _ _ => exec_of_isNoOp rfl s,
    fun s _ _ _ _ => exec_of_isNoOp rfl s, fun s _ _ _ => exec_of_isNoOp rfl s, fun s hrun hpc hi => ?_⟩
  · rw [isNoOp_decode, unmatchedKey_iff, ← toNat_fieldN, mem_unmatchedKeys8_iff, toNat_fieldN]
    exact hw
  · exact ⟨_, step_noOp hrun hpc hi, rfl, State.toNat_advance_pc hpc, toNat_tickTimer s.dt, toNat_tickTimer s.st⟩

/-- Settles O9: a running core finishes what execute answers at `pc`, and finishing ticks a state without a fault. -/
theorem stepRunsTheDecodedInstruction : Obligations.StepRunsTheDecodedInstruction := by
  unfold Obligations.StepRunsTheDecodedInstruction
  intro s hrun hpc
  have hstep : step s = finishResult (exec (instrAt s) { s with pc := s.pc + 2#16 }) := step_running hrun hpc
  split
  next t ht => rw [hstep, ht, finishResult, finish_eq, State.tick]
  next r hr => rw [hstep, hr, finishResult]
  next r hr => rw [hstep, hr, finishResult]

/-- Settles O13: no word is fetched from 4095 on, and every word up to 4094 is. -/
theorem fetchPastMemoryFaults : Obligations.FetchPastMemoryFaults := by
  unfold Obligations.FetchPastMemoryFaults
  refine ⟨fun s hrun hpc => step_fetchFault hrun hpc, fun s hpc hnone => ?_⟩
  have hpast := fetchWord_eq_none.mp hnone
  rw [Config.taken_memSize] at hpast
  omega

end Sys2Proof.Proofs

/-! Proofs about the control-flow rules of 41_control_flow.md: jumps (R90, R97), the run of a jump to itself (R88), call
and return (R91, R92), and the compare-and-skip instructions (R93 to R96). -/

namespace Sys2Proof
open Sys2Proof.Safety

/-! ### The rows of the control-flow families (R73); RET and the two register compares have theirs above -/

theorem encodedBy_jp : EncodedBy 0xF000#16 0x1000#16 fun w => .jp (fieldNNN w) :=
  encodedBy_row (r := ⟨"JP", _, _, 0, _⟩) (by simp [opcodeTable, opcodeRowsLow]) rfl

theorem encodedBy_call : EncodedBy 0xF000#16 0x2000#16 fun w => .call (fieldNNN w) :=
  encodedBy_row (r := ⟨"CALL", _, _, 0, _⟩) (by simp [opcodeTable, opcodeRowsLow]) rfl

theorem encodedBy_seByte : EncodedBy 0xF000#16 0x3000#16 fun w => .seByte (fieldX w) (fieldKK w) :=
  encodedBy_row (r := ⟨"SE.kk", _, _, 0, _⟩) (by simp [opcodeTable, opcodeRowsLow]) rfl

theorem encodedBy_sneByte : EncodedBy 0xF000#16 0x4000#16 fun w => .sneByte (fieldX w) (fieldKK w) :=
  encodedBy_row (r := ⟨"SNE.kk", _, _, 0, _⟩) (by simp [opcodeTable, opcodeRowsLow]) rfl

theorem encodedBy_jpV0 : EncodedBy 0xF000#16 0xB000#16 fun w => .jpV0 (fieldNNN w) :=
  encodedBy_row (r := ⟨"JP.V0", _, _, 0, _⟩) (by simp [opcodeTable, opcodeRowsHigh]) rfl

end Sys2Proof

namespace Sys2Proof.Machine
open Sys2Proof.Safety

variable {s t : State} {nnn : Addr12}

/-! ### The frame of a jump or skip: the state itself, but for `pc` and the call stack -/

theorem keepsAllButPcAndStack_update (s : State) (w : Word) (n : Nat) (stack : List Word) :
    KeepsAllButPcAndStack s { s with pc := w, sp := n, stack := stack } :=
  ⟨fun _ _ => rfl, rfl, ⟨rfl, rfl⟩, fun _ _ => rfl, fun _ => rfl, rfl, rfl, rfl, rfl, rfl⟩

theorem keepsStack_setPc (s : State) (w : Word) : KeepsStack s (s.setPc w) := ⟨rfl, rfl⟩

theorem keepsAllButPcAndStack_setPc (s : State) (w : Word) : KeepsAllButPcAndStack s (s.setPc w) :=
  keepsAllButPcAndStack_update s w s.sp s.stack

/-! ### What the control-flow instructions answer -/

theorem exec_jp (nnn : Addr12) (s : State) : exec (.jp nnn) s = .next (s.setPc (zext12 nnn)) := rfl

theorem exec_jpV0 (nnn : Addr12) (s : State) :
    exec (.jpV0 nnn) s = .next (s.setPc (zext12 nnn + zext8 (s.getV 0x0#4))) :=
  jumpV0_of_defined Config.taken_bnnnDefined nnn s

/-- The largest target of JP V0, 0xFFF + 0xFF, fits 16 bits, so nothing wraps (R97). -/
theorem toNat_zext12_add_zext8 (nnn : Addr12) (b : Byte) : (zext12 nnn + zext8 b).toNat = nnn.toNat + b.toNat := by
  have := nnn.isLt
  have := b.isLt
  rw [BitVec.toNat_add, toNat_zext12, toNat_zext8]
  omega

/-- The state after a call below the capacity: `pc`, the return address, pushed, and the jump made (R91). -/
def State.called (s : State) (nnn : Addr12) : State :=
  { s with pc := zext12 nnn, sp := s.sp + 1, stack := s.stack.set s.sp s.pc }

/-- The state after a return with an entry on the stack: the top entry popped into `pc` (R92). -/
def State.returned (s : State) : State := { s with pc := s.entry (s.sp - 1), sp := s.sp - 1 }

theorem exec_call_of_lt (h : s.sp < 16) : exec (.call nnn) s = .next (s.called nnn) := by
  have hpush : s.push Config.taken s.pc = some _ := State.push_eq_some.mpr ⟨h, rfl⟩
  rw [exec, execCall, callTo, hpush]
  rfl

theorem exec_call_of_le (h : 16 ≤ s.sp) :
    exec (.call nnn) s = raise .stackOverflow (BitVec.ofNat 16 s.sp) s := by
  have hpush : s.push Config.taken s.pc = none := State.push_eq_none.mpr h
  rw [exec, execCall, callTo, hpush]

theorem exec_ret_of_pos (h : 0 < s.sp) : exec .ret s = .next s.returned := by
  rw [exec, execRet, State.pop_eq_some.mpr ⟨h, rfl, rfl⟩]
  rfl

theorem exec_ret_of_eq_zero (h : s.sp = 0) : exec .ret s = raise .stackUnderflow 0#16 s := by
  rw [exec, execRet, State.pop_eq_none.mpr h]

/-- A raise answers the state before the instruction with the latch written (R183). -/
theorem raise_raisedFrom (c : Cause) (info : Nat) (s : State) :
    ∃ t, raise c (BitVec.ofNat 16 info) s = .next t ∧ RaisedFrom s t c info := ⟨_, rfl, rfl⟩

/-- A call adds one entry, the return address, on top of those that are there (R91). -/
theorem State.called_entry (h : s.sp < s.stack.length) (nnn : Addr12) (k : Nat) :
    (s.called nnn).entry k = if k = s.sp then s.pc else s.entry k := State.entry_set h s.pc (s.sp + 1) k

/-! ### Skips (R98) -/

/-- A skip on a condition adds one instruction width to `pc` exactly when it holds, and changes nothing else. -/
theorem skipIf_spec (s : State) {c : Bool} {p : Prop} [Decidable p] (hc : c = true ↔ p) :
    (s.skipIf c).pc = (if p then s.pc + 2#16 else s.pc) ∧ KeepsStack s (s.skipIf c) ∧
      KeepsAllButPcAndStack s (s.skipIf c) := by
  refine ⟨(State.skipIf_pc s c).trans (if_congr hc rfl rfl), ?_⟩
  cases c
  case false => exact ⟨⟨rfl, rfl⟩, keepsAllButPcAndStack_update s s.pc s.sp s.stack⟩
  case true => exact ⟨keepsStack_setPc s _, keepsAllButPcAndStack_setPc s _⟩

/-- SE's form: the skip is taken when the two bytes are equal (R93, R95). -/
theorem skipIf_beq_spec (s : State) (a b : Byte) : ∃ t, (.next (s.skipIf (a == b)) : Result) = .next t ∧
    t.pc = (if a.toNat = b.toNat then s.pc + 2#16 else s.pc) ∧ KeepsStack s t ∧ KeepsAllButPcAndStack s t :=
  ⟨_, rfl, skipIf_spec s (beq_iff_eq.trans BitVec.toNat_inj.symm)⟩

/-- SNE's form: the skip is taken when the two bytes differ (R94, R96). -/
theorem skipIf_bne_spec (s : State) (a b : Byte) : ∃ t, (.next (s.skipIf (a != b)) : Result) = .next t ∧
    t.pc = (if a.toNat = b.toNat then s.pc else s.pc + 2#16) ∧ KeepsStack s t ∧ KeepsAllButPcAndStack s t := by
  have hc : (a != b) = true ↔ ¬ a.toNat = b.toNat := bne_iff_ne.trans (not_congr BitVec.toNat_inj.symm)
  obtain ⟨hpc, hkeeps⟩ := skipIf_spec s hc
  exact ⟨_, rfl, hpc.trans (ite_not ..), hkeeps⟩

/-! ### A step whose instruction raises no fault, and the outcome of a run -/

theorem step_of_exec {i : Instr} (hrun : Running s) (hpc : s.pc.toNat ≤ 4094) (hi : instrAt s = i)
    (hexec : exec i s.advance = .next t) (ht : Running t) : step s = .next t.tick := by
  rw [step_running hrun hpc, hi, hexec, finishResult, finish_of_running ht]

theorem outcomeAfter_of_run {k : Nat} (h : Host.Core.run Sys2Proof.core k s = .next t) (ht : Running t) :
    outcomeAfter k s = .next t := by
  rw [outcomeAfter, h]
  exact if_neg (by simpa using ht)

/-! ### A jump to itself (R88, R90): every step is a tick and nothing else -/

/-- A running core whose `pc` can be fetched and holds a jump to `pc` itself. -/
def JumpsToSelf (s : State) : Prop :=
  Running s ∧ s.pc.toNat ≤ 4094 ∧ instrAt s = .jp (s.pc.extractLsb' 0 12)

/-- The low 12 bits of an address inside memory are the whole of it. -/
theorem zext12_extractLsb' {w : Word} (h : w.toNat ≤ 4094) : zext12 (w.extractLsb' 0 12) = w := by
  apply BitVec.eq_of_toNat_eq
  rw [toNat_zext12, BitVec.extractLsb'_toNat, Nat.shiftRight_zero]
  omega

theorem JumpsToSelf.step_eq (h : JumpsToSelf s) : step s = .next s.tick := by
  obtain ⟨hrun, hpc, hi⟩ := h
  have hexec : exec (.jp (s.pc.extractLsb' 0 12)) s.advance = .next s := by
    rw [exec_jp, zext12_extractLsb' hpc]
    rfl
  exact step_of_exec hrun hpc hi hexec hrun

/-- A tick leaves `pc`, memory and the latch, so the jump stays. -/
theorem JumpsToSelf.tick (h : JumpsToSelf s) : JumpsToSelf s.tick := h

theorem JumpsToSelf.run_eq (h : JumpsToSelf s) (k : Nat) :
    Host.Core.run Sys2Proof.core k s = .next (State.tick^[k] s) := by
  induction k generalizing s with
  | zero => rfl
  | succ k ih => exact (run_succ (M := Sys2Proof.core) h.step_eq k).trans (ih h.tick)

/-- Ticks bear on the two timers alone. -/
theorem iterate_tick (s : State) (k : Nat) :
    State.tick^[k] s = { s with dt := tickTimer^[k] s.dt, st := tickTimer^[k] s.st } := by
  induction k generalizing s with
  | zero => rfl
  | succ k ih => exact ih s.tick

/-- `k` ticks take `k` off a timer, down to 0 (R84). -/
theorem toNat_iterate_tickTimer (b : Byte) (k : Nat) : (tickTimer^[k] b).toNat = b.toNat - k := by
  induction k generalizing b with
  | zero => rfl
  | succ k ih =>
    rw [Function.iterate_succ_apply, ih, toNat_tickTimer]
    omega

/-! ### A call and a return, as steps (R91, R92) -/

theorem step_call (hrun : Running s) (hpc : s.pc.toNat ≤ 4094) (hi : instrAt s = .call nnn) (hsp : s.sp < 16) :
    step s = .next (s.advance.called nnn).tick :=
  step_of_exec hrun hpc hi (exec_call_of_lt (s := s.advance) hsp) hrun

theorem step_ret (hrun : Running s) (hpc : s.pc.toNat ≤ 4094) (hi : instrAt s = .ret) (hsp : 0 < s.sp) :
    step s = .next s.advance.returned.tick :=
  step_of_exec hrun hpc hi (exec_ret_of_pos (s := s.advance) hsp) hrun

/-- After a call the instruction at `pc` is the one at the target, since a call leaves memory as it was. -/
theorem instrAt_called (s : State) (nnn : Addr12) : instrAt (s.advance.called nnn).tick =
    decode (wordOfBytes (s.readByte nnn.toNat) (s.readByte (nnn.toNat + 1))) := by
  have hpc : (s.advance.called nnn).tick.pc.toNat = nnn.toNat := toNat_zext12 nnn
  rw [instrAt, hpc]
  rfl

/-- A call and then a return: only the storage of the entry at `sp` and the timers differ from advancing past the call. -/
theorem returned_called (hin : s.sp < s.stack.length) (nnn : Addr12) :
    (s.advance.called nnn).tick.advance.returned.tick =
      { s.advance.tick.tick with stack := s.stack.set s.sp s.advance.pc } := by
  have htop : (s.advance.called nnn).entry s.sp = s.advance.pc :=
    (State.called_entry (s := s.advance) hin nnn s.sp).trans (if_pos rfl)
  exact congrArg (fun w => ({ s.advance.tick.tick with pc := w, stack := s.stack.set s.sp s.advance.pc } : State)) htop

end Sys2Proof.Machine

namespace Sys2Proof.Proofs
open Sys2Proof Sys2Proof.Machine Sys2Proof.Safety

/-- Settles O33: each step of a jump to itself is a tick, so `k` steps are `k` ticks. -/
theorem jumpToSelfSpins : Obligations.JumpToSelfSpins := by
  unfold Obligations.JumpToSelfSpins
  intro s hrun hpc hi k
  have hself : JumpsToSelf s := ⟨hrun, hpc, hi⟩
  exact ⟨_, outcomeAfter_of_run ((hself.run_eq k).trans (congrArg _ (iterate_tick s k))) hrun, rfl,
    toNat_iterate_tickTimer s.dt k, toNat_iterate_tickTimer s.st k⟩

/-- Settles O35: a push answers exactly below 16 entries. -/
theorem callPushesTheReturnAddress : Obligations.CallPushesTheReturnAddress := by
  unfold Obligations.CallPushesTheReturnAddress
  refine ⟨encodedBy_call, fun nnn s ⟨_, hlen, _⟩ hsp => ?_, fun nnn s hsp => ?_⟩
  · have hin : s.sp < s.stack.length := Nat.lt_of_lt_of_eq hsp hlen.symm
    exact ⟨_, exec_call_of_lt hsp, toNat_zext12 nnn, rfl, State.called_entry hin nnn, keepsAllButPcAndStack_update s ..⟩
  · rw [exec_call_of_le (Nat.le_of_eq hsp.symm)]
    exact raise_raisedFrom _ _ _

/-- Settles O36: a pop answers exactly when an entry is valid, and leaves the storage. -/
theorem retPopsTheReturnAddress : Obligations.RetPopsTheReturnAddress := by
  unfold Obligations.RetPopsTheReturnAddress
  refine ⟨encodedBy_ret, fun s hsp => ?_, fun s hsp => ?_⟩
  · exact ⟨_, exec_ret_of_pos hsp, Nat.sub_add_cancel hsp, rfl, rfl, keepsAllButPcAndStack_update s ..⟩
  · rw [exec_ret_of_eq_zero hsp]
    exact raise_raisedFrom _ 0 _

/-- Settles O37: the return pops the entry the call pushed, at index `sp`, and the entries below it were not written. -/
theorem callThenReturnComesBack : Obligations.CallThenReturnComesBack := by
  unfold Obligations.CallThenReturnComesBack
  intro s nnn ⟨_, hlen, _⟩ hrun hpc hsp hcall hnnn hret
  have hin : s.sp < s.stack.length := Nat.lt_of_lt_of_eq hsp hlen.symm
  have hfirst := step_call hrun hpc hcall hsp
  have htarget : (s.advance.called nnn).tick.pc.toNat ≤ 4094 := (toNat_zext12 nnn).trans_le hnnn
  have hsecond := step_ret (s := (s.advance.called nnn).tick) hrun htarget ((instrAt_called s nnn).trans hret)
    (Nat.succ_pos s.sp)
  rw [returned_called hin] at hsecond
  have htwo := (run_succ (M := Sys2Proof.core) hfirst 1).trans (run_succ (M := Sys2Proof.core) hsecond 0)
  exact ⟨_, outcomeAfter_of_run htwo hrun, State.toNat_advance_pc hpc, rfl,
    fun k hk => (State.entry_set hin s.advance.pc s.sp k).trans (if_neg (Nat.ne_of_lt hk)),
    fun _ _ => rfl, rfl, fun _ => rfl, fun _ _ => rfl, rfl⟩

/-- Settles O38: the four compares in SE's and SNE's two forms of a skip. -/
theorem skipsAddOneInstructionWidthWhenTheCompareHolds :
    Obligations.SkipsAddOneInstructionWidthWhenTheCompareHolds := by
  unfold Obligations.SkipsAddOneInstructionWidthWhenTheCompareHolds
  exact ⟨encodedBy_seByte, encodedBy_sneByte, encodedBy_seReg, encodedBy_sneReg,
    fun x kk s => skipIf_beq_spec s (s.getV x) kk, fun x kk s => skipIf_bne_spec s (s.getV x) kk,
    fun x y s => skipIf_beq_spec s (s.getV x) (s.getV y), fun x y s => skipIf_bne_spec s (s.getV x) (s.getV y)⟩

/-- Settles O32: the zero-extended literal is its number. -/
theorem jpGoesToTheLiteral : Obligations.JpGoesToTheLiteral := by
  unfold Obligations.JpGoesToTheLiteral
  exact ⟨encodedBy_jp, fun nnn s =>
    ⟨_, exec_jp nnn s, toNat_zext12 nnn, keepsStack_setPc s _, keepsAllButPcAndStack_setPc s _⟩⟩

/-- Settles O34: the sum does not wrap, and the one parameter that bears on it is `BNNN_DEFINED`. -/
theorem jpV0AddsV0WithoutMasking : Obligations.JpV0AddsV0WithoutMasking := by
  unfold Obligations.JpV0AddsV0WithoutMasking
  refine ⟨encodedBy_jpV0, fun nnn s => ?_, fun cfg nnn s hdef => ?_, fun cfg nnn s hundef => ?_⟩
  · exact ⟨_, exec_jpV0 nnn s, toNat_zext12_add_zext8 nnn _, keepsStack_setPc s _, keepsAllButPcAndStack_setPc s _⟩
  · rw [jumpV0_of_defined hdef, exec_jpV0]
  · rw [jumpV0, hundef]
    rfl

end Sys2Proof.Proofs

/-! Proofs about the load, arithmetic, logic and shift rules of 42_load_arith.md: the register writes without a flag
(R101 to R106), and the ALU operations that write VF after their result (R107 to R111, R113). -/

namespace Sys2Proof
open Sys2Proof.Safety

/-! ### The rows of the load and ALU instructions (R73); SHR and SHL have theirs above -/

theorem encodedBy_ldByte : EncodedBy 0xF000#16 0x6000#16 fun w => .ldByte (fieldX w) (fieldKK w) :=
  encodedBy_row (r := ⟨"LD.kk", _, _, 0, _⟩) (by simp [opcodeTable, opcodeRowsLow]) rfl

theorem encodedBy_addByte : EncodedBy 0xF000#16 0x7000#16 fun w => .addByte (fieldX w) (fieldKK w) :=
  encodedBy_row (r := ⟨"ADD.kk", _, _, 0, _⟩) (by simp [opcodeTable, opcodeRowsLow]) rfl

theorem encodedBy_ldReg : EncodedBy 0xF00F#16 0x8000#16 fun w => .ldReg (fieldX w) (fieldY w) :=
  encodedBy_row (r := ⟨"LD.reg", _, _, 0, _⟩) (by simp [opcodeTable, opcodeRows8]) rfl

theorem encodedBy_orReg : EncodedBy 0xF00F#16 0x8001#16 fun w => .orReg (fieldX w) (fieldY w) :=
  encodedBy_row (r := ⟨"OR", _, _, 0, _⟩) (by simp [opcodeTable, opcodeRows8]) rfl

theorem encodedBy_andReg : EncodedBy 0xF00F#16 0x8002#16 fun w => .andReg (fieldX w) (fieldY w) :=
  encodedBy_row (r := ⟨"AND", _, _, 0, _⟩) (by simp [opcodeTable, opcodeRows8]) rfl

theorem encodedBy_xorReg : EncodedBy 0xF00F#16 0x8003#16 fun w => .xorReg (fieldX w) (fieldY w) :=
  encodedBy_row (r := ⟨"XOR", _, _, 0, _⟩) (by simp [opcodeTable, opcodeRows8]) rfl

theorem encodedBy_addReg : EncodedBy 0xF00F#16 0x8004#16 fun w => .addReg (fieldX w) (fieldY w) :=
  encodedBy_row (r := ⟨"ADD.reg", _, _, 0, _⟩) (by simp [opcodeTable, opcodeRows8]) rfl

theorem encodedBy_sub : EncodedBy 0xF00F#16 0x8005#16 fun w => .sub (fieldX w) (fieldY w) :=
  encodedBy_row (r := ⟨"SUB", _, _, 0, _⟩) (by simp [opcodeTable, opcodeRows8]) rfl

theorem encodedBy_subn : EncodedBy 0xF00F#16 0x8007#16 fun w => .subn (fieldX w) (fieldY w) :=
  encodedBy_row (r := ⟨"SUBN", _, _, 0, _⟩) (by simp [opcodeTable, opcodeRows8]) rfl

end Sys2Proof

namespace Sys2Proof.Machine
open Sys2Proof.Safety

/-! ### Register writes: what they leave, and what they keep -/

theorem State.getV_setV_self (s : State) (x : RegIdx) (b : Byte) : (s.setV x b).getV x = b := by
  rw [State.getV_setV, if_pos rfl]

/-- VF holds the flag, at `x = 15` too (R113). -/
theorem State.getV_setFlagged_vf (s : State) (x : RegIdx) (r : Byte × Bool) :
    (s.setFlagged x r).getV vf = flagByte r.2 := by
  rw [State.getV_setFlagged, if_pos rfl]

theorem State.getV_setFlagged_self (s : State) {x : RegIdx} (hx : x ≠ vf) (r : Byte × Bool) :
    (s.setFlagged x r).getV x = r.1 := by
  rw [State.getV_setFlagged, if_neg hx, if_pos rfl]

/-- Nothing but the general registers changes when the register file is replaced. -/
theorem keepsAllButV_update (s : State) (v : Vector Byte 16) : KeepsAllButV s { s with v := v } :=
  ⟨rfl, rfl, ⟨rfl, rfl⟩, ⟨rfl, rfl⟩, fun _ _ => rfl, fun _ => rfl, rfl, rfl, rfl, rfl, rfl⟩

/-- The frame of a write to one register. -/
theorem keeps_setV (s : State) (x : RegIdx) (b : Byte) :
    KeepsV [x] s (s.setV x b) ∧ KeepsAllButV s (s.setV x b) := by
  refine ⟨fun r hr => ?_, keepsAllButV_update s _⟩
  rw [State.getV_setV, if_neg (List.ne_of_not_mem_cons hr)]

/-- The frame of a flagged write: the destination and VF. -/
theorem keeps_setFlagged (s : State) (x : RegIdx) (r : Byte × Bool) :
    KeepsV [x, 0xF#4] s (s.setFlagged x r) ∧ KeepsAllButV s (s.setFlagged x r) := by
  refine ⟨fun k hk => ?_, keepsAllButV_update s _⟩
  have hx : k ≠ x := List.ne_of_not_mem_cons hk
  have hvf : k ≠ vf := List.ne_of_not_mem_cons (List.not_mem_of_not_mem_cons hk)
  rw [State.getV_setFlagged, if_neg hvf, if_neg hx]

/-- A flagged write of an ALU result whose value is `n` and whose flag tells `p`: the flag is written last, so VF holds
it at `x = 15` too, and `V[x]` holds the value at every other `x` (R113). -/
theorem setFlagged_spec (s : State) (x : RegIdx) {r : Byte × Bool} {n : Nat} {p : Prop} [Decidable p]
    (hflag : r.2 = true ↔ p) (hval : r.1.toNat = n) : ∃ t, (.next (s.setFlagged x r) : Result) = .next t ∧
      (t.getV 0xF#4).toNat = (if p then 1 else 0) ∧ (x ≠ 0xF#4 → (t.getV x).toNat = n) ∧
      KeepsV [x, 0xF#4] s t ∧ KeepsAllButV s t := by
  refine ⟨_, rfl, ?_, fun hx => ?_, keeps_setFlagged s x r⟩
  · have hvf : (s.setFlagged x r).getV 0xF#4 = flagByte r.2 := State.getV_setFlagged_vf s x r
    rw [hvf, toNat_flagByte]
    exact if_congr hflag rfl rfl
  · rw [State.getV_setFlagged_self s hx, hval]

end Sys2Proof.Machine

namespace Sys2Proof.Proofs
open Sys2Proof Sys2Proof.Machine Sys2Proof.Safety

/-- Settles O41: a flagged write of the sum, whose flag is the carry. -/
theorem addSetsTheCarry : Obligations.AddSetsTheCarry := by
  unfold Obligations.AddSetsTheCarry
  exact ⟨encodedBy_addReg, fun x y s => setFlagged_spec s x decide_eq_true_iff (toNat_aluAdd (s.getV x) (s.getV y))⟩

/-- Settles O42: a flagged write of the difference, whose flag is the strict compare; SUBN is SUB with its operands
exchanged. -/
theorem subAndSubnSetStrictlyGreater : Obligations.SubAndSubnSetStrictlyGreater := by
  unfold Obligations.SubAndSubnSetStrictlyGreater
  exact ⟨encodedBy_sub, encodedBy_subn,
    fun x y s => setFlagged_spec s x decide_eq_true_iff (toNat_aluSub (s.getV x) (s.getV y)),
    fun x y s => setFlagged_spec s x decide_eq_true_iff (toNat_aluSub (s.getV y) (s.getV x))⟩

/-- Settles O43: a flagged write of the shifted value, whose flag is the bit shifted out. -/
theorem shiftsMoveTheirBitIntoTheFlag : Obligations.ShiftsMoveTheirBitIntoTheFlag := by
  unfold Obligations.ShiftsMoveTheirBitIntoTheFlag
  exact ⟨encodedBy_shr, encodedBy_shl, fun x s => setFlagged_spec s x Iff.rfl (toNat_aluShr (s.getV x)),
    fun x s => setFlagged_spec s x Iff.rfl (toNat_aluShl (s.getV x))⟩

/-- Settles O39: each writes one register, ADD Vx,kk the ALU's sum without its flag. -/
theorem loadsAndAddImmediateWriteNoFlag : Obligations.LoadsAndAddImmediateWriteNoFlag := by
  unfold Obligations.LoadsAndAddImmediateWriteNoFlag
  refine ⟨encodedBy_ldByte, encodedBy_ldReg, encodedBy_addByte, fun x kk s => ?_, fun x y s => ?_, fun x kk s => ?_⟩
  · exact ⟨_, rfl, State.getV_setV_self s x kk, keeps_setV s x kk⟩
  · exact ⟨_, rfl, State.getV_setV_self s x _, keeps_setV s x _⟩
  · refine ⟨_, rfl, ?_, keeps_setV s x _⟩
    rw [State.getV_setV_self, toNat_aluAdd]

/-- Settles O40: each writes one register, with the bitwise operation on the two operands. -/
theorem logicActsBitwiseWithoutFlag : Obligations.LogicActsBitwiseWithoutFlag := by
  unfold Obligations.LogicActsBitwiseWithoutFlag
  refine ⟨encodedBy_orReg, encodedBy_andReg, encodedBy_xorReg, fun x y s => ?_, fun x y s => ?_, fun x y s => ?_⟩
  · refine ⟨_, rfl, fun k => ?_, keeps_setV s x _⟩
    rw [State.getV_setV_self, BitVec.getLsbD_or]
  · refine ⟨_, rfl, fun k => ?_, keeps_setV s x _⟩
    rw [State.getV_setV_self, BitVec.getLsbD_and]
  · refine ⟨_, rfl, fun k => ?_, keeps_setV s x _⟩
    rw [State.getV_setV_self, BitVec.getLsbD_xor]

end Sys2Proof.Proofs

/-! Proofs about the address-register rules of 43_addressing.md (R120 to R122). -/

namespace Sys2Proof
open Sys2Proof.Safety

/-! ### The rows of the address-register instructions (R73) -/

theorem encodedBy_ldI : EncodedBy 0xF000#16 0xA000#16 fun w => .ldI (fieldNNN w) :=
  encodedBy_row (r := ⟨"LD.I", _, _, 0, _⟩) (by simp [opcodeTable, opcodeRowsHigh]) rfl

theorem encodedBy_addI : EncodedBy 0xF0FF#16 0xF01E#16 fun w => .addI (fieldX w) :=
  encodedBy_row (r := ⟨"ADD.I", _, _, 0, _⟩) (by simp [opcodeTable, opcodeRowsF]) rfl

theorem encodedBy_ldF : EncodedBy 0xF0FF#16 0xF029#16 fun w => .ldF (fieldX w) :=
  encodedBy_row (r := ⟨"LD.F", _, _, 0, _⟩) (by simp [opcodeTable, opcodeRowsF]) rfl

end Sys2Proof

namespace Sys2Proof.Machine
open Sys2Proof.Safety

/-! ### What the address-register instructions answer, and what they keep -/

theorem exec_ldI (nnn : Addr12) (s : State) : exec (.ldI nnn) s = .next (s.setI (zext12 nnn)) := rfl

theorem exec_addI (x : RegIdx) (s : State) : exec (.addI x) s = .next (s.setI (s.regI + zext8 (s.getV x))) := rfl

theorem exec_ldF (x : RegIdx) (s : State) :
    exec (.ldF x) s = .next (s.setI (glyphAddr Config.taken (s.getV x))) := rfl

/-- The frame of a write to `I`: all other state. -/
theorem keeps_setI (s : State) (w : Word) :
    (s.setI w).pc = s.pc ∧ KeepsV [] s (s.setI w) ∧ KeepsStack s (s.setI w) ∧ KeepsTimers s (s.setI w) ∧
      KeepsFb s (s.setI w) ∧ KeepsMem s (s.setI w) ∧ KeepsLatches s (s.setI w) :=
  ⟨rfl, fun _ _ => rfl, ⟨rfl, rfl⟩, ⟨rfl, rfl⟩, fun _ _ => rfl, fun _ => rfl, rfl, rfl, rfl, rfl, rfl⟩

/-- A byte added to a word wraps at 16 bits (R121). -/
theorem toNat_add_zext8 (w : Word) (b : Byte) : (w + zext8 b).toNat = (w.toNat + b.toNat) % 65536 := by
  rw [BitVec.toNat_add, toNat_zext8]

end Sys2Proof.Machine

namespace Sys2Proof.Proofs
open Sys2Proof Sys2Proof.Machine Sys2Proof.Safety

/-- Settles O44: each is one write of `I`; five times the largest byte fits 16 bits, so the glyph address never wraps
(R122). -/
theorem ldIAndLdFSetTheAddressRegister : Obligations.LdIAndLdFSetTheAddressRegister := by
  unfold Obligations.LdIAndLdFSetTheAddressRegister
  refine ⟨encodedBy_ldI, encodedBy_ldF, fun nnn s => ?_, fun x s => ?_⟩
  · exact ⟨_, exec_ldI nnn s, toNat_zext12 nnn, keeps_setI s _⟩
  · refine ⟨_, exec_ldF x s, ?_, keeps_setI s _⟩
    rw [State.setI_regI, toNat_glyphAddr, Nat.zero_add]

/-- Settles O45: one write of `I`, with the 16-bit sum. -/
theorem addIWrapsAtSixteenBits : Obligations.AddIWrapsAtSixteenBits := by
  unfold Obligations.AddIWrapsAtSixteenBits
  exact ⟨encodedBy_addI, fun x s => ⟨_, exec_addI x s, toNat_add_zext8 s.regI (s.getV x), keeps_setI s _⟩⟩

end Sys2Proof.Proofs

/-! Proofs about the memory block rules of 44_memory_block.md: the BCD decomposer (R130), the bulk store and the bulk load
(R131, R132), their range check before anything is transferred (R133), and the round trip of the two. -/

namespace Sys2Proof
open Sys2Proof.Safety

/-! ### The rows of the memory block instructions (R73) -/

theorem encodedBy_ldB : EncodedBy 0xF0FF#16 0xF033#16 fun w => .ldB (fieldX w) :=
  encodedBy_row (r := ⟨"LD.B", _, _, 0, _⟩) (by simp [opcodeTable, opcodeRowsF]) rfl

theorem encodedBy_ldMemVx : EncodedBy 0xF0FF#16 0xF055#16 fun w => .ldMemVx (fieldX w) :=
  encodedBy_row (r := ⟨"LD.[I].Vx", _, _, 0, _⟩) (by simp [opcodeTable, opcodeRowsF]) rfl

theorem encodedBy_ldVxMem : EncodedBy 0xF0FF#16 0xF065#16 fun w => .ldVxMem (fieldX w) :=
  encodedBy_row (r := ⟨"LD.Vx.[I]", _, _, 0, _⟩) (by simp [opcodeTable, opcodeRowsF]) rfl

end Sys2Proof

namespace Sys2Proof.Machine
open Sys2Proof.Safety

variable {s : State} {x : RegIdx} {bs : List Byte}

/-! ### Stores at `I`: what they leave, and what they keep -/

/-- The state after a store at `I` whose range is inside memory; `storeAtI_of_le` says that it is what the store answers. -/
def State.storedAtI (s : State) (bs : List Byte) : State := { s with mem := s.mem.writeBytes s.addrI bs }

/-- Byte `k` of those stored is at `I + k`, unwrapped (R53). -/
theorem State.storedAtI_readByte (hs : MemoryOk s) {k : Nat} {b : Byte} (hk : bs[k]? = some b) :
    (s.storedAtI bs).readByte (s.addrI + k) = b := by
  rw [State.storedAtI, State.readByte, Memory.read_writeBytes hs.1, if_pos (Nat.le_add_right _ _), Nat.add_sub_cancel_left,
    hk, Option.getD_some]

/-- A store changes no byte outside its range (R49). -/
theorem keepsMemOutside_storedAtI (hs : MemoryOk s) : KeepsMemOutside s.addrI bs.length s (s.storedAtI bs) := by
  intro a ha
  rw [State.storedAtI, State.readByte, Memory.read_writeBytes hs.1]
  split
  · rw [List.getElem?_eq_none (by omega)]
    rfl
  · rfl

/-- The frame of a store: all state but memory. -/
theorem keeps_storedAtI (s : State) (bs : List Byte) :
    (s.storedAtI bs).pc = s.pc ∧ (s.storedAtI bs).regI = s.regI ∧ KeepsV [] s (s.storedAtI bs) ∧
      KeepsStack s (s.storedAtI bs) ∧ KeepsTimers s (s.storedAtI bs) ∧ KeepsFb s (s.storedAtI bs) ∧
      KeepsLatches s (s.storedAtI bs) :=
  ⟨rfl, rfl, fun _ _ => rfl, ⟨rfl, rfl⟩, ⟨rfl, rfl⟩, fun _ _ => rfl, rfl, rfl, rfl, rfl, rfl⟩

/-- Reading back a range just written gives the bytes written (R49 c). -/
theorem Memory.readBytes_writeBytes {m : Memory} (hm : m.Pairwise fun c d => c.1 < d.1) (a : Nat) (bs : List Byte) :
    (m.writeBytes a bs).readBytes a bs.length = bs := by
  refine List.ext_getElem? fun j => ?_
  rw [Memory.getElem?_readBytes]
  split
  case isTrue hj =>
    rw [Memory.read_writeBytes hm, if_pos (Nat.le_add_right _ _), Nat.add_sub_cancel_left, List.getElem?_eq_getElem hj,
      Option.getD_some]
  case isFalse hj => exact (List.getElem?_eq_none (Nat.le_of_not_lt hj)).symm

/-! ### Transfers at `I` whose range leaves memory (R133) -/

theorem storeAtI_raises (h : 4096 < s.addrI + bs.length) (hbs : 0 < bs.length) :
    ∃ t, storeAtI Config.taken bs s = .next t ∧ RaisedFrom s t .memWriteRange (max s.addrI 4096) := by
  rw [storeAtI, State.writeRange_eq_none.mpr ⟨hbs, h⟩]
  exact raise_raisedFrom .memWriteRange (max s.addrI 4096) s

theorem loadAtI_raises (h : 4095 < s.addrI + x.toNat) :
    ∃ t, loadAtI Config.taken x s = .next t ∧ RaisedFrom s t .memReadRange (max s.addrI 4096) := by
  rw [loadAtI, State.readRange_eq_none.mpr ⟨Nat.succ_pos _, Nat.succ_lt_succ h⟩]
  exact raise_raisedFrom .memReadRange (max s.addrI 4096) s

/-! ### What the memory block instructions answer inside memory -/

theorem exec_ldB (h : s.addrI + 2 ≤ 4095) : exec (.ldB x) s = .next (s.storedAtI (bcdDigits (s.getV x))) :=
  storeAtI_of_le (Nat.succ_le_succ h)

theorem exec_ldMemVx (h : s.addrI + x.toNat ≤ 4095) : exec (.ldMemVx x) s = .next (s.storedAtI (s.regsUpTo x)) := by
  refine storeAtI_of_le ?_
  rw [length_regsUpTo]
  exact Nat.succ_le_succ h

theorem exec_ldVxMem (h : s.addrI + x.toNat ≤ 4095) :
    exec (.ldVxMem x) s = .next (s.loadRegs (s.mem.readBytes s.addrI (x.toNat + 1))) := by
  rw [exec, execLdVxMem, loadAtI, State.readRange_eq_some.mpr ⟨.inr (Nat.succ_le_succ h), rfl⟩]

/-- The registers after a bulk load: V0 to Vx are the bytes from `I` on, the destination being the loop index (R132). -/
theorem State.getV_loadRegs_readBytes (s : State) (x k : RegIdx) :
    (s.loadRegs (s.mem.readBytes s.addrI (x.toNat + 1))).getV k =
      if k.toNat ≤ x.toNat then s.readByte (s.addrI + k.toNat) else s.getV k := by
  rw [State.getV_loadRegs, Memory.getElem?_readBytes, apply_ite (Option.getD · (s.getV k))]
  exact if_congr Nat.lt_succ_iff rfl rfl

/-! ### A bulk store and the bulk load after it -/

/-- The bytes a bulk load reads after a bulk store with the same `x` and `I` are the registers stored (R131, R132). -/
theorem readBytes_storedAtI_regsUpTo (hs : MemoryOk s) (x : RegIdx) :
    (s.storedAtI (s.regsUpTo x)).mem.readBytes s.addrI (x.toNat + 1) = s.regsUpTo x := by
  rw [← length_regsUpTo s x]
  exact Memory.readBytes_writeBytes hs.1 s.addrI (s.regsUpTo x)

/-- Loading V0 to Vx of one state into another: the registers above `x` are kept. -/
theorem State.getV_loadRegs_regsUpTo (s u : State) (x k : RegIdx) :
    (u.loadRegs (s.regsUpTo x)).getV k = if k.toNat ≤ x.toNat then s.getV k else u.getV k := by
  rw [State.getV_loadRegs, getElem?_regsUpTo, apply_ite (Option.getD · (u.getV k))]
  rfl

/-- A bulk load that leaves every register as it was leaves the state as it was. -/
theorem State.loadRegs_eq_self (h : ∀ r, (s.loadRegs bs).getV r = s.getV r) : s.loadRegs bs = s := by
  apply State.ext_fields h <;> simp

/-- Loading a state's own registers changes nothing. -/
theorem State.loadRegs_regsUpTo_self (s : State) (x : RegIdx) : s.loadRegs (s.regsUpTo x) = s :=
  State.loadRegs_eq_self fun k => (State.getV_loadRegs_regsUpTo s s x k).trans (ite_self _)

/-- A bulk load on a state with the memory and `I` that a bulk store left reads the registers stored. -/
theorem exec_ldVxMem_of_stored {u : State} (hs : MemoryOk s) (h : s.addrI + x.toNat ≤ 4095)
    (hmem : u.mem = (s.storedAtI (s.regsUpTo x)).mem) (hI : u.regI = s.regI) :
    exec (.ldVxMem x) u = .next (u.loadRegs (s.regsUpTo x)) := by
  have haddr : u.addrI = s.addrI := congrArg BitVec.toNat hI
  have hu : u.addrI + x.toNat ≤ 4095 := by rwa [haddr]
  rw [exec_ldVxMem hu, hmem, haddr, readBytes_storedAtI_regsUpTo hs]

end Sys2Proof.Machine

namespace Sys2Proof.Proofs
open Sys2Proof Sys2Proof.Machine Sys2Proof.Safety

/-- Settles O46: one store of the three digits, each of which fits its byte. -/
theorem bcdWritesThreeDigits : Obligations.BcdWritesThreeDigits := by
  unfold Obligations.BcdWritesThreeDigits
  refine ⟨encodedBy_ldB, fun x s hs hrange => ?_, fun x s hrange => ?_⟩
  · have hdigit : ∀ {k n : Nat}, (bcdDigits (s.getV x))[k]? = some (BitVec.ofNat 8 n) → n < 256 →
        ((s.storedAtI (bcdDigits (s.getV x))).readByte (s.addrI + k)).toNat = n := fun hk hn => by
      rw [State.storedAtI_readByte hs hk, BitVec.toNat_ofNat, Nat.mod_eq_of_lt hn]
    have hb := (s.getV x).isLt
    exact ⟨_, exec_ldB hrange, hdigit (k := 0) rfl (by omega), hdigit (k := 1) rfl (by omega),
      hdigit (k := 2) rfl (by omega), keepsMemOutside_storedAtI (bs := bcdDigits (s.getV x)) hs, keeps_storedAtI s _⟩
  · exact storeAtI_raises (bs := bcdDigits (s.getV x)) (Nat.succ_lt_succ hrange) (by decide : 0 < 3)

/-- Settles O47: one store of V0 to Vx, `x` included. -/
theorem bulkStoreWritesV0ToVx : Obligations.BulkStoreWritesV0ToVx := by
  unfold Obligations.BulkStoreWritesV0ToVx
  refine ⟨encodedBy_ldMemVx, fun x s hs hrange => ?_, fun x s hrange => ?_⟩
  · refine ⟨_, exec_ldMemVx hrange, fun k hk => ?_, ?_, keeps_storedAtI s _⟩
    · exact State.storedAtI_readByte hs ((getElem?_regsUpTo s x k).trans (if_pos hk))
    · rw [← length_regsUpTo s x]
      exact keepsMemOutside_storedAtI hs
  · refine storeAtI_raises (bs := s.regsUpTo x) ?_ ?_ <;> rw [length_regsUpTo]
    · exact Nat.succ_lt_succ hrange
    · exact Nat.succ_pos _

/-- Settles O48: the bytes of the range go to V0 to Vx, and a range outside memory is refused before any of them does. -/
theorem bulkLoadReadsV0ToVx : Obligations.BulkLoadReadsV0ToVx := by
  unfold Obligations.BulkLoadReadsV0ToVx
  exact ⟨encodedBy_ldVxMem,
    fun x s hrange => ⟨_, exec_ldVxMem hrange, State.getV_loadRegs_readBytes s x, keepsAllButV_update s _⟩,
    fun _ _ => loadAtI_raises⟩

/-- Settles O49: the load reads back the registers stored; done at once, they are the state's own. -/
theorem bulkStoreThenLoadGivesBackV0ToVx : Obligations.BulkStoreThenLoadGivesBackV0ToVx := by
  unfold Obligations.BulkStoreThenLoadGivesBackV0ToVx
  intro x s hs hrange
  refine ⟨_, exec_ldMemVx hrange, fun u hmem hI => ?_, ?_, fun _ _ => rfl⟩
  · exact ⟨_, exec_ldVxMem_of_stored hs hrange hmem hI, State.getV_loadRegs_regsUpTo s u x, hmem, hI⟩
  · rw [exec_ldVxMem_of_stored hs hrange rfl rfl]
    exact congrArg Host.Outcome.next (State.loadRegs_regsUpTo_self _ x)

end Sys2Proof.Proofs

/-! Proofs about the random byte rule of 45_random.md (R140). -/

namespace Sys2Proof
open Sys2Proof.Safety

theorem encodedBy_rnd : EncodedBy 0xF000#16 0xC000#16 fun w => .rnd (fieldX w) (fieldKK w) :=
  encodedBy_row (r := ⟨"RND", _, _, 0, _⟩) (by simp [opcodeTable, opcodeRowsHigh]) rfl

end Sys2Proof

namespace Sys2Proof.Machine

/-- RND is a draw and one register write on the state the draw leaves, with no case on the mask (R140). -/
theorem exec_rnd (x : RegIdx) (kk : Byte) (s : State) :
    exec (.rnd x kk) s = .next (s.drawRnd.2.setV x (Config.rndIn s.rndCount &&& kk)) := rfl

end Sys2Proof.Machine

namespace Sys2Proof.Proofs
open Sys2Proof Sys2Proof.Machine Sys2Proof.Safety

/-- Settles O51: the register write keeps the count that the draw advanced, and the draw touches nothing else. -/
theorem rndMasksOneFreshByte : Obligations.RndMasksOneFreshByte := by
  unfold Obligations.RndMasksOneFreshByte
  refine ⟨encodedBy_rnd, fun x kk s => ⟨_, exec_rnd x kk s, fun k => ?_, ?_⟩⟩
  · rw [State.getV_setV_self, BitVec.getLsbD_and]
  · obtain ⟨hV, hpc, hI, hstack, htimers, hfb, hmem, hkeys, hfault, hfaultPc, hfaultInfo, hcount⟩ :=
      keeps_setV s.drawRnd.2 x (Config.rndIn s.rndCount &&& kk)
    exact ⟨hcount, hV, hpc, hI, hstack, htimers, hfb, hmem, hkeys, hfault, hfaultPc, hfaultInfo⟩

end Sys2Proof.Proofs

/-! Proofs about the framebuffer rules of 46_draw_clear.md: the draw as a cell-by-cell XOR under both edge policies (R150,
R153), a draw undone by a second one (R154), and the clear (R151). -/

namespace Sys2Proof
open Sys2Proof.Safety

/-- The row of DRW (R73); CLS has its above. -/
theorem encodedBy_drw : EncodedBy 0xF000#16 0xD000#16 fun w => .drw (fieldX w) (fieldY w) (fieldN w) :=
  encodedBy_row (r := ⟨"DRW", _, _, 0, _⟩) (by simp [opcodeTable, opcodeRowsHigh]) rfl

end Sys2Proof

namespace Sys2Proof.Machine
open Sys2Proof.Safety

variable {cfg : Config} {s : State} {x y : RegIdx} {n : Nibble}

/-! ### What the framebuffer instructions answer, and what they keep -/

/-- The state after a draw whose sprite is inside memory (R150); `draw_of_inRange` says that it is what the draw answers. -/
def State.drawn (cfg : Config) (s : State) (x y : RegIdx) (n : Nibble) : State :=
  let out := drawRows cfg ((s.getV x).toNat % cfg.fbWidth) (s.mem.readBytes s.addrI n.toNat)
    ((s.getV y).toNat % cfg.fbHeight) (s.fb, false)
  (s.setFb out.1).setV vf (flagByte out.2)

theorem draw_of_inRange (h : n.toNat = 0 ∨ s.addrI + n.toNat ≤ cfg.memSize) :
    draw cfg x y n s = .next (s.drawn cfg x y n) := by
  rw [draw, State.readRange_eq_some.mpr ⟨h, rfl⟩]
  rfl

theorem exec_drw (h : n.toNat = 0 ∨ s.addrI + n.toNat - 1 ≤ 4095) :
    exec (.drw x y n) s = .next (s.drawn Config.taken x y n) := by
  refine draw_of_inRange (h.imp_right fun hlast => ?_)
  rw [Config.taken_memSize]
  omega

theorem exec_drw_raises (hn : 0 < n.toNat) (h : 4095 < s.addrI + n.toNat - 1) :
    ∃ t, exec (.drw x y n) s = .next t ∧ RaisedFrom s t .memReadRange (max s.addrI 4096) := by
  have hout : s.readRange Config.taken s.addrI n.toNat = none := State.readRange_eq_none.mpr ⟨hn, by
    rw [Config.taken_memSize]
    omega⟩
  rw [exec, execDrw, draw, hout]
  exact raise_raisedFrom .memReadRange (max s.addrI 4096) s

theorem exec_cls (s : State) : exec .cls s = .next (s.setFb (clearFb Config.taken)) := rfl

/-- The frame of a framebuffer instruction: all state but the framebuffer and the general registers. -/
theorem keeps_update_v_fb (s : State) (v : Vector Byte 16) (f : Framebuffer) :
    let t := { s with v := v, fb := f }
    t.pc = s.pc ∧ t.regI = s.regI ∧ KeepsStack s t ∧ KeepsTimers s t ∧ KeepsMem s t ∧ KeepsLatches s t :=
  ⟨rfl, rfl, ⟨rfl, rfl⟩, ⟨rfl, rfl⟩, fun _ => rfl, rfl, rfl, rfl, rfl, rfl⟩

/-- A draw writes no register but VF. -/
theorem keepsV_drawn (cfg : Config) (s : State) (x y : RegIdx) (n : Nibble) : KeepsV [0xF#4] s (s.drawn cfg x y n) :=
  (keeps_setV (s.setFb _) vf _).1

/-! ### The cells a sprite falls on (R150, R153) -/

/-- A set bit of the sprite that DRW takes from memory falls on cell `q`. -/
def SpriteFallsOn (cfg : Config) (s : State) (x y : RegIdx) (n : Nibble) (q : Nat × Nat) : Prop :=
  SpriteHit cfg ((s.getV y).toNat % cfg.fbHeight) ((s.getV x).toNat % cfg.fbWidth) (s.mem.readBytes s.addrI n.toNat) q

/-- Row `k` of the sprite is the byte at `I + k`, and its column `j` is bit `7 - j` (R152). -/
theorem spriteFallsOn_iff {q : Nat × Nat} : SpriteFallsOn cfg s x y n q ↔
    ∃ k j, k < n.toNat ∧ j < 8 ∧ (s.readByte (s.addrI + k)).getLsbD (7 - j) = true ∧
      PixelOn cfg ((s.getV y).toNat % cfg.fbHeight + k) ((s.getV x).toNat % cfg.fbWidth + j) q := by
  have hrow : ∀ k b, (s.mem.readBytes s.addrI n.toNat)[k]? = some b ↔ k < n.toNat ∧ s.readByte (s.addrI + k) = b := by
    intro k b
    rw [Memory.getElem?_readBytes]
    simp [State.readByte]
  constructor
  · rintro ⟨k, b, hb, j, hj, hbit, hon⟩
    obtain ⟨hk, rfl⟩ := (hrow k b).mp hb
    exact ⟨k, j, hk, hj, hbit, hon⟩
  · rintro ⟨k, j, hk, hj, hbit, hon⟩
    exact ⟨k, _, (hrow k _).mpr ⟨hk, rfl⟩, j, hj, hbit, hon⟩

/-- Under `clip` the cell tells the row and the column of the sprite by its distance from the origin. -/
theorem spriteFallsOn_clip (hp : cfg.edgePolicy = .clip) (q : Nat × Nat) :
    SpriteFallsOn cfg s x y n q ↔ spriteBit cfg s x y n q.1 q.2 = true := by
  obtain ⟨r, c⟩ := q
  simp only [spriteFallsOn_iff, pixelOn_clip hp, spriteBit, Bool.and_eq_true, decide_eq_true_eq, Prod.mk.injEq]
  constructor
  · rintro ⟨k, j, hk, hj, hbit, ⟨rfl, rfl⟩, hr, hc⟩
    rw [Nat.add_sub_cancel_left, Nat.add_sub_cancel_left]
    exact ⟨by omega, hbit⟩
  · rintro ⟨⟨hr0, hrn, hc0, hc8, hr, hc⟩, hbit⟩
    rw [← Nat.add_sub_cancel' hr0] at hr
    exact ⟨_, _, by omega, by omega, hbit, by omega⟩

/-- The offset from an origin, modulo the size, of a place wrapped at the size (R153). -/
theorem wrapped_offset_iff {m o p k : Nat} (ho : o < m) (hp : p < m) (hk : k < m) :
    p = (o + k) % m ↔ (p + m - o) % m = k := by
  constructor
  · rintro rfl
    rw [Nat.add_sub_assoc ho.le, Nat.mod_add_mod, show o + k + (m - o) = k + m by omega, Nat.add_mod_right,
      Nat.mod_eq_of_lt hk]
  · rintro rfl
    rw [Nat.add_mod_mod, show o + (p + m - o) = p + m by omega, Nat.add_mod_right, Nat.mod_eq_of_lt hp]

/-- Under `wrap` the cell tells the row and the column of the sprite by its distance modulo the size, when the sprite is
no larger than the framebuffer. -/
theorem spriteFallsOn_wrap (hp : cfg.edgePolicy = .wrap) (hw : 8 ≤ cfg.fbWidth) (hh : n.toNat ≤ cfg.fbHeight)
    (q : Nat × Nat) : SpriteFallsOn cfg s x y n q ↔ spriteBitWrapped cfg s x y n q.1 q.2 = true := by
  obtain ⟨r, c⟩ := q
  simp only [spriteFallsOn_iff, pixelOn_wrap hp, spriteBitWrapped, Bool.and_eq_true, decide_eq_true_eq, Prod.mk.injEq]
  have hrow : ∀ {k}, r < cfg.fbHeight → k < n.toNat → (r = ((s.getV y).toNat % cfg.fbHeight + k) % cfg.fbHeight ↔
      (r + cfg.fbHeight - (s.getV y).toNat % cfg.fbHeight) % cfg.fbHeight = k) := fun hr hk =>
    wrapped_offset_iff (Nat.mod_lt _ (by omega)) hr (by omega)
  have hcol : ∀ {j}, c < cfg.fbWidth → j < 8 → (c = ((s.getV x).toNat % cfg.fbWidth + j) % cfg.fbWidth ↔
      (c + cfg.fbWidth - (s.getV x).toNat % cfg.fbWidth) % cfg.fbWidth = j) := fun hc hj =>
    wrapped_offset_iff (Nat.mod_lt _ (by omega)) hc (by omega)
  constructor
  · rintro ⟨k, j, hk, hj, hbit, ⟨hrk, hcj⟩, hr, hc⟩
    rw [(hrow hr hk).mp hrk, (hcol hc hj).mp hcj]
    exact ⟨⟨hk, hj, hr, hc⟩, hbit⟩
  · rintro ⟨⟨hk, hj, hr, hc⟩, hbit⟩
    exact ⟨_, _, hk, hj, hbit, ⟨(hrow hr hk).mpr rfl, (hcol hc hj).mpr rfl⟩, hr, hc⟩

/-! ### The draw as a cell-by-cell XOR with a collision flag (R150) -/

/-- From `s` to `t`, a pattern of bits is XORed onto the framebuffer, whose size stays, and VF tells whether a set bit
fell on a cell that was 1. -/
structure XorsBits (cfg : Config) (bit : Nat → Nat → Bool) (s t : State) : Prop where
  sized : Framebuffer.Sized cfg t.fb
  cell : ∀ r c, Framebuffer.cell t.fb r c = (Framebuffer.cell s.fb r c ^^ bit r c)
  vf_one : t.getV 0xF#4 = 1#8 ↔ ∃ r c, bit r c = true ∧ Framebuffer.cell s.fb r c = true
  vf_zero : t.getV 0xF#4 = 0#8 ↔ ∀ r c, bit r c = true → Framebuffer.cell s.fb r c = false

theorem flagByte_eq_one_iff (c : Bool) : flagByte c = 1#8 ↔ c = true := by cases c <;> decide

theorem flagByte_eq_zero_iff (c : Bool) : flagByte c = 0#8 ↔ ¬ c = true := by cases c <;> decide

/-- A draw of a sprite that does not fall on itself XORs the bits that tell where it falls. -/
theorem xorsBits_drawn {bit : Nat → Nat → Bool} (room : Roomy cfg n.toNat) (hs : Framebuffer.Sized cfg s.fb)
    (hbit : ∀ q, SpriteFallsOn cfg s x y n q ↔ bit q.1 q.2 = true) : XorsBits cfg bit s (s.drawn cfg x y n) := by
  have hlen : (s.mem.readBytes s.addrI n.toNat).length ≤ n.toNat := by simp [Memory.readBytes]
  have d := (drawRows_draws room ((s.getV x).toNat % cfg.fbWidth) _ ((s.getV y).toNat % cfg.fbHeight)
    (acc := (s.fb, false)) hs hlen).congr hbit
  have hflag := d.flag
  simp only [Bool.false_eq_true, false_or, Prod.exists] at hflag
  have hvf : (s.drawn cfg x y n).getV 0xF#4 = flagByte _ := State.getV_setV_self (s.setFb _) vf _
  refine ⟨d.sized, fun r c => ?_, ?_, ?_⟩
  · cases hb : bit r c
    case false => rw [Bool.xor_false]; exact d.keeps (r, c) (by simp [hb])
    case true => rw [Bool.xor_true]; exact d.flips (r, c) hb
  · rw [hvf, flagByte_eq_one_iff, hflag]
  · rw [hvf, flagByte_eq_zero_iff, hflag]
    simp

/-- Under `clip` every sprite has room. -/
theorem xorsBits_drawn_clip (hp : cfg.edgePolicy = .clip) (hs : Framebuffer.Sized cfg s.fb) :
    XorsBits cfg (spriteBit cfg s x y n) s (s.drawn cfg x y n) :=
  xorsBits_drawn (fun hwrap => absurd (hp.symm.trans hwrap) (by decide)) hs (spriteFallsOn_clip hp)

theorem xorsBits_drawn_wrap (hp : cfg.edgePolicy = .wrap) (hw : 8 ≤ cfg.fbWidth) (hh : n.toNat ≤ cfg.fbHeight)
    (hs : Framebuffer.Sized cfg s.fb) : XorsBits cfg (spriteBitWrapped cfg s x y n) s (s.drawn cfg x y n) :=
  xorsBits_drawn (fun _ => ⟨hw, hh⟩) hs (spriteFallsOn_wrap hp hw hh)

/-! ### Drawing twice (R154) -/

/-- XORing the same bits a second time undoes the first. -/
theorem XorsBits.twice_keepsFb {bit : Nat → Nat → Bool} {t u : State} (h₁ : XorsBits cfg bit s t)
    (h₂ : XorsBits cfg bit t u) : KeepsFb s u := fun r c => by
  rw [h₂.cell, h₁.cell, Bool.xor_assoc, Bool.xor_self, Bool.xor_false]

/-- The flag of the second XOR tells whether a set bit fell on a cell that was 0 before the first. -/
theorem XorsBits.twice_vf_one {bit : Nat → Nat → Bool} {t u : State} (h₁ : XorsBits cfg bit s t)
    (h₂ : XorsBits cfg bit t u) :
    u.getV 0xF#4 = 1#8 ↔ ∃ r c, bit r c = true ∧ Framebuffer.cell s.fb r c = false := by
  refine h₂.vf_one.trans (exists_congr fun r => exists_congr fun c => and_congr_right fun hb => ?_)
  rw [h₁.cell, hb, Bool.xor_true, Bool.not_eq_true']

/-- XORing no set bit keeps every cell and reports no collision. -/
theorem XorsBits.of_no_bit {bit : Nat → Nat → Bool} {t : State} (h : XorsBits cfg bit s t)
    (hnone : ∀ r c, bit r c = false) : KeepsFb s t ∧ t.getV 0xF#4 = 0#8 := by
  refine ⟨fun r c => ?_, h.vf_zero.mpr fun r c hb => ?_⟩
  · rw [h.cell, hnone, Bool.xor_false]
  · exact absurd ((hnone r c).symm.trans hb) (by decide)

/-- The sprite of a second draw is that of the first: a draw keeps memory, `I` and every register but VF (R154 (c)). -/
theorem spriteBit_drawn (hx : x ≠ 0xF#4) (hy : y ≠ 0xF#4) :
    spriteBit cfg (s.drawn cfg x y n) x y n = spriteBit cfg s x y n := by
  have hkeep : ∀ {r : RegIdx}, r ≠ 0xF#4 → (s.drawn cfg x y n).getV r = s.getV r := fun hr =>
    keepsV_drawn cfg s x y n _ (by simpa using hr)
  funext r c
  rw [spriteBit, hkeep hx, hkeep hy]
  rfl

end Sys2Proof.Machine

namespace Sys2Proof.Proofs
open Sys2Proof Sys2Proof.Machine Sys2Proof.Safety

/-- Settles O52: under `clip` the loops XOR the sprite's bits, and a range outside memory is refused before any is drawn. -/
theorem drawXorsTheSprite : Obligations.DrawXorsTheSprite := by
  unfold Obligations.DrawXorsTheSprite
  refine ⟨encodedBy_drw, fun x y n s ⟨_, _, hsized⟩ hrange => ?_, fun x y n s => exec_drw_raises⟩
  have hx : XorsBits _ (spriteBit Config.taken s x y n) s _ := xorsBits_drawn_clip Config.taken_edgePolicy hsized
  exact ⟨_, exec_drw hrange, hx.cell, hx.vf_one.mpr, hx.vf_zero.mpr, keepsV_drawn _ s x y n, keeps_update_v_fb s _ _⟩

/-- Settles O53: the second draw XORs the same bits onto the cells the first one left. -/
theorem drawingTwiceRestoresTheScreen : Obligations.DrawingTwiceRestoresTheScreen := by
  unfold Obligations.DrawingTwiceRestoresTheScreen
  intro x y n s ⟨_, _, hsized⟩ hx hy hrange
  have h₁ : XorsBits _ (spriteBit Config.taken s x y n) s _ := xorsBits_drawn_clip Config.taken_edgePolicy hsized
  have h₂ := xorsBits_drawn_clip (x := x) (y := y) (n := n) Config.taken_edgePolicy h₁.sized
  rw [spriteBit_drawn hx hy] at h₂
  refine ⟨_, _, exec_drw hrange, exec_drw (s := s.drawn Config.taken x y n) hrange, h₁.twice_keepsFb h₂, h₁.vf_one,
    h₁.twice_vf_one h₂, fun hnone => ?_⟩
  obtain ⟨hfb, hvf⟩ := h₁.of_no_bit hnone
  exact ⟨hfb, hvf, (h₂.of_no_bit hnone).2⟩

/-- Settles O54: a sprite no larger than the framebuffer does not fall on itself, so wrapping loses no bit of it. -/
theorem drawUnderWrapPolicy : Obligations.DrawUnderWrapPolicy := by
  unfold Obligations.DrawUnderWrapPolicy
  intro cfg x y n s hp hw hh ⟨_, _, hsized⟩ hrange
  have hx : XorsBits cfg (spriteBitWrapped cfg s x y n) s _ := xorsBits_drawn_wrap hp hw hh hsized
  exact ⟨_, draw_of_inRange hrange, hx.cell, hx.vf_one⟩

/-- Settles O55: one replacement of the framebuffer by the cleared one. -/
theorem clsClearsTheScreen : Obligations.ClsClearsTheScreen := by
  unfold Obligations.ClsClearsTheScreen
  exact ⟨encodedBy_cls, fun s => ⟨_, exec_cls s, cell_clearFb _, Framebuffer.sized_clearFb _, fun _ _ => rfl,
    keeps_update_v_fb s _ _⟩⟩

end Sys2Proof.Proofs

/-! Proofs about the reset and host rules of 70_reset_and_hazards.md and 60_exceptions.md (R196, R203, R210, R215, R216):
what a host move keeps, and the sessions made of host moves. -/

namespace Sys2Proof.Machine
open Sys2Proof.Safety

variable {cfg : Config} {s t : State}

/-! ### What a host move keeps -/

/-- A property that each of the four moves keeps is kept by every host move (R203). -/
theorem applyMove_keeps {P : State → Prop} (hreset : ∀ memInit s, P s → P (hostReset (cfg.withMemInit memInit) s))
    (hload : ∀ image s, P s → P (loadProgram cfg image s).1) (hkeys : ∀ k s, P s → P (writeKeys k s))
    (hstep : ∀ s t, P s → stepWith cfg s = .next t → P t) {m : HostMove} (hs : P s) (h : applyMove cfg m s = .next t) :
    P t := by
  cases m with
  | reset memInit => cases h; exact hreset memInit s hs
  | load image => cases h; exact hload image s hs
  | keys k => cases h; exact hkeys k s hs
  | step => exact hstep s t hs h

/-- A program load changes memory alone, whether it is refused or not (R215, R216). -/
theorem loadProgram_fst_eq_update (cfg : Config) (image : List Byte) (s : State) :
    (loadProgram cfg image s).1 = { s with mem := (loadProgram cfg image s).1.mem } := by
  rw [loadProgram_fst]
  split <;> rfl

/-- A load keeps memory canonical: an image that fits below `PROG_TOP` lies inside memory (R215). -/
theorem memoryOkFor_loadProgram (htop : cfg.progTop ≤ cfg.memSize) (image : List Byte) (hs : MemoryOkFor cfg s) :
    MemoryOkFor cfg (loadProgram cfg image s).1 := by
  rw [loadProgram_fst]
  split
  case isTrue => exact hs
  case isFalse hfit => exact Memory.wfBelow_writeBytes hs image (.inr (by omega))

theorem shapeOkFor_loadProgram (image : List Byte) (hs : ShapeOkFor cfg s) :
    ShapeOkFor cfg (loadProgram cfg image s).1 := by
  rw [loadProgram_fst_eq_update]
  exact hs

theorem pcOk_loadProgram (image : List Byte) (hs : PcOk s) : PcOk (loadProgram cfg image s).1 := by
  rw [loadProgram_fst_eq_update]
  exact hs

theorem applyMove_keeps_memoryOkFor (htop : cfg.progTop ≤ cfg.memSize) {m : HostMove} (hs : MemoryOkFor cfg s)
    (h : applyMove cfg m s = .next t) : MemoryOkFor cfg t :=
  applyMove_keeps (P := MemoryOkFor cfg) (fun memInit s _ => memoryOkFor_hostReset (cfg.withMemInit memInit) s)
    (fun image _ => memoryOkFor_loadProgram htop image) (fun _ _ hs => hs) (fun _ _ => stepWith_keeps_memoryOkFor) hs h

theorem applyMove_keeps_shapeOkFor {m : HostMove} (hs : ShapeOkFor cfg s) (h : applyMove cfg m s = .next t) :
    ShapeOkFor cfg t :=
  applyMove_keeps (P := ShapeOkFor cfg) (fun memInit s _ => shapeOkFor_hostReset (cfg.withMemInit memInit) s)
    (fun image _ => shapeOkFor_loadProgram image) (fun _ _ hs => hs) (fun _ _ => stepWith_keeps_shapeOkFor) hs h

/-- After a reset from any state `pc` is `PROG_ORIGIN`, and no return address is valid (R25). -/
theorem pcOk_hostReset (h : cfg.progOrigin ≤ 0x10FE) (s : State) : PcOk (hostReset cfg s) := pcOk_resetFor h

theorem pcOk_hostReset_taken (memInit : Nat → Byte) (s : State) :
    PcOk (hostReset (Config.taken.withMemInit memInit) s) :=
  pcOk_hostReset (by rw [Config.withMemInit_progOrigin, Config.taken_progOrigin]; decide) s

theorem applyMove_keeps_pcOk {m : HostMove} (hs : PcOk s) (h : applyMove Config.taken m s = .next t) : PcOk t :=
  applyMove_keeps (P := PcOk) (fun memInit s _ => pcOk_hostReset_taken memInit s) (fun image _ => pcOk_loadProgram image)
    (fun _ _ hs => hs) (fun s _ hs h => step_keeps_pcOk hs ((stepWith_taken s).symm.trans h)) hs h

/-! ### Sessions (R203) -/

/-- At the values taken every host move answers a next state: no step refuses, and no move is shut out. -/
theorem applyMove_answers (m : HostMove) (s : State) : ∃ t, applyMove Config.taken m s = .next t := by
  cases m with
  | step =>
    obtain ⟨t, ht⟩ := step_answers s
    exact ⟨t, (stepWith_taken s).trans ht⟩
  | _ => exact ⟨_, rfl⟩

/-- The first move of a session, when it answers a next state. -/
theorem applyMoves_cons {m : HostMove} (h : applyMove cfg m s = .next t) (ms : List HostMove) :
    applyMoves cfg (m :: ms) s = applyMoves cfg ms t := by
  rw [applyMoves, h]

/-- A property that every host move keeps, the moves answering, holds at the end of every session. -/
theorem applyMoves_keeps {P : State → Prop} (hmove : ∀ m s, P s → ∃ t, applyMove cfg m s = .next t ∧ P t)
    (ms : List HostMove) (hs : P s) : ∃ t, applyMoves cfg ms s = .next t ∧ P t := by
  induction ms generalizing s with
  | nil => exact ⟨s, rfl, hs⟩
  | cons m ms ih =>
    obtain ⟨u, hu, hPu⟩ := hmove m s hs
    rw [applyMoves_cons hu]
    exact ih hPu

/-- The three invariants of the machine at the values taken. -/
abbrev Invariants (s : State) : Prop := MemoryOk s ∧ ShapeOk s ∧ PcOk s

theorem invariants_hostReset (memInit : Nat → Byte) (s : State) :
    Invariants (hostReset (Config.taken.withMemInit memInit) s) :=
  ⟨memoryOkFor_hostReset (Config.taken.withMemInit memInit) s, shapeOkFor_hostReset (Config.taken.withMemInit memInit) s,
    pcOk_hostReset_taken memInit s⟩

theorem applyMove_keeps_invariants (m : HostMove) (s : State) (hs : Invariants s) :
    ∃ t, applyMove Config.taken m s = .next t ∧ Invariants t := by
  obtain ⟨hmem, hshape, hpc⟩ := hs
  obtain ⟨t, ht⟩ := applyMove_answers m s
  exact ⟨t, ht, applyMove_keeps_memoryOkFor (by simp) hmem ht, applyMove_keeps_shapeOkFor hshape ht,
    applyMove_keeps_pcOk hpc ht⟩

/-! ### The key latch (R18, R196) -/

/-- The step leaves the key latch as it is. -/
theorem step_keys_eq (h : step s = .next t) : t.keys = s.keys :=
  stepPhases_keeps (P := fun u => u.keys = s.keys) (fun _ hk => hk)
    (fun _ _ u _ hk hu => (finish_keys u).trans ((exec_effect hu).keys_eq.trans hk)) rfl h

end Sys2Proof.Machine

namespace Sys2Proof.Proofs
open Sys2Proof Sys2Proof.Machine Sys2Proof.Safety

/-- Settles O21, one invariant at a time: a load that fits lies inside memory, a reset meets each invariant, a key write
touches none of their state, and the step is O17 to O19. -/
theorem everyHostMoveKeepsTheInvariants : Obligations.EveryHostMoveKeepsTheInvariants := by
  unfold Obligations.EveryHostMoveKeepsTheInvariants
  exact ⟨fun cfg htop m s t hmem hshape h =>
    ⟨applyMove_keeps_memoryOkFor htop hmem h, applyMove_keeps_shapeOkFor hshape h⟩, fun _ _ _ => applyMove_keeps_pcOk⟩

/-- Settles O22, by induction on the moves after the reset, which meets the invariants from any state. -/
theorem everySessionMeetsTheInvariants : Obligations.EverySessionMeetsTheInvariants := by
  unfold Obligations.EverySessionMeetsTheInvariants
  intro memInit ms s
  rw [applyMoves_cons (rfl : applyMove Config.taken (.reset memInit) s = _)]
  exact applyMoves_keeps applyMove_keeps_invariants ms (invariants_hostReset memInit s)

/-- Settles O25: the write replaces the latch alone, and no instruction writes it. -/
theorem keyWriteSetsTheLatchAlone : Obligations.KeyWriteSetsTheLatchAlone := by
  unfold Obligations.KeyWriteSetsTheLatchAlone
  exact ⟨fun _ _ _ => ⟨_, rfl, rfl, rfl, fun _ _ => rfl, rfl, rfl, ⟨rfl, rfl⟩, ⟨rfl, rfl⟩, rfl, rfl, rfl, rfl, rfl, rfl⟩,
    fun _ _ => step_keys_eq⟩

/-- Settles O26: the load compares the end of the image with `PROG_TOP`, 3584 bytes above `PROG_ORIGIN`. -/
theorem programLoadIsAllOrNothing : Obligations.ProgramLoadIsAllOrNothing := by
  unfold Obligations.ProgramLoadIsAllOrNothing
  intro image s hmem
  refine ⟨fun hlen => ?_, fun hlen => loadProgram_of_lt ?_ s⟩
  · have hfit : Config.taken.progOrigin + image.length ≤ Config.taken.progTop := by
      rw [Config.taken_progOrigin, Config.taken_progTop]
      omega
    have hread := readByte_loadProgram hmem.1 hfit
    rw [loadProgram_of_le hfit] at hread
    exact ⟨_, loadProgram_of_le hfit s, rfl, hread⟩
  · rw [Config.taken_progOrigin, Config.taken_progTop]
    omega

end Sys2Proof.Proofs

/-! Proofs about the input rules of 47_input.md (R160 to R163), the timer rules of 48_timers.md (R170 to R173), and the
fault table of 60_exceptions.md (R181 to R183). -/

namespace Sys2Proof
open Sys2Proof.Safety

/-! ### The rows of the key and timer instructions (R73); SKP and SKNP have theirs above -/

theorem encodedBy_ldVxK : EncodedBy 0xF0FF#16 0xF00A#16 fun w => .ldVxK (fieldX w) :=
  encodedBy_row (r := ⟨"LD.Vx.K", _, _, 0, _⟩) (by simp [opcodeTable, opcodeRowsF]) rfl

theorem encodedBy_ldVxDt : EncodedBy 0xF0FF#16 0xF007#16 fun w => .ldVxDt (fieldX w) :=
  encodedBy_row (r := ⟨"LD.Vx.DT", _, _, 0, _⟩) (by simp [opcodeTable, opcodeRowsF]) rfl

theorem encodedBy_ldDtVx : EncodedBy 0xF0FF#16 0xF015#16 fun w => .ldDtVx (fieldX w) :=
  encodedBy_row (r := ⟨"LD.DT.Vx", _, _, 0, _⟩) (by simp [opcodeTable, opcodeRowsF]) rfl

theorem encodedBy_ldStVx : EncodedBy 0xF0FF#16 0xF018#16 fun w => .ldStVx (fieldX w) :=
  encodedBy_row (r := ⟨"LD.ST.Vx", _, _, 0, _⟩) (by simp [opcodeTable, opcodeRowsF]) rfl

end Sys2Proof

namespace Sys2Proof.Machine
open Sys2Proof.Safety

variable {cfg : Config} {s t : State} {i : Instr} {x : RegIdx}

/-! ### The key a register value names (R163) -/

theorem zext8_eq_ofNat (b : Byte) : zext8 b = BitVec.ofNat 16 b.toNat := (BitVec.ofNat_toNat 16 b).symm

theorem keyIndex_mask4_eq_some {b : Byte} {k : Fin 16} : keyIndex .mask4 b = some k ↔ k.val = b.toNat % 16 := by
  rw [keyIndex_mask4, Option.some_inj, Fin.ext_iff]
  exact eq_comm

/-- A key skip with the index in range skips when the key's flag is the one asked for. -/
theorem skipOnKey_of_keyIndex {k : Fin 16} (h : keyIndex cfg.keyIndexPolicy (s.getV x) = some k) (pressed : Bool) :
    skipOnKey cfg pressed x s = .next (s.skipIf (s.keys.get k == pressed)) := by
  rw [skipOnKey, h]

/-- A key skip that names a key tests that key alone, and changes `pc` alone (R160, R161). -/
theorem skipOnKey_spec {k : Fin 16} (h : keyIndex cfg.keyIndexPolicy (s.getV x) = some k) (pressed : Bool) :
    ∃ t, skipOnKey cfg pressed x s = .next t ∧ t.pc = (if s.keys.get k = pressed then s.pc + 2#16 else s.pc) ∧
      KeepsStack s t ∧ KeepsAllButPcAndStack s t :=
  ⟨_, skipOnKey_of_keyIndex h pressed, skipIf_spec s beq_iff_eq⟩

/-- Under the policy `fault` a key skip above 15 raises, with the register's value as info (R163, R181). -/
theorem skipOnKey_raises (hp : cfg.keyIndexPolicy = .fault) (h : 15 < (s.getV x).toNat) (pressed : Bool) :
    ∃ t, skipOnKey cfg pressed x s = .next t ∧ RaisedFrom s t .keyIndexRange (s.getV x).toNat := by
  rw [skipOnKey, hp, keyIndex_fault_eq_none.mpr h, zext8_eq_ofNat]
  exact raise_raisedFrom .keyIndexRange (s.getV x).toNat s

/-- Up to 15 a register value names the same key under both policies (R163). -/
theorem keyIndex_fault_eq_mask4_of_le {b : Byte} (h : b.toNat ≤ 15) : keyIndex .fault b = keyIndex .mask4 b := by
  have hk : keyIndex .fault b = some ⟨b.toNat, Nat.lt_succ_of_le h⟩ := keyIndex_fault_eq_some.mpr rfl
  rw [hk, eq_comm, keyIndex_mask4_eq_some]
  exact (Nat.mod_eq_of_lt (Nat.lt_succ_of_le h)).symm

/-! ### Waiting for a key (R162) -/

theorem exec_ldVxK_of_some {k : Fin 16} (h : lowestKey s.keys = some k) :
    exec (.ldVxK x) s = .next (s.setV x (BitVec.ofNat 8 k.val)) := by
  rw [exec, execLdVxK, h]

theorem exec_ldVxK_of_none (h : lowestKey s.keys = none) : exec (.ldVxK x) s = .next (s.setPc (s.pc - instrWidth)) := by
  rw [exec, execLdVxK, h]
  rfl

/-! ### The timer instructions (R170 to R172) -/

theorem exec_ldVxDt (x : RegIdx) (s : State) : exec (.ldVxDt x) s = .next (s.setV x s.dt) := rfl

theorem exec_ldDtVx (x : RegIdx) (s : State) : exec (.ldDtVx x) s = .next (s.setDt (s.getV x)) := rfl

theorem exec_ldStVx (x : RegIdx) (s : State) : exec (.ldStVx x) s = .next (s.setSt (s.getV x)) := rfl

/-- The frame of a write to the timers: all other state. -/
theorem keeps_update_dt_st (s : State) (b c : Byte) :
    let t := { s with dt := b, st := c }
    KeepsV [] s t ∧ t.pc = s.pc ∧ t.regI = s.regI ∧ KeepsStack s t ∧ KeepsFb s t ∧ KeepsMem s t ∧ KeepsLatches s t :=
  ⟨fun _ _ => rfl, rfl, rfl, ⟨rfl, rfl⟩, fun _ _ => rfl, fun _ => rfl, rfl, rfl, rfl, rfl, rfl⟩

/-- The output is active while ST is not 0 (R199). -/
theorem soundActive_iff : soundActive s = true ↔ s.st.toNat ≠ 0 := by
  rw [soundActive, bne_iff_ne, ← BitVec.toNat_inj.ne]
  rfl

/-! ### The fault table (R181, R182): what execute answers when the table gives a fault, and when it gives none -/

/-- Where the table gives a fault, the instruction raises it (R181). -/
theorem exec_of_instrFault_eq_some {c : Cause} {info : Nat} (h : instrFault i s = some (c, info)) :
    c ≠ .none ∧ ∃ t, exec i s = .next t ∧ RaisedFrom s t c info := by
  cases i
  case drw =>
    obtain ⟨⟨hn, hlast⟩, e⟩ := Option.ite_none_right_eq_some.mp h
    cases e
    exact ⟨by decide, exec_drw_raises hn hlast⟩
  case ldVxMem =>
    obtain ⟨hlast, e⟩ := Option.ite_none_right_eq_some.mp h
    cases e
    exact ⟨by decide, loadAtI_raises hlast⟩
  case ldB x =>
    obtain ⟨hlast, e⟩ := Option.ite_none_right_eq_some.mp h
    cases e
    exact ⟨by decide, storeAtI_raises (bs := bcdDigits (s.getV x)) (Nat.succ_lt_succ hlast) (Nat.succ_pos 2)⟩
  case ldMemVx x =>
    obtain ⟨hlast, e⟩ := Option.ite_none_right_eq_some.mp h
    cases e
    refine ⟨by decide, storeAtI_raises (bs := s.regsUpTo x) ?_ ?_⟩ <;> rw [length_regsUpTo]
    · exact Nat.succ_lt_succ hlast
    · exact Nat.succ_pos _
  case call =>
    obtain ⟨hfull, e⟩ := Option.ite_none_right_eq_some.mp h
    cases e
    rw [exec_call_of_le hfull]
    exact ⟨by decide, raise_raisedFrom _ _ _⟩
  case ret =>
    obtain ⟨hempty, e⟩ := Option.ite_none_right_eq_some.mp h
    cases e
    rw [exec_ret_of_eq_zero hempty]
    exact ⟨by decide, raise_raisedFrom _ 0 _⟩
  case skp | sknp =>
    obtain ⟨hkey, e⟩ := Option.ite_none_right_eq_some.mp h
    cases e
    exact ⟨by decide, skipOnKey_raises Config.taken_keyIndexPolicy hkey _⟩
  all_goals cases h

/-- An entry of the fault table that gives no fault: its condition fails. -/
theorem not_of_ite_some_eq_none {α : Type} {p : Prop} [Decidable p] {a : α} (h : (if p then some a else none) = none) :
    ¬ p := by simpa using h

/-- Both outcomes of LD Vx,K, the key found and the wait, leave a running core running (R162). -/
theorem execLdVxK_running (hs : Running s) : ∃ t, execLdVxK x s = .next t ∧ Running t := by
  unfold execLdVxK
  split <;> exact ⟨_, rfl, hs⟩

/-- A skip keeps a running core running. -/
theorem running_skipIf (hs : Running s) (c : Bool) : Running (s.skipIf c) := (State.skipIf_fault s c).trans hs

/-- A key skip with the index in range leaves a running core running. -/
theorem skipOnKey_running (hs : Running s) (h : (s.getV x).toNat ≤ 15) (pressed : Bool) :
    ∃ t, skipOnKey Config.taken pressed x s = .next t ∧ Running t :=
  ⟨_, skipOnKey_of_keyIndex (k := ⟨(s.getV x).toNat, Nat.lt_succ_of_le h⟩) (keyIndex_fault_eq_some.mpr rfl) pressed,
    running_skipIf hs _⟩

/-- Where the table gives no fault, no instruction leaves a running core faulted (R182). -/
theorem exec_of_instrFault_eq_none (hs : Running s) (h : instrFault i s = none) :
    ∃ t, exec i s = .next t ∧ Running t := by
  cases i
  case drw x y n =>
    have hin := not_of_ite_some_eq_none h
    exact ⟨_, exec_drw (by rw [State.addrI]; omega), hs⟩
  case ldVxMem => exact ⟨_, exec_ldVxMem (Nat.le_of_not_lt (not_of_ite_some_eq_none h)), hs⟩
  case ldB => exact ⟨_, exec_ldB (Nat.le_of_not_lt (not_of_ite_some_eq_none h)), hs⟩
  case ldMemVx => exact ⟨_, exec_ldMemVx (Nat.le_of_not_lt (not_of_ite_some_eq_none h)), hs⟩
  case call => exact ⟨_, exec_call_of_lt (Nat.lt_of_not_le (not_of_ite_some_eq_none h)), hs⟩
  case ret => exact ⟨_, exec_ret_of_pos (Nat.pos_of_ne_zero (not_of_ite_some_eq_none h)), hs⟩
  case skp | sknp => exact skipOnKey_running hs (Nat.le_of_not_lt (not_of_ite_some_eq_none h)) _
  case seByte | sneByte | seReg | sneReg => exact ⟨_, rfl, running_skipIf hs _⟩
  case jpV0 nnn => exact ⟨_, exec_jpV0 nnn s, hs⟩
  case ldVxK => exact execLdVxK_running hs
  all_goals exact ⟨_, rfl, hs⟩

/-- A raise seen from the advanced state is a fault of the whole step: `pc` is back where the step began (R82, R183). -/
theorem faultedFrom_of_raisedFrom_advance {c : Cause} {info : Nat} (h : RaisedFrom s.advance t c info) :
    FaultedFrom s t c info := by
  have hback : s.advance.pc - 2#16 = s.pc := BitVec.add_sub_cancel _ _
  rw [RaisedFrom, hback] at h
  exact h

/-- A step at which the table gives a fault answers that fault (R181, R183). -/
theorem step_of_stepFault_eq_some (hs : Running s) {c : Cause} {info : Nat} (h : stepFault s = some (c, info)) :
    ∃ t, step s = .next t ∧ FaultedFrom s t c info := by
  unfold stepFault at h
  split at h
  case isTrue hpc =>
    cases h
    refine ⟨_, step_fetchFault hs (by omega), ?_⟩
    rw [FaultedFrom, BitVec.ofNat_toNat, BitVec.setWidth_eq]
    rfl
  case isFalse hpc =>
    obtain ⟨hc, t, ht, hr⟩ := exec_of_instrFault_eq_some (s := s.advance) h
    have hf := faultedFrom_of_raisedFrom_advance hr
    refine ⟨t, ?_, hf⟩
    rw [step_running hs (by omega), instrAt, ht, finishResult, finish_of_faulted]
    rw [hf]
    exact hc

/-- A step at which the table gives no fault leaves the core running (R182). -/
theorem step_of_stepFault_eq_none (hs : Running s) (h : stepFault s = none) : ∃ t, step s = .next t ∧ Running t := by
  unfold stepFault at h
  split at h
  case isTrue => cases h
  case isFalse hpc =>
    obtain ⟨t, ht, hrun⟩ := exec_of_instrFault_eq_none (s := s.advance) hs h
    exact ⟨t.tick, step_of_exec hs (by omega) rfl ht hrun, hrun⟩

end Sys2Proof.Machine

namespace Sys2Proof.Proofs
open Sys2Proof Sys2Proof.Machine Sys2Proof.Safety

/-- Settles O16, from the two lemmas on the step at which the table gives a fault or none. -/
theorem faultsAreExactlyTheTableAndPrecise : Obligations.FaultsAreExactlyTheTableAndPrecise := by
  unfold Obligations.FaultsAreExactlyTheTableAndPrecise
  refine ⟨fun s hs => ?_, rfl, rfl, rfl, rfl, rfl, rfl, rfl⟩
  split
  next c info h => exact step_of_stepFault_eq_some hs h
  next h => exact step_of_stepFault_eq_none hs h

/-- Settles O58: the key found is the least one pressed, and going back is one write of `pc`. -/
theorem waitForKeyTakesTheLowestKey : Obligations.WaitForKeyTakesTheLowestKey := by
  unfold Obligations.WaitForKeyTakesTheLowestKey
  refine ⟨encodedBy_ldVxK, fun x s k hk hlow => ?_, fun x s hnone => ?_⟩
  · refine ⟨_, exec_ldVxK_of_some (lowestKey_eq_some.mpr ⟨hk, hlow⟩), ?_, keeps_setV s x _⟩
    rw [State.getV_setV_self, BitVec.toNat_ofNat]
    omega
  · exact ⟨_, exec_ldVxK_of_none (lowestKey_eq_none.mpr hnone), rfl, keepsStack_setPc s _, keepsAllButPcAndStack_setPc s _⟩

/-- Settles O60: each is a step without a fault, so it ticks what execute left in the timers. -/
theorem timerSetInAStepIsTickedInIt : Obligations.TimerSetInAStepIsTickedInIt := by
  unfold Obligations.TimerSetInAStepIsTickedInIt
  intro s x hrun hpc
  refine ⟨fun hi => ?_, fun hi => ?_, fun hi => ?_⟩
  · exact ⟨_, step_of_exec hrun hpc hi (exec_ldDtVx x s.advance) hrun, toNat_tickTimer _, toNat_tickTimer _⟩
  · have hst : (s.advance.setSt (s.getV x)).tick.st.toNat = (s.getV x).toNat - 1 := toNat_tickTimer _
    refine ⟨_, step_of_exec hrun hpc hi (exec_ldStVx x s.advance) hrun, hst, toNat_tickTimer _, soundActive_iff.trans ?_⟩
    rw [State.advance_getV, hst]
    omega
  · exact ⟨_, step_of_exec hrun hpc hi (exec_ldVxDt x s.advance) hrun, State.getV_setV_self s.advance x s.dt,
      toNat_tickTimer _⟩

/-- Settles O56: the index is the number in `V[x]` up to 15, and none above it. -/
theorem keySkipsTestTheIndexedKey : Obligations.KeySkipsTestTheIndexedKey := by
  unfold Obligations.KeySkipsTestTheIndexedKey
  refine ⟨encodedBy_skp, encodedBy_sknp, fun x s k hk => ?_, fun x s h => ?_⟩
  · have hkey : keyIndex Config.taken.keyIndexPolicy (s.getV x) = some k := keyIndex_fault_eq_some.mpr hk
    obtain ⟨t, ht, hpc, hkeeps⟩ := skipOnKey_spec hkey false
    refine ⟨skipOnKey_spec hkey true, t, ht, hpc.trans ?_, hkeeps⟩
    cases s.keys.get k <;> rfl
  · exact ⟨skipOnKey_raises Config.taken_keyIndexPolicy h true, skipOnKey_raises Config.taken_keyIndexPolicy h false⟩

/-- Settles O57: the two policies name the same key up to 15; above, one names none and the other the low 4 bits. -/
theorem keyIndexPoliciesDifferOnlyAboveFifteen : Obligations.KeyIndexPoliciesDifferOnlyAboveFifteen := by
  unfold Obligations.KeyIndexPoliciesDifferOnlyAboveFifteen
  intro cfg cfg4 p x s hfault hmask
  refine ⟨fun hle => ?_, fun hgt => ⟨skipOnKey_raises hfault hgt p, fun k hk => skipOnKey_spec ?_ p⟩⟩
  · have hkey := keyIndex_fault_eq_mask4_of_le hle
    obtain ⟨k, hk⟩ : ∃ k, keyIndex .mask4 (s.getV x) = some k := ⟨_, keyIndex_mask4 _⟩
    rw [skipOnKey_of_keyIndex (by rw [hfault, hkey, hk]), skipOnKey_of_keyIndex (by rw [hmask, hk])]
  · rw [hmask]
    exact keyIndex_mask4_eq_some.mpr hk

/-- Settles O59: each is one write, of a register or of a timer. -/
theorem timerInstructionsMoveTheTimers : Obligations.TimerInstructionsMoveTheTimers := by
  unfold Obligations.TimerInstructionsMoveTheTimers
  refine ⟨encodedBy_ldVxDt, encodedBy_ldDtVx, encodedBy_ldStVx, fun x s => ?_, fun x s => ?_, fun x s => ?_⟩
  · exact ⟨_, exec_ldVxDt x s, State.getV_setV_self s x s.dt, keeps_setV s x s.dt⟩
  · exact ⟨_, exec_ldDtVx x s, rfl, rfl, keeps_update_dt_st s _ _⟩
  · exact ⟨_, exec_ldStVx x s, rfl, soundActive_iff, rfl, keeps_update_dt_st s _ _⟩

end Sys2Proof.Proofs
